-- ==== Sys2Proof/Word.lean ====
section
/-! DEFINITION. The word types of the engine (00_scope.md R7). Every integer operator of the spec (R8) is the one
of `BitVec` at its width: `+` and `*` wrap, `<<<` loses the high bits, `>>>` is logical. -/

namespace Sys2Proof

/-- `u32` (R7). -/
abbrev Word := BitVec 32

/-- `u8` (R7). -/
abbrev Byte := BitVec 8

/-- A 16-bit byte offset into the engine's aperture (20_memory.md R62). -/
abbrev Offset := BitVec 16

/-- Sixteen words: the shape of `S`, `SNAP` and the digest registers (00_scope.md R1). -/
abbrev Words := Vector Word 16

/-- A 64-byte block (00_scope.md R1, 10_state.md R21). -/
abbrev Block := Vector Byte 64

/-- The contents of the permutation register: sixteen 4-bit indices (10_state.md R23). -/
abbrev Perm := Vector (Fin 16) 16

end Sys2Proof
end

