-- ==== Sys2Proof/Config.lean ====
section
/-! DEFINITION. What this implementation fixes (00_scope.md section 3), the hard-wired identity registers, and the
free values: constants without a body, so that no proof can see what they are. -/

namespace Sys2Proof

/-- `MIX_CONV` (00_scope.md R4): how NLMIX turns an integral value outside the signed 32-bit range into a word. -/
inductive MixConv where
  | wrap
  | sat
  | indef
deriving DecidableEq, Repr

/-- The parameters that 00_scope.md R2 and R4 have a model take as arguments, for one machine. A machine holds them in its
state and nothing writes them (log entry 11). -/
structure Params where
  /-- `MSG_BUF_BYTES / 64 - 1`: the legal values of `MSG_BUF_BYTES` are the multiples of 64 from 64 to 61440 (R2), one for
  each value of this field. -/
  bufUnits : Fin 960
  /-- `MIX_CONV` (R4). -/
  mixConv : MixConv
deriving DecidableEq, Repr

/-- `MSG_BUF_BYTES`, the byte capacity of the message buffer (R2). -/
def Params.bufBytes (P : Params) : Nat := 64 * (P.bufUnits.val + 1)

/-- The word the `CFG` register reads as: `MSG_BUF_BYTES` (10_state.md R35). -/
def Params.cfgWord (P : Params) : Word := BitVec.ofNat 32 P.bufBytes

namespace Config

/-- The legal values of `MSG_BUF_BYTES` (00_scope.md R2): a multiple of 64 from 64 to 61440. -/
def legalBufBytes (n : Nat) : Bool := n % 64 == 0 && decide (64 ≤ n) && decide (n ≤ 61440)

/-- This hardware: `MSG_BUF_BYTES = 4096` and `MIX_CONV = WRAP` (00_scope.md R2, R4). -/
def thisHardware : Params := ⟨63, .wrap⟩

/-- The `ID` register, the ASCII bytes "CHSH" (10_state.md R33). -/
def idWord : Word := 0x43485348

/-- The `VERSION` register: `ALGO_REV` 7, `IF_REV` 1 (10_state.md R34). -/
def versionWord : Word := 0x00070001

/-- FREE VALUE. What byte `n` of the message buffer holds at draw `d` while nothing has written it: unspecified
(20_memory.md R61; 93_implementation_defined.md I6). Log entry 7. -/
opaque powerOnByte : Nat → Nat → Byte

/-- FREE VALUE. Register `r` of the internal datapath state once it has become unspecified, at draw `d`
(10_state.md R30; 93_implementation_defined.md I7). Log entry 6. -/
opaque unspecifiedWord : Nat → Nat → Word

/-- FREE VALUE. Sixteen-word register `r` (`S`, `SNAP`) once it has become unspecified, at draw `d` (R30). Log entry 6. -/
opaque unspecifiedWords : Nat → Nat → Words

/-- FREE VALUE. `BLKR` once it has become unspecified, at draw `d` (R30). Log entry 6. -/
opaque unspecifiedBlock : Nat → Block

/-- FREE VALUE. `PERM` once it has become unspecified, at draw `d` (R30). Log entry 6. -/
opaque unspecifiedPerm : Nat → Perm

/-- FREE VALUE. The byte that `PADBYTE(n)` gives for the message at an `n` outside the padded sequence, `n >= PL`, for
which 41_padder.md R161 states none. Log entry 26. -/
opaque pastPadding : List Byte → Nat → Byte

end Config

end Sys2Proof
end

