-- ==== Sys2Proof/Syntax.lean ====
section
/-! DEFINITION. The syntax of CDE-CMD v1: one constructor of `Instr` per row of spec/opcode_table.json, the host's
operations, and the host-program notation of 30_encoding.md R104. -/

namespace Sys2Proof

/-- What a 16-bit offset selects (30_encoding.md R91, 10_state.md R31, 20_memory.md R70): a register, a reserved word
of the register block, a backed buffer word, or a word of the window beyond the buffer. -/
inductive Target where
  | id
  | version
  | cfg
  | ctrl
  | cmd
  | status
  | msgLen
  | seed
  | blkcnt
  | digest (k : Fin 16)
  /-- A reserved word of the register block; `n` is `off[11:2]` (10_state.md R43). -/
  | reserved (n : BitVec 10)
  /-- Buffer word `w`, holding the bytes `4w .. 4w+3` (20_memory.md R63). -/
  | buf (w : BitVec 14)
  /-- A word of the window that no buffer byte backs (20_memory.md R67). -/
  | beyond (w : BitVec 14)
deriving DecidableEq, Repr

/-- The commands of CDE-CMD v1 (30_encoding.md R94, R95). -/
inductive Command where
  | nop
  | start
  | abort
  | softReset
  | illegal (word : Word)
deriving DecidableEq, Repr

/-- The instructions: the command rows, the transaction rows and the stage rows of spec/opcode_table.json. -/
inductive Instr where
  /-- `CMD_NOP` (40_commands.md R126). -/
  | cmdNop
  /-- `CMD_START` (40_commands.md R127). -/
  | cmdStart
  /-- `CMD_ABORT` (40_commands.md R128). -/
  | cmdAbort
  /-- `CMD_SOFT_RESET` (40_commands.md R129). -/
  | cmdSoftReset
  /-- `CMD_ILLEGAL`: every other command word (30_encoding.md R95). -/
  | cmdIllegal (word : Word)
  /-- `RD` (40_commands.md R120). -/
  | rd (t : Target)
  /-- `WR_CTRL` (40_commands.md R122). -/
  | wrCtrl (data : Word)
  /-- `WR_CMD` (40_commands.md R125). -/
  | wrCmd (data : Word)
  /-- `WR_STATUS` (40_commands.md R124). -/
  | wrStatus (data : Word)
  /-- `WR_MSG_LEN` (40_commands.md R123). -/
  | wrMsgLen (data : Word)
  /-- `WR_BUF`: a write to buffer word `w` (20_memory.md R66). -/
  | wrBuf (w : BitVec 14) (data : Word)
  /-- `WR_IGNORED`: a write to a read-only or reserved offset (40_commands.md R121). -/
  | wrIgnored (t : Target) (data : Word)
  /-- `STAGE_IDLE` (40_commands.md R130). -/
  | stageIdle
  /-- `STAGE_SEED` (42_seed.md R180). -/
  | stageSeed
  /-- `STAGE_INIT` (43_state_init.md R200). -/
  | stageInit
  /-- `STAGE_LOAD` (41_padder.md R162). -/
  | stageLoad
  /-- `STAGE_PARAMS` (44_block_mixer.md R221). -/
  | stageParams
  /-- `STAGE_ABSORB` (44_block_mixer.md R223). -/
  | stageAbsorb
  /-- `STAGE_NLMIX` (44_block_mixer.md R230). -/
  | stageNlmix
  /-- `STAGE_PERMGEN` (44_block_mixer.md R240). -/
  | stagePermgen
  /-- `STAGE_PERMUTE` (44_block_mixer.md R243). -/
  | stagePermute
  /-- `STAGE_DIFFUSE` (44_block_mixer.md R250, R251). -/
  | stageDiffuse
  /-- `STAGE_COMPRESS` (45_compressor.md R280). -/
  | stageCompress
  /-- `STAGE_RESERVED`: a stage code 0xB..0xF (30_encoding.md R101). -/
  | stageReserved (code : BitVec 4)
deriving DecidableEq, Repr

/-- What the machine fetches for one step: a transaction record of the host (30_encoding.md R90), a command word on
its own (R93), or the code in the sequencer register (R100). -/
inductive CodeWord where
  | rd (off : Offset)
  | wr (off : Offset) (data : Word)
  | cmd (word : Word)
  | stage (code : BitVec 4)
deriving DecidableEq, Repr

/-- One operation of the host agent: a transaction (30_encoding.md R90), a command word (the transaction
`WR 0x010, word` named by its command row; log entry 4), or a POLL (R104; log entry 19). -/
inductive HostOp where
  | rd (off : Offset)
  | wr (off : Offset) (data : Word)
  | cmd (word : Word)
  | poll (off : Offset) (mask value : Word)
deriving DecidableEq, Repr

/-- Who moves next (20_memory.md R72), or the platform's reset input changing (70_reset_and_hazards.md R340). -/
inductive Turn where
  | host
  | engine
  | assertReset
  | releaseReset
deriving DecidableEq, Repr

/-- A line of a host program (30_encoding.md R104). -/
inductive HostLine where
  | wr (off : Offset) (data : Word)
  | rd (off : Offset)
  | poll (off : Offset) (mask value : Word)
  | cmdNop
  | cmdStart
  | cmdAbort
  | cmdSoftReset
  | clearDone
  | clearErr
  | waitIdle
  | setLen (n : Word)
  | loadMsg (bytes : List Byte)
  | readDigest
deriving DecidableEq, Repr

end Sys2Proof
end

