-- ==== Sys2Proof/WellFormed.lean ====
section
/-! DEFINITION. Which instructions an encoding can produce: operands inside the ranges of 30_encoding.md R91, R95 and
R101, for the machine's parameters (00_scope.md R2). -/

namespace Sys2Proof

/-- A buffer word index backed by buffer bytes: `w < MSG_BUF_BYTES / 4` (20_memory.md R63). -/
def bufWordBacked (P : Params) (w : BitVec 14) : Bool := decide (w.toNat < P.bufBytes / 4)

/-- The register indices `off[11:2]` that 10_state.md R31 reserves: offsets 0x024-0x03C and 0x080-0xFFC. -/
def regIndexReserved (n : BitVec 10) : Bool :=
  (decide (9 ≤ n.toNat) && decide (n.toNat ≤ 15)) || decide (32 ≤ n.toNat)

/-- The word indices of the aperture's window beyond the buffer (20_memory.md R67): the window has 15360 words. -/
def windowWordBeyond (P : Params) (w : BitVec 14) : Bool := !bufWordBacked P w && decide (w.toNat < 15360)

/-- A target names an offset that decodes to it. -/
def Target.wf (P : Params) : Target → Bool
  | .reserved n => regIndexReserved n
  | .buf w => bufWordBacked P w
  | .beyond w => windowWordBeyond P w
  | _ => true

/-- Writes that are ignored with no error: read-only registers, reserved words and the window beyond the buffer
(40_commands.md R121). -/
def Target.writeIgnored : Target → Bool
  | .ctrl => false
  | .cmd => false
  | .status => false
  | .msgLen => false
  | .buf _ => false
  | _ => true

/-- The command words that are not illegal: `RSVD = 0` and `OPCODE < 4` (30_encoding.md R94, R95). -/
def commandWordLegal (w : Word) : Bool := decide (w.toNat < 4)

/-- Well-formed instructions. -/
def Instr.wf (P : Params) : Instr → Bool
  | .cmdIllegal w => !commandWordLegal w
  | .rd t => t.wf P
  | .wrBuf w _ => bufWordBacked P w
  | .wrIgnored t _ => t.wf P && t.writeIgnored
  | .stageReserved code => decide (0xB ≤ code.toNat)
  | _ => true

end Sys2Proof
end

