-- ==== Sys2Proof/Decode.lean ====
section
/-! DEFINITION. The decoder (30_encoding.md R91, R94, R95, R100, R101), the encoder written from the same tables, and
the two read as bytes: the bits of a record numbered as spec/opcode_table.json numbers them. -/

namespace Sys2Proof

/-! ## Stage codes (30_encoding.md R100) -/

namespace StageCode
abbrev idle : BitVec 4 := 0x0
abbrev seed : BitVec 4 := 0x1
abbrev init : BitVec 4 := 0x2
abbrev load : BitVec 4 := 0x3
abbrev params : BitVec 4 := 0x4
abbrev absorb : BitVec 4 := 0x5
abbrev nlmix : BitVec 4 := 0x6
abbrev permgen : BitVec 4 := 0x7
abbrev permute : BitVec 4 := 0x8
abbrev diffuse : BitVec 4 := 0x9
abbrev compress : BitVec 4 := 0xA
end StageCode

/-! ## Offsets (30_encoding.md R91) -/

/-- The register block by word index `off[11:2]` (10_state.md R31). -/
def decodeRegIndex (n : BitVec 10) : Target :=
  match n.toNat with
  | 0 => .id
  | 1 => .version
  | 2 => .cfg
  | 3 => .ctrl
  | 4 => .cmd
  | 5 => .status
  | 6 => .msgLen
  | 7 => .seed
  | 8 => .blkcnt
  | k => if 16 ≤ k ∧ k < 32 then .digest (Fin.ofNat 16 (k - 16)) else .reserved n

/-- The window by word index `(off - 0x1000) >> 2` (20_memory.md R63, R67). -/
def decodeWindowIndex (P : Params) (w : BitVec 14) : Target :=
  if bufWordBacked P w then .buf w else .beyond w

/-- Every 16-bit offset selects one target; `off[1:0]` is ignored (30_encoding.md R91, 20_memory.md R69). -/
def decodeOff (P : Params) (off : Offset) : Target :=
  if off.extractLsb' 12 4 = 0#4 then decodeRegIndex (off.extractLsb' 2 10)
  else decodeWindowIndex P (off.extractLsb' 2 14 - 0x400#14)

/-- The offset of a register word index. -/
def regOffset (n : BitVec 10) : Offset := n.setWidth 16 <<< 2

/-- The offset of a window word index. -/
def windowOffset (w : BitVec 14) : Offset := (w + 0x400#14).setWidth 16 <<< 2

/-- The aligned offset of a target (10_state.md R31, 20_memory.md R63). -/
def encodeOff : Target → Offset
  | .id => 0x000
  | .version => 0x004
  | .cfg => 0x008
  | .ctrl => 0x00C
  | .cmd => 0x010
  | .status => 0x014
  | .msgLen => 0x018
  | .seed => 0x01C
  | .blkcnt => 0x020
  | .digest k => BitVec.ofNat 16 (0x040 + 4 * k.val)
  | .reserved n => regOffset n
  | .buf w => windowOffset w
  | .beyond w => windowOffset w

/-! ## Command words (30_encoding.md R93-R95) -/

/-- The whole 32-bit word is matched (30_encoding.md R94). -/
def decodeCommand (w : Word) : Command :=
  if w = 0x00000000#32 then .nop
  else if w = 0x00000001#32 then .start
  else if w = 0x00000002#32 then .abort
  else if w = 0x00000003#32 then .softReset
  else .illegal w

/-- The row of a command. -/
def Command.instr : Command → Instr
  | .nop => .cmdNop
  | .start => .cmdStart
  | .abort => .cmdAbort
  | .softReset => .cmdSoftReset
  | .illegal w => .cmdIllegal w

/-! ## Transactions and stages -/

/-- A write by its decoded offset (40_commands.md R121). -/
def decodeWrite (P : Params) (off : Offset) (data : Word) : Instr :=
  match decodeOff P off with
  | .ctrl => .wrCtrl data
  | .cmd => .wrCmd data
  | .status => .wrStatus data
  | .msgLen => .wrMsgLen data
  | .buf w => .wrBuf w data
  | t => .wrIgnored t data

/-- A stage code (30_encoding.md R100, R101). -/
def decodeStage (code : BitVec 4) : Instr :=
  match code.toNat with
  | 0x0 => .stageIdle
  | 0x1 => .stageSeed
  | 0x2 => .stageInit
  | 0x3 => .stageLoad
  | 0x4 => .stageParams
  | 0x5 => .stageAbsorb
  | 0x6 => .stageNlmix
  | 0x7 => .stagePermgen
  | 0x8 => .stagePermute
  | 0x9 => .stageDiffuse
  | 0xA => .stageCompress
  | _ => .stageReserved code

/-- The decoder: every code word is one instruction. The parameters decide which words of the window are backed. -/
def decode (P : Params) : CodeWord → Instr
  | .rd off => .rd (decodeOff P off)
  | .wr off data => decodeWrite P off data
  | .cmd w => (decodeCommand w).instr
  | .stage code => decodeStage code

/-- The encoder. -/
def encode : Instr → CodeWord
  | .cmdNop => .cmd 0x00000000
  | .cmdStart => .cmd 0x00000001
  | .cmdAbort => .cmd 0x00000002
  | .cmdSoftReset => .cmd 0x00000003
  | .cmdIllegal w => .cmd w
  | .rd t => .rd (encodeOff t)
  | .wrCtrl data => .wr 0x00C data
  | .wrCmd data => .wr 0x010 data
  | .wrStatus data => .wr 0x014 data
  | .wrMsgLen data => .wr 0x018 data
  | .wrBuf w data => .wr (windowOffset w) data
  | .wrIgnored t data => .wr (encodeOff t) data
  | .stageIdle => .stage 0x0
  | .stageSeed => .stage 0x1
  | .stageInit => .stage 0x2
  | .stageLoad => .stage 0x3
  | .stageParams => .stage 0x4
  | .stageAbsorb => .stage 0x5
  | .stageNlmix => .stage 0x6
  | .stagePermgen => .stage 0x7
  | .stagePermute => .stage 0x8
  | .stageDiffuse => .stage 0x9
  | .stageCompress => .stage 0xA
  | .stageReserved code => .stage code

/-- An offset with the two ignored bits cleared (20_memory.md R69). -/
def alignOff (off : Offset) : Offset := off &&& 0xFFFC#16

/-- A code word with the bits that decoding ignores cleared. -/
def CodeWord.canonical : CodeWord → CodeWord
  | .rd off => .rd (alignOff off)
  | .wr off data => .wr (alignOff off) data
  | w => w

/-! ## Records as bytes

The bus gives a record no place in memory. Its bits are numbered as the table numbers them: a stage row has bits 7:0
(`STATUS[7:4]`), a write row has the offset in bits 15:0, a command row has bits 31:0. A whole transaction record adds
the data (bits 47:16) and the direction, which the engine takes from the bus direction signal (30_encoding.md R90):
byte 6, 0 for a write and 1 for a read. DESIGN CHOICE, log entry 3. -/

/-- Why a byte string is no record. -/
inductive DecodeError where
  /-- No record has this many bytes. -/
  | recordLength (n : Nat)
  /-- The direction byte is neither 0 (write) nor 1 (read). -/
  | direction (b : Byte)
  /-- A read record carries no data (30_encoding.md R90). -/
  | readWithData (data : Word)
deriving DecidableEq, Repr

/-- Two bytes as an offset, least significant first. -/
def offsetOfBytes (b0 b1 : Byte) : Offset := b0.setWidth 16 ||| (b1.setWidth 16 <<< 8)

/-- Four bytes as a word, least significant first. -/
def wordOfBytes (b0 b1 b2 b3 : Byte) : Word :=
  b0.setWidth 32 ||| (b1.setWidth 32 <<< 8) ||| (b2.setWidth 32 <<< 16) ||| (b3.setWidth 32 <<< 24)

/-- The record a byte string spells, least significant byte first. -/
def recordOfBytes : List Byte → Except DecodeError CodeWord
  | [b] => .ok (.stage (b.extractLsb' 4 4))
  | [o0, o1] => .ok (.wr (offsetOfBytes o0 o1) 0)
  | [b0, b1, b2, b3] => .ok (.cmd (wordOfBytes b0 b1 b2 b3))
  | [o0, o1, d0, d1, d2, d3] => .ok (.wr (offsetOfBytes o0 o1) (wordOfBytes d0 d1 d2 d3))
  | [o0, o1, d0, d1, d2, d3, dir] =>
    if dir = 0#8 then .ok (.wr (offsetOfBytes o0 o1) (wordOfBytes d0 d1 d2 d3))
    else if dir = 1#8 then
      if wordOfBytes d0 d1 d2 d3 = 0#32 then .ok (.rd (offsetOfBytes o0 o1))
      else .error (.readWithData (wordOfBytes d0 d1 d2 d3))
    else .error (.direction dir)
  | bs => .error (.recordLength bs.length)

/-- Byte `i` of a number, least significant first. -/
def byteOf {n : Nat} (x : BitVec n) (i : Nat) : Byte := x.extractLsb' (8 * i) 8

/-- The bytes of a record. -/
def CodeWord.toBytes : CodeWord → List Byte
  | .stage code => [code ++ 0#4]
  | .cmd w => [byteOf w 0, byteOf w 1, byteOf w 2, byteOf w 3]
  | .wr off d =>
    [byteOf off 0, byteOf off 1, byteOf d 0, byteOf d 1, byteOf d 2, byteOf d 3, 0#8]
  | .rd off => [byteOf off 0, byteOf off 1, 0#8, 0#8, 0#8, 0#8, 1#8]

/-- The decoder on bytes: total, a byte string that is no record is rejected by name. -/
def decodeBytes (P : Params) (bs : List Byte) : Except DecodeError Instr :=
  match recordOfBytes bs with
  | .ok w => .ok (decode P w)
  | .error e => .error e

/-- The encoder to bytes. -/
def encodeBytes (i : Instr) : List Byte := (encode i).toBytes

/-- The first `nbits / 8` bytes of the number `w`, least significant first. -/
def tableBytes (nbits w : Nat) : List Byte :=
  (List.range (nbits / 8)).map fun i => BitVec.ofNat 8 (w / 2 ^ (8 * i))

/-- The code word that `nbits` bits of the opcode table's numbering spell. -/
def tableCodeWord (nbits w : Nat) : Option CodeWord :=
  match recordOfBytes (tableBytes nbits w) with
  | .ok c => some c
  | .error _ => none

/-- What this hardware's decoder reads from an instruction whose bits are `w` in the opcode table's numbering. -/
def decodeTableWord (nbits w : Nat) : Option Instr :=
  match decodeBytes Config.thisHardware (tableBytes nbits w) with
  | .ok i => some i
  | .error _ => none

/-! ## The rows of spec/opcode_table.json -/

/-- One row: how many bits it gives, its mask and its match value. -/
structure TableRow where
  nbits : Nat
  mask : Nat
  value : Nat
deriving DecidableEq, Repr

/-- The row of each instruction; WR_BUF's mask and match are those of `MSG_BUF_BYTES = 4096`, as the table shows them.
The rows CMD_ILLEGAL, RD and WR_IGNORED fix no bit (mask 0). -/
def Instr.tableRow : Instr → TableRow
  | .cmdNop => ⟨32, 0xFFFFFFFF, 0x00000000⟩
  | .cmdStart => ⟨32, 0xFFFFFFFF, 0x00000001⟩
  | .cmdAbort => ⟨32, 0xFFFFFFFF, 0x00000002⟩
  | .cmdSoftReset => ⟨32, 0xFFFFFFFF, 0x00000003⟩
  | .cmdIllegal _ => ⟨32, 0, 0⟩
  | .rd _ => ⟨16, 0, 0⟩
  | .wrCtrl _ => ⟨16, 0xFFFC, 0x000C⟩
  | .wrCmd _ => ⟨16, 0xFFFC, 0x0010⟩
  | .wrStatus _ => ⟨16, 0xFFFC, 0x0014⟩
  | .wrMsgLen _ => ⟨16, 0xFFFC, 0x0018⟩
  | .wrBuf _ _ => ⟨16, 0xF000, 0x1000⟩
  | .wrIgnored _ _ => ⟨16, 0, 0⟩
  | .stageIdle => ⟨8, 0xF0, 0x00⟩
  | .stageSeed => ⟨8, 0xF0, 0x10⟩
  | .stageInit => ⟨8, 0xF0, 0x20⟩
  | .stageLoad => ⟨8, 0xF0, 0x30⟩
  | .stageParams => ⟨8, 0xF0, 0x40⟩
  | .stageAbsorb => ⟨8, 0xF0, 0x50⟩
  | .stageNlmix => ⟨8, 0xF0, 0x60⟩
  | .stagePermgen => ⟨8, 0xF0, 0x70⟩
  | .stagePermute => ⟨8, 0xF0, 0x80⟩
  | .stageDiffuse => ⟨8, 0xF0, 0x90⟩
  | .stageCompress => ⟨8, 0xF0, 0xA0⟩
  | .stageReserved code => ⟨8, 0xF0, 16 * code.toNat⟩

/-- The number a code word spells in the table's numbering, over the row's bits. -/
def CodeWord.tableBits : CodeWord → Nat
  | .rd off => off.toNat
  | .wr off _ => off.toNat
  | .cmd w => w.toNat
  | .stage code => 16 * code.toNat

end Sys2Proof
end

