-- ==== Sys2Proof/Machine/State.lean ====
section
/-! DEFINITION. The state of the machine: everything 10_state.md and 20_memory.md give it, the host agent's pending
operations and the interleaving (20_memory.md R72) as plain data, and the reasons a step can stop. -/

namespace Sys2Proof.Machine

/-- The message buffer (20_memory.md R60): the bytes that have been written since the last hard reset, addresses
strictly rising. An unlisted address holds no written byte; what reading it gives is `Memory.read` of Ops.lean. -/
abbrev Memory := List Host.Cell

/-- The error codes of 30_encoding.md R102. The reserved codes 0x4-0xF are never recorded. -/
inductive ErrCode where
  | none
  | len
  | busy
  | cmd
deriving DecidableEq, Repr

/-- The machine's state. -/
structure State where
  /-- The parameters of the machine (00_scope.md R2, R4). Fixed: nothing writes them. -/
  params : Params
  /-- The state file `S[0..15]` (R20). -/
  S : Words
  /-- The block register `BLKR[0..63]` (R21). -/
  blkr : Block
  /-- The parameter register `A` (R22). -/
  a : Word
  /-- The parameter register `B` (R22). -/
  b : Word
  /-- The parameter register `C` (R22). -/
  c : Word
  /-- The permutation register `PERM[0..15]` (R23). -/
  perm : Perm
  /-- The permutation counter `CTR` (R24). -/
  ctr : Word
  /-- The length latch `LEN_L` (R25). -/
  lenL : Word
  /-- The block-count latch `NB` (R26). -/
  nb : Word
  /-- The block index `BLK` (R26). -/
  blk : Word
  /-- The snapshot register `SNAP[0..15]` (R27). -/
  snap : Words
  /-- The sequencer register `stage` (R28): the engine's program counter. -/
  stage : BitVec 4
  /-- `CTRL.IRQ_EN` (R36). -/
  irqEn : Bool
  /-- `STATUS.DONE` (R38). -/
  done : Bool
  /-- `STATUS.ERR` (R38). -/
  err : Bool
  /-- `STATUS.ERR_CODE` (R38). -/
  errCode : ErrCode
  /-- `MSG_LEN` (R40). -/
  msgLen : Word
  /-- `SEED` (R39). -/
  seed : Word
  /-- `BLKCNT` (R41). -/
  blkcnt : Word
  /-- `DIGEST0..DIGEST15` (R42). -/
  digest : Words
  /-- `MSG_BUF` (R60). -/
  msgBuf : Memory
  /-- The level of the platform's reset input: true while asserted (R340). -/
  rstAsserted : Bool
  /-- The host's operations not yet issued, in order (R72). -/
  host : List HostOp
  /-- Who moves at the next steps (R72). -/
  turns : List Turn
  /-- The words that reads have returned to the host, newest first (R120). -/
  responses : List Word
  /-- The model's own: how many times unspecified values have been drawn. -/
  draws : Nat
  /-- The model's own: the draw the never-written bytes of `MSG_BUF` belong to. -/
  bufDraw : Nat
deriving DecidableEq, Repr

/-- The reasons the machine stops. No accepted run reaches either (60_exceptions.md R300). -/
inductive Fault where
  /-- Raised by STAGE_RESERVED: `stage` holds a code 0xB..0xF, a state the hardware cannot reach (30_encoding.md R101:
  "faults"). Safe: the model stops where the spec says it faults. -/
  | reservedStage (code : BitVec 4)
  /-- Raised by SEED and LOAD: a `MemRead` at a byte address that does not exist, `n >= MSG_BUF_BYTES`, which needs a
  `LEN_L` that no accepted START latches (20_memory.md R64). Safe: the model stops. -/
  | bufferRange (addr : Nat)
deriving DecidableEq, Repr

/-- The reasons an instruction is refused. -/
inductive Refusal where
  /-- Raised by an arm of Dispatch.lean whose instruction has no meaning yet (none is left). Safe: the model stops. -/
  | notModelled (mnemonic : String)
deriving DecidableEq, Repr

/-- The outcome of a step. -/
abbrev Outcome := Host.Outcome State Fault Refusal

/-- A machine with the parameters given, right after a hard reset (R45, R340). The datapath registers, for which the
spec gives no value, hold zero: DESIGN CHOICE, log entry 5. No byte of `MSG_BUF` is listed (R61); no operation and no turn is pending. -/
def State.resetAt (P : Params) : State where
  params := P
  S := Vector.replicate 16 0
  blkr := Vector.replicate 64 0
  a := 0
  b := 0
  c := 0
  perm := Vector.replicate 16 0
  ctr := 0
  lenL := 0
  nb := 0
  blk := 0
  snap := Vector.replicate 16 0
  stage := 0x0
  irqEn := false
  done := false
  err := false
  errCode := .none
  msgLen := 0
  seed := 0
  blkcnt := 0
  digest := Vector.replicate 16 0
  msgBuf := []
  rstAsserted := false
  host := []
  turns := []
  responses := []
  draws := 0
  bufDraw := 0

/-- This hardware right after a hard reset. -/
def State.reset : State := State.resetAt Config.thisHardware

end Sys2Proof.Machine
end

