-- ==== Sys2Proof/Machine/Flags.lean ====
section
/-! DEFINITION. The flags: `BUSY` (10_state.md R29), the words `STATUS` and `CTRL` read as (30_encoding.md R97, R99),
and the interrupt output (10_state.md R44). -/

namespace Sys2Proof.Machine

/-- The code an error is read back as (30_encoding.md R102). -/
def ErrCode.code : ErrCode → BitVec 4
  | .none => 0x0
  | .len => 0x1
  | .busy => 0x2
  | .cmd => 0x3

/-- `STATUS.BUSY = 1` exactly when `stage != IDLE` (10_state.md R29). -/
def State.busy (s : State) : Bool := decide (s.stage ≠ StageCode.idle)

/-- The word `STATUS` reads as: ERR_CODE, STAGE, a zero, ERR, DONE, BUSY (30_encoding.md R97). -/
def State.statusWord (s : State) : Word :=
  (s.errCode.code.setWidth 32 <<< 8) ||| (s.stage.setWidth 32 <<< 4) |||
    ((BitVec.ofBool s.err).setWidth 32 <<< 2) ||| ((BitVec.ofBool s.done).setWidth 32 <<< 1) |||
    (BitVec.ofBool s.busy).setWidth 32

/-- The word `CTRL` reads as (30_encoding.md R99). -/
def State.ctrlWord (s : State) : Word := (BitVec.ofBool s.irqEn).setWidth 32

/-- The interrupt output, a level (10_state.md R44, 60_exceptions.md R309). -/
def State.irq (s : State) : Bool := s.irqEn && (s.done || s.err)

end Sys2Proof.Machine
end

