-- ==== Sys2Proof/Machine/Operands.lean ====
section
/-! DEFINITION. How operands are formed: big-endian words of bytes (00_scope.md R10, 30_encoding.md R103), bytes of a
word (20_memory.md R63, 45_compressor.md R281), and the rotation of 00_scope.md R9. -/

namespace Sys2Proof.Machine

/-- `BE32` of four bytes, the most significant first (00_scope.md R10). -/
def be32 (b0 b1 b2 b3 : Byte) : Word :=
  (b0.setWidth 32 <<< 24) ||| (b1.setWidth 32 <<< 16) ||| (b2.setWidth 32 <<< 8) ||| b3.setWidth 32

/-- Byte `m` of a word in big-endian lane order: bits `[31-8m : 24-8m]` (20_memory.md R63, 10_state.md R42). -/
def laneByte (w : Word) (m : Fin 4) : Byte := w.extractLsb' (24 - 8 * m.val) 8

/-- `rotl32(x, r)` for `0 <= r <= 31` (00_scope.md R9). -/
def rotl32 (x : Word) (r : Nat) : Word :=
  if r = 0 then x else (x <<< r) ||| (x >>> (32 - r))

/-- Byte `n` of a block; total, with zero beyond the 64 bytes, which no operand form reaches. -/
def blockByte (blk : Block) (n : Nat) : Byte := blk.toArray.getD n 0

/-- `BE32(BLKR, 4*i)`, block word `W_i` (30_encoding.md R103). -/
def blockWord (blk : Block) (i : Nat) : Word :=
  be32 (blockByte blk (4 * i)) (blockByte blk (4 * i + 1)) (blockByte blk (4 * i + 2)) (blockByte blk (4 * i + 3))

/-- Parameter `a`: bytes 0-3 (30_encoding.md R103). -/
def paramA (blk : Block) : Word := blockWord blk 0

/-- Parameter `b`: bytes 4-7 (30_encoding.md R103). -/
def paramB (blk : Block) : Word := blockWord blk 1

/-- Parameter `c`: bytes 8-11 (30_encoding.md R103). -/
def paramC (blk : Block) : Word := blockWord blk 2

/-- The seed of the permutation counter: bytes 0-3, equal to `a` (30_encoding.md R103). -/
def ctrSeed (blk : Block) : Word := blockWord blk 0

/-- The rotate amount of DIFFUSE: the low five bits of a state word (30_encoding.md R103, 44_block_mixer.md R250). -/
def rotAmount (x : Word) : Nat := (x &&& 0x1F#32).toNat

end Sys2Proof.Machine
end

