-- ==== Sys2Proof/Machine/Ops.lean ====
section
/-! DEFINITION. The operations over memory and registers that the meanings share: the message buffer (20_memory.md),
register reads (40_commands.md R120), recording an error and clearing it (60_exceptions.md R305, R306), the internal
state becoming unspecified (10_state.md R30) and the resets (10_state.md R45). -/

namespace Sys2Proof.Machine

/-! ## The message buffer -/

/-- The byte written at an address, if one was. -/
def Memory.find? : Memory → Nat → Option Byte
  | [], _ => none
  | (k, v) :: rest, n => if k = n then some v else Memory.find? rest n

/-- One byte of the buffer: the byte written there, or, where nothing was written since the hard reset of draw `d`, a
free value (20_memory.md R61, log entry 7). -/
def Memory.read (m : Memory) (d n : Nat) : Byte := (Memory.find? m n).getD (Config.powerOnByte d n)

/-- Write one byte; addresses stay strictly rising. -/
def Memory.write : Memory → Nat → Byte → Memory
  | [], n, v => [(n, v)]
  | (k, w) :: rest, n, v =>
    if n < k then (n, v) :: (k, w) :: rest
    else if n = k then (n, v) :: rest
    else (k, w) :: Memory.write rest n v

/-- Every address of the list is above `n`. -/
def Memory.above (n : Nat) : Memory → Bool
  | [] => true
  | (k, _) :: rest => decide (n < k) && Memory.above n rest

/-- Addresses strictly rising. -/
def Memory.rising : Memory → Bool
  | [] => true
  | (k, _) :: rest => Memory.above k rest && Memory.rising rest

/-- Every address exists in a buffer of `cap` bytes (20_memory.md R60). -/
def Memory.inBuffer (cap : Nat) : Memory → Bool
  | [] => true
  | (k, _) :: rest => decide (k < cap) && Memory.inBuffer cap rest

/-- The canonical form in a buffer of `cap` bytes: addresses strictly rising, all of them in the buffer. An unlisted
address holds no value of its own, so no entry can repeat one. -/
def Memory.wf (cap : Nat) (m : Memory) : Bool := Memory.rising m && Memory.inBuffer cap m

/-- `MSG_BUF[n]` (20_memory.md R60). -/
def State.bufByte (s : State) (n : Nat) : Byte := Memory.read s.msgBuf s.bufDraw n

/-- The bus word of buffer word `w`: `BE32(MSG_BUF, 4w)` (20_memory.md R63, R65). -/
def State.bufWord (s : State) (w : Nat) : Word :=
  be32 (s.bufByte (4 * w)) (s.bufByte (4 * w + 1)) (s.bufByte (4 * w + 2)) (s.bufByte (4 * w + 3))

/-- The four bytes of a word at `n .. n+3`, in big-endian lane order (20_memory.md R66). -/
def Memory.writeWord (m : Memory) (n : Nat) (d : Word) : Memory :=
  Memory.write (Memory.write (Memory.write (Memory.write m n (laneByte d 0)) (n + 1) (laneByte d 1))
    (n + 2) (laneByte d 2)) (n + 3) (laneByte d 3)

/-- The address of the first byte of buffer word `w` (20_memory.md R63). -/
def bufWordAddr (w : BitVec 14) : Nat := 4 * w.toNat

/-! ## Reading a register (40_commands.md R120) -/

/-- What a read of a target returns, with no side effect; a buffer word that no byte backs reads as zero (20_memory.md
R67). -/
def State.readTarget (s : State) : Target → Word
  | .id => Config.idWord
  | .version => Config.versionWord
  | .cfg => s.params.cfgWord
  | .ctrl => s.ctrlWord
  | .cmd => 0
  | .status => s.statusWord
  | .msgLen => s.msgLen
  | .seed => s.seed
  | .blkcnt => s.blkcnt
  | .digest k => s.digest.get k
  | .reserved _ => 0
  | .buf w => if bufWordBacked s.params w then s.bufWord w.toNat else 0
  | .beyond _ => 0

/-! ## Errors: the engine's exception entry and return (60_exceptions.md R305, R306) -/

/-- `raise Error(code)`: the first error is recorded and stays; nothing else changes (60_exceptions.md R305, R307). -/
def State.raiseError (s : State) (code : ErrCode) : State :=
  if s.err then s else { s with err := true, errCode := code }

/-- Clearing a recorded error: `ERR = 0` and `ERR_CODE = NONE` (60_exceptions.md R306). -/
def State.clearErr (s : State) : State := { s with err := false, errCode := .none }

/-- Clearing `DONE` (40_commands.md R124). -/
def State.clearDone (s : State) : State := { s with done := false }

/-! ## Unspecified internal state (10_state.md R30) -/

/-- The internal datapath state becomes unspecified: every register of R30 takes a fresh free value (log entry 6). -/
def State.forgetDatapath (s : State) : State :=
  { s with
    S := Config.unspecifiedWords s.draws 0
    blkr := Config.unspecifiedBlock s.draws
    a := Config.unspecifiedWord s.draws 0
    b := Config.unspecifiedWord s.draws 1
    c := Config.unspecifiedWord s.draws 2
    perm := Config.unspecifiedPerm s.draws
    ctr := Config.unspecifiedWord s.draws 3
    lenL := Config.unspecifiedWord s.draws 4
    nb := Config.unspecifiedWord s.draws 5
    blk := Config.unspecifiedWord s.draws 6
    snap := Config.unspecifiedWords s.draws 1
    draws := s.draws + 1 }

/-! ## Resets (10_state.md R45) -/

/-- Every host-visible register at its reset value, `stage = IDLE`, the datapath unspecified: SOFT_RESET
(40_commands.md R129), which leaves `MSG_BUF` as it is. -/
def State.softReset (s : State) : State :=
  { s.forgetDatapath with
    stage := StageCode.idle
    irqEn := false
    done := false
    err := false
    errCode := .none
    msgLen := 0
    seed := 0
    blkcnt := 0
    digest := Vector.replicate 16 0 }

/-- The hard reset: as SOFT_RESET, and `MSG_BUF` becomes unspecified as well (70_reset_and_hazards.md R340, R341). -/
def State.hardReset (s : State) : State :=
  { s.softReset with msgBuf := [], bufDraw := s.draws + 1, draws := s.draws + 2 }

end Sys2Proof.Machine
end

