-- ==== Sys2Proof/Machine/Commands.lean ====
section
/-! DEFINITION. The command rows of the opcode table (40_commands.md R125-R129). -/

namespace Sys2Proof.Machine

/-- `CMD_NOP`: no effect (R126). -/
def execCmdNop (s : State) : Outcome := .next s

/-- What an accepted START does (R127): it latches the length and the block count and sets `stage = SEED`. -/
def State.startRun (s : State) : State :=
  { s with
    lenL := s.msgLen
    nb := (s.msgLen >>> 6) + 1
    blk := 0
    blkcnt := 0
    done := false
    stage := StageCode.seed }

/-- `CMD_START` (R127): BUSY is checked before the length (60_exceptions.md R304). -/
def execCmdStart (s : State) : Outcome :=
  if s.busy then .next (s.raiseError .busy)
  else if s.params.bufBytes < s.msgLen.toNat then .next (s.raiseError .len)
  else .next s.startRun

/-- `CMD_ABORT` (R128): a run stops and the datapath becomes unspecified; while idle, no effect. -/
def execCmdAbort (s : State) : Outcome :=
  if s.busy then .next { s.forgetDatapath with stage := StageCode.idle } else .next s

/-- `CMD_SOFT_RESET` (R129). -/
def execCmdSoftReset (s : State) : Outcome := .next s.softReset

/-- `CMD_ILLEGAL`: `Error(CMD)` in every state, whatever the word (60_exceptions.md R303). -/
def execCmdIllegal (_word : Word) (s : State) : Outcome := .next (s.raiseError .cmd)

end Sys2Proof.Machine
end

