-- ==== Sys2Proof/Machine/HostAccess.lean ====
section
/-! DEFINITION. The transaction rows of the opcode table (40_commands.md R120-R125, 20_memory.md R65-R67). -/

namespace Sys2Proof.Machine

/-- `RD`: the word goes to the host; the engine's state is unchanged (R120). -/
def execRd (t : Target) (s : State) : Outcome := .next { s with responses := s.readTarget t :: s.responses }

/-- `WR_CTRL`: `IRQ_EN` takes bit 0, in every state (R122). -/
def execWrCtrl (data : Word) (s : State) : Outcome := .next { s with irqEn := data.getLsbD 0 }

/-- `WR_CMD`: the command word is decoded and the command takes effect within this transaction (R125). -/
def execWrCmd (data : Word) (s : State) : Outcome :=
  match decodeCommand data with
  | .nop => execCmdNop s
  | .start => execCmdStart s
  | .abort => execCmdAbort s
  | .softReset => execCmdSoftReset s
  | .illegal w => execCmdIllegal w s

/-- `WR_STATUS`: write one to clear, bit 1 for `DONE` and bit 2 for `ERR` with its code (R124). -/
def execWrStatus (data : Word) (s : State) : Outcome :=
  let s := if data.getLsbD 1 then s.clearDone else s
  let s := if data.getLsbD 2 then s.clearErr else s
  .next s

/-- `WR_MSG_LEN`: refused with `Error(BUSY)` during a run, otherwise all 32 bits are stored (R123). -/
def execWrMsgLen (data : Word) (s : State) : Outcome :=
  if s.busy then .next (s.raiseError .busy) else .next { s with msgLen := data }

/-- `WR_BUF`: refused with `Error(BUSY)` during a run, otherwise four bytes are stored (20_memory.md R66). A word that
no buffer byte backs ignores the write (R67). -/
def execWrBuf (w : BitVec 14) (data : Word) (s : State) : Outcome :=
  if bufWordBacked s.params w then
    if s.busy then .next (s.raiseError .busy)
    else .next { s with msgBuf := Memory.writeWord s.msgBuf (bufWordAddr w) data }
  else .next s

/-- `WR_IGNORED`: read-only and reserved offsets ignore a write, with no error (R121). -/
def execWrIgnored (_t : Target) (_data : Word) (s : State) : Outcome := .next s

end Sys2Proof.Machine
end

