-- ==== Sys2Proof/Machine/Float64.lean ====
section
/-! DEFINITION. The finite IEEE 754 binary64 values and the primitives of 00_scope.md R11, rounding to nearest, ties to
even. The engine makes no infinity and no NaN (R11), so neither is represented: log entry 10. -/

namespace Sys2Proof.Machine

/-- The finite value `(-1)^neg * man * 2^exp * 2^(-1074)`. Software never sees the bits of a binary64 value, so the
fields are numbers. `-0` is `man = 0` with `neg`. -/
structure F64 where
  neg : Bool
  man : Nat
  exp : Nat
deriving DecidableEq, Repr

/-- The one form of each finite binary64 value: a 53-bit significand, normal unless the exponent is the lowest, below
the overflow threshold. -/
def F64.wf (x : F64) : Bool :=
  decide (x.man < 2 ^ 53) && (decide (2 ^ 52 ≤ x.man) || decide (x.exp = 0)) && decide (x.exp ≤ 2045)

/-- The magnitude in units of `2^(-1074)`, the spacing of the smallest values. -/
def F64.mag (x : F64) : Nat := x.man * 2 ^ x.exp

/-- The exact value. -/
def F64.value (x : F64) : ℚ := (if x.neg then -1 else 1) * (x.mag : ℚ) / 2 ^ 1074

/-- `y` is the binary64 value nearest to the number `v`, ties to even (00_scope.md R11). -/
def F64.IsNearest (y : F64) (v : ℝ) : Prop :=
  y.wf = true ∧ ∀ z : F64, z.wf = true →
    |(y.value : ℝ) - v| ≤ |(z.value : ℝ) - v| ∧
      (|(y.value : ℝ) - v| = |(z.value : ℝ) - v| → z.value ≠ y.value → y.man % 2 = 0)

/-- Round `m * 2^(-sh)` to an integer, ties to even. -/
def roundShift (m sh : Nat) : Nat :=
  let q := m / 2 ^ sh
  let r := m % 2 ^ sh
  if 2 ^ sh < 2 * r ∨ (2 * r = 2 ^ sh ∧ q % 2 = 1) then q + 1 else q

/-- The binary64 value nearest to `m * 2^(-f)` units of `2^(-1074)`, ties to even, with the sign given. -/
def F64.round (neg : Bool) (m f : Nat) : F64 :=
  let e := m.log2 + 1 - (f + 53)
  let q := roundShift m (e + f)
  if q = 2 ^ 53 then ⟨neg, 2 ^ 52, e + 1⟩ else ⟨neg, q, e⟩

/-- Positive zero. -/
def F64.zero : F64 := ⟨false, 0, 0⟩

/-- `f64(x)`: a word as a binary64 value, exact (00_scope.md R11). -/
def F64.ofWord (x : Word) : F64 := F64.round false (x.toNat * 2 ^ 1074) 0

/-- `fmul(p, q)`: the correctly rounded product (00_scope.md R11). -/
def F64.mul (p q : F64) : F64 := F64.round (p.neg != q.neg) (p.mag * q.mag) 1074

/-- The largest integer `<= p`. -/
def F64.floorInt (p : F64) : Int :=
  if p.neg then -((p.mag + (2 ^ 1074 - 1)) / 2 ^ 1074 : Nat) else (p.mag / 2 ^ 1074 : Nat)

/-- `floor64(p)`: the largest integral binary64 value `<= p`, keeping the sign of a zero (00_scope.md R11). -/
def F64.floor (p : F64) : F64 := F64.round p.neg (p.floorInt.natAbs * 2 ^ 1074) 0

/-- The integer an integral binary64 value stands for. -/
def F64.toInt (v : F64) : Int :=
  if v.neg then -(v.mag / 2 ^ 1074 : Nat) else (v.mag / 2 ^ 1074 : Nat)

/-- The word of an integer outside the signed 32-bit range, per `MIX_CONV` (00_scope.md R4). -/
def convOutside (conv : MixConv) (n : Int) : Word :=
  match conv with
  | .wrap => BitVec.ofInt 32 n
  | .sat => if n < 0 then 0x80000000 else 0x7FFFFFFF
  | .indef => 0x80000000

/-- `conv32(v)` of an integral binary64 value (44_block_mixer.md R233): two's complement inside the signed 32-bit
range, by `MIX_CONV` outside it. -/
def conv32 (conv : MixConv) (v : F64) : Word :=
  if -2 ^ 31 ≤ v.toInt ∧ v.toInt ≤ 2 ^ 31 - 1 then BitVec.ofInt 32 v.toInt else convOutside conv v.toInt

end Sys2Proof.Machine
end

