-- ==== Sys2Proof/Laws/Float64.lean ====
section
/-! SUPPORT. Rounding: `F64.round` gives the binary64 value nearest to its argument, ties to even; a representable number
is its own rounding; rounding never crosses a representable bound. -/

namespace Sys2Proof.Machine

/-! ## Rounding to an integer -/

/-- The remainder of `roundShift` is at most half a unit, and an exact half rounds to even. -/
theorem roundShift_spec (m sh : Nat) :
    2 * ((roundShift m sh : Int) * 2 ^ sh - m).natAbs ≤ 2 ^ sh ∧
    (2 * ((roundShift m sh : Int) * 2 ^ sh - m).natAbs = 2 ^ sh → roundShift m sh % 2 = 0) := by
  have hD : 0 < 2 ^ sh := Nat.pos_of_ne_zero (by simp)
  have hmod := Nat.mod_lt m hD
  have hdiv : (2 : Int) ^ sh * (m / 2 ^ sh : Nat) + (m % 2 ^ sh : Nat) = m := by
    exact_mod_cast Nat.div_add_mod m (2 ^ sh)
  have hcast : ((2 ^ sh : Nat) : Int) = 2 ^ sh := by push_cast; rfl
  simp only [roundShift]
  generalize m / 2 ^ sh = q at *
  generalize m % 2 ^ sh = r at *
  generalize 2 ^ sh = D at *
  split
  · have e : ((q + 1 : Nat) : Int) * 2 ^ sh - m = (D : Int) - r := by rw [← hdiv]; push_cast; rw [hcast]; ring
    rw [e]; omega
  · have e : (q : Int) * 2 ^ sh - m = -(r : Int) := by rw [← hdiv]; ring
    rw [e]; omega

/-- No integer is nearer to `m / 2^sh` than `roundShift m sh`, and another one as near makes it even. -/
theorem roundShift_nearest (m sh : Nat) (k : Int) :
    |(roundShift m sh : Int) * 2 ^ sh - m| ≤ |k * 2 ^ sh - m| ∧
    (|(roundShift m sh : Int) * 2 ^ sh - m| = |k * 2 ^ sh - m| → k ≠ roundShift m sh → roundShift m sh % 2 = 0) := by
  obtain ⟨h1, h2⟩ := roundShift_spec m sh
  generalize roundShift m sh = q at *
  have hcast : ((2 ^ sh : Nat) : Int) = 2 ^ sh := by push_cast; rfl
  by_cases hk : k = q
  · subst hk; exact ⟨le_refl _, fun _ h => absurd rfl h⟩
  · have far : (2 ^ sh : Int) ≤ |k * 2 ^ sh - q * 2 ^ sh| := by
      rw [← sub_mul, abs_mul, abs_of_pos (by positivity : (0 : Int) < 2 ^ sh)]
      have : 1 ≤ |k - q| := Int.one_le_abs (sub_ne_zero.2 hk)
      nlinarith [this, (by positivity : (0 : Int) < 2 ^ sh)]
    rw [← hcast] at h1 h2 far ⊢
    generalize (2 ^ sh : Nat) = D at *
    generalize k * (D : Int) = K at *
    generalize (q : Int) * (D : Int) = Q at *
    simp only [Int.abs_eq_natAbs] at *
    omega

/-! ## Magnitudes -/

theorem round_neg (neg : Bool) (m f : Nat) : (F64.round neg m f).neg = neg := by
  unfold F64.round; simp only; split <;> rfl

/-- The exponent `F64.round` takes. -/
def roundExp (m f : Nat) : Nat := m.log2 + 1 - (f + 53)

/-- A carry into the next exponent does not change the magnitude. -/
theorem round_mag (neg : Bool) (m f : Nat) :
    (F64.round neg m f).mag = roundShift m (roundExp m f + f) * 2 ^ roundExp m f := by
  unfold F64.round roundExp F64.mag
  simp only
  split
  · rename_i h; rw [h]; show 2 ^ 52 * 2 ^ (_ + 1) = _; rw [pow_succ]; ring
  · rfl

/-- A significand below `2^53` at any exponent up to 2045 is a binary64 value. -/
theorem exists_wf_mag (neg : Bool) (n k : Nat) (hn : n < 2 ^ 53) (hk : k ≤ 2045) :
    ∃ z : F64, z.wf = true ∧ z.neg = neg ∧ z.mag = n * 2 ^ k := by
  by_cases h0 : n = 0
  · exact ⟨⟨neg, 0, 0⟩, rfl, rfl, by simp [F64.mag, h0]⟩
  · have hlog : n.log2 < 53 := (Nat.log2_lt h0).2 hn
    have hlo : 2 ^ n.log2 ≤ n := Nat.log2_self_le h0
    have hhi : n < 2 ^ (n.log2 + 1) := Nat.lt_log2_self
    by_cases hj : 52 - n.log2 ≤ k
    · refine ⟨⟨neg, n * 2 ^ (52 - n.log2), k - (52 - n.log2)⟩, ?_, rfl, ?_⟩
      · have e1 : n * 2 ^ (52 - n.log2) < 2 ^ 53 :=
          calc n * 2 ^ (52 - n.log2) < 2 ^ (n.log2 + 1) * 2 ^ (52 - n.log2) := by gcongr
            _ = 2 ^ 53 := by rw [← pow_add]; congr 1; omega
        have e2 : 2 ^ 52 ≤ n * 2 ^ (52 - n.log2) :=
          calc 2 ^ 52 = 2 ^ n.log2 * 2 ^ (52 - n.log2) := by rw [← pow_add]; congr 1; omega
            _ ≤ n * 2 ^ (52 - n.log2) := by gcongr
        simp only [F64.wf, Bool.and_eq_true, Bool.or_eq_true, decide_eq_true_eq]
        exact ⟨⟨e1, .inl e2⟩, by omega⟩
      · show n * 2 ^ (52 - n.log2) * 2 ^ (k - (52 - n.log2)) = n * 2 ^ k
        rw [mul_assoc, ← pow_add]; congr 2; omega
    · refine ⟨⟨neg, n * 2 ^ k, 0⟩, ?_, rfl, by simp [F64.mag]⟩
      have e1 : n * 2 ^ k < 2 ^ 53 :=
        calc n * 2 ^ k < 2 ^ (n.log2 + 1) * 2 ^ k := by gcongr
          _ = 2 ^ (n.log2 + 1 + k) := by rw [← pow_add]
          _ ≤ 2 ^ 53 := Nat.pow_le_pow_right (by decide) (by omega)
      simp only [F64.wf, Bool.and_eq_true, Bool.or_eq_true, decide_eq_true_eq]
      exact ⟨⟨e1, .inr trivial⟩, by omega⟩

theorem round_man_even (neg : Bool) (m f : Nat) (h : roundShift m (roundExp m f + f) % 2 = 0) :
    (F64.round neg m f).man % 2 = 0 := by
  unfold F64.round
  simp only
  split
  · show 2 ^ 52 % 2 = 0
    norm_num
  · exact h

/-- Where the exponent is positive the argument is at least the smallest normal of that exponent. -/
theorem le_of_roundExp_pos {m f : Nat} (h : 0 < roundExp m f) : 2 ^ (52 + roundExp m f) * 2 ^ f ≤ m := by
  unfold roundExp at *
  have h0 : m ≠ 0 := by rintro rfl; simp at h
  refine le_trans ?_ (Nat.log2_self_le h0)
  rw [← pow_add]
  exact Nat.pow_le_pow_right (by decide) (by omega)

/-- The arguments below the overflow threshold: those under half a spacing above the largest binary64 value. -/
def InRange (m f : Nat) : Prop := 2 * m < (2 ^ 54 - 1) * 2 ^ (f + 2045)

/-- A magnitude up to `2^1023` is in range. -/
theorem inRange_of_le {m f : Nat} (h : m ≤ 2 ^ (f + 2097)) : InRange m f := by
  unfold InRange
  rw [show f + 2097 = 52 + (f + 2045) by omega, pow_add] at h
  have : 0 < 2 ^ (f + 2045) := Nat.pos_of_ne_zero (by simp)
  generalize 2 ^ (f + 2045) = D at *
  omega

/-- The magnitude of a binary64 value is in range. -/
theorem inRange_mag {x : F64} (h : x.wf = true) : InRange x.mag 0 := by
  simp only [F64.wf, Bool.and_eq_true, decide_eq_true_eq] at h
  unfold InRange F64.mag
  have h1 : 2 ^ x.exp ≤ 2 ^ 2045 := Nat.pow_le_pow_right (by decide) h.2
  have h2 : 0 < 2 ^ 2045 := Nat.pos_of_ne_zero (pow_ne_zero _ two_ne_zero)
  have h3 : x.man * 2 ^ x.exp ≤ (2 ^ 53 - 1) * 2 ^ 2045 := Nat.mul_le_mul (by omega) h1
  rw [show (0 : Nat) + 2045 = 2045 from rfl]
  generalize x.man * 2 ^ x.exp = M at *
  generalize 2 ^ 2045 = D at *
  omega

/-- `F64.round` gives a binary64 value, for arguments in range. -/
theorem round_wf (neg : Bool) (m f : Nat) (h : InRange m f) : (F64.round neg m f).wf = true := by
  obtain ⟨hs, -⟩ := roundShift_spec m (roundExp m f + f)
  have hcast : ((2 ^ (roundExp m f + f) : Nat) : Int) = 2 ^ (roundExp m f + f) := by push_cast; rfl
  have hDpos : 0 < 2 ^ (roundExp m f + f) := Nat.pos_of_ne_zero (by simp)
  have hlt : m < 2 ^ 53 * 2 ^ (roundExp m f + f) := by
    rw [← pow_add]
    refine lt_of_lt_of_le Nat.lt_log2_self (Nat.pow_le_pow_right (by decide) ?_)
    unfold roundExp; omega
  have hexp : roundExp m f ≤ 2045 := by
    by_cases h0 : m = 0
    · subst h0; unfold roundExp; simp
    · have hlt2 : m < 2 ^ (f + 2098) := by
        unfold InRange at h
        rw [show f + 2098 = 53 + (f + 2045) by omega, pow_add]
        generalize 2 ^ (f + 2045) = D at *
        omega
      have := (Nat.log2_lt h0).2 hlt2
      unfold roundExp; omega
  -- the rounded significand is at most 2^53, and at least 2^52 where the exponent is positive
  have hq : roundShift m (roundExp m f + f) ≤ 2 ^ 53 := by
    by_contra hc
    have : (2 ^ 53 + 1) * 2 ^ (roundExp m f + f) ≤ roundShift m (roundExp m f + f) * 2 ^ (roundExp m f + f) := by
      gcongr; omega
    rw [← hcast] at hs
    generalize 2 ^ (roundExp m f + f) = D at *
    generalize hQ : roundShift m (roundExp m f + f) * D = Q at *
    have : ((roundShift m (roundExp m f + f) : Int) * D) = Q := by exact_mod_cast hQ
    rw [this] at hs
    omega
  have hq52 : 0 < roundExp m f → 2 ^ 52 ≤ roundShift m (roundExp m f + f) := by
    intro hp
    have hle := le_of_roundExp_pos hp
    by_contra hc
    have h1 : roundShift m (roundExp m f + f) * 2 ^ (roundExp m f + f) + 2 ^ (roundExp m f + f) ≤
        2 ^ 52 * 2 ^ (roundExp m f + f) := by
      rw [← Nat.succ_mul]; gcongr; omega
    have e : 2 ^ (52 + roundExp m f) * 2 ^ f = 2 ^ 52 * 2 ^ (roundExp m f + f) := by
      rw [pow_add, pow_add]; ring
    rw [e] at hle
    rw [← hcast] at hs
    generalize 2 ^ (roundExp m f + f) = D at *
    generalize hQ : roundShift m (roundExp m f + f) * D = Q at *
    have : ((roundShift m (roundExp m f + f) : Int) * D) = Q := by exact_mod_cast hQ
    rw [this] at hs
    omega
  have hcarry : roundShift m (roundExp m f + f) = 2 ^ 53 → roundExp m f ≠ 2045 := by
    intro hq he
    rw [hq, he, show 2045 + f = f + 2045 by omega] at hs
    unfold InRange at h
    have e2 : (2 ^ (f + 2045) : Int) = ((2 ^ (f + 2045) : Nat) : Int) := by push_cast; rfl
    rw [e2] at hs
    generalize 2 ^ (f + 2045) = D at *
    push_cast at hs
    omega
  unfold F64.round
  simp only
  change (if roundShift m (roundExp m f + f) = 2 ^ 53 then (⟨neg, 2 ^ 52, roundExp m f + 1⟩ : F64)
    else ⟨neg, roundShift m (roundExp m f + f), roundExp m f⟩).wf = true
  split
  · rename_i h53
    have := hcarry h53
    have := hexp
    simp only [F64.wf, Bool.and_eq_true, Bool.or_eq_true, decide_eq_true_eq]
    exact ⟨⟨by norm_num, .inl (le_refl _)⟩, by omega⟩
  · rename_i h53
    simp only [F64.wf, Bool.and_eq_true, Bool.or_eq_true, decide_eq_true_eq]
    refine ⟨⟨by omega, ?_⟩, hexp⟩
    by_cases hp : 0 < roundExp m f
    · exact .inl (hq52 hp)
    · exact .inr (by omega)

/-- Among magnitudes, none is nearer than the rounded one, and another one as near makes its significand even. -/
theorem round_mag_nearest (neg : Bool) (m f : Nat) (z : F64) (hz : z.wf = true) :
    |((F64.round neg m f).mag : Int) * 2 ^ f - m| ≤ |(z.mag : Int) * 2 ^ f - m| ∧
    (|((F64.round neg m f).mag : Int) * 2 ^ f - m| = |(z.mag : Int) * 2 ^ f - m| →
      z.mag ≠ (F64.round neg m f).mag → (F64.round neg m f).man % 2 = 0) := by
  have near := roundShift_nearest m (roundExp m f + f)
  have even := round_man_even neg m f
  have hmag := round_mag neg m f
  have split2 : ∀ k : Int, k * 2 ^ (roundExp m f + f) = k * 2 ^ roundExp m f * 2 ^ f := fun k => by rw [pow_add]; ring
  rw [hmag]
  simp only [split2] at near
  push_cast
  by_cases hmul : roundExp m f ≤ z.exp
  · -- a magnitude that is a multiple of the spacing
    have hzk : z.mag = (z.man * 2 ^ (z.exp - roundExp m f)) * 2 ^ roundExp m f := by
      unfold F64.mag; rw [mul_assoc, ← pow_add]; congr 2; omega
    have := near ((z.man * 2 ^ (z.exp - roundExp m f) : Nat) : Int)
    rw [hzk]
    push_cast at this ⊢
    refine ⟨this.1, fun he hne => even (this.2 he ?_)⟩
    intro hk
    exact hne (by congr 1; exact_mod_cast hk)
  · -- a magnitude below the smallest normal of the exponent, which is nearer
    have hp : 0 < roundExp m f := by omega
    have hle := le_of_roundExp_pos hp
    have hzlt : z.mag < 2 ^ (52 + roundExp m f) := by
      simp only [F64.wf, Bool.and_eq_true, decide_eq_true_eq] at hz
      unfold F64.mag
      calc z.man * 2 ^ z.exp < 2 ^ 53 * 2 ^ z.exp := by gcongr; exact hz.1.1
        _ = 2 ^ (53 + z.exp) := by rw [pow_add]
        _ ≤ _ := Nat.pow_le_pow_right (by decide) (by omega)
    have h1 := (near (2 ^ 52)).1
    have e52 : (2 : Int) ^ 52 * 2 ^ roundExp m f * 2 ^ f = ((2 ^ (52 + roundExp m f) * 2 ^ f : Nat) : Int) := by
      push_cast; rw [pow_add]; norm_num
    have hlt : z.mag * 2 ^ f < 2 ^ (52 + roundExp m f) * 2 ^ f := by gcongr
    rw [e52] at h1
    have hfar : |((2 ^ (52 + roundExp m f) * 2 ^ f : Nat) : Int) - m| < |(z.mag : Int) * 2 ^ f - m| := by
      have e : (z.mag : Int) * 2 ^ f = ((z.mag * 2 ^ f : Nat) : Int) := by push_cast; rfl
      rw [e]
      generalize 2 ^ (52 + roundExp m f) * 2 ^ f = a at *
      generalize z.mag * 2 ^ f = b at *
      rw [Int.abs_eq_natAbs, Int.abs_eq_natAbs]
      omega
    have := lt_of_le_of_lt h1 hfar
    exact ⟨le_of_lt this, fun he _ => absurd he (ne_of_lt this)⟩

/-! ## Values -/

/-- The signed magnitude, in units of `2^(-1074)`. -/
def F64.units (x : F64) : Int := if x.neg then -(x.mag : Int) else x.mag

theorem value_units (x : F64) : x.value = (x.units : ℚ) / 2 ^ 1074 := by
  unfold F64.value F64.units
  cases x.neg
  · rw [if_neg (by decide), if_neg (by decide), one_mul, Int.cast_natCast]
  · rw [if_pos rfl, if_pos rfl, neg_one_mul, Int.cast_neg, Int.cast_natCast]

theorem value_eq_iff (x y : F64) : x.value = y.value ↔ x.units = y.units := by
  rw [value_units, value_units, div_left_inj' (pow_ne_zero _ two_ne_zero), Int.cast_inj]

theorem abs_value (x : F64) : |x.value| = (x.mag : ℚ) / 2 ^ 1074 := by
  rw [value_units, abs_div, abs_of_pos (pow_pos two_pos _ : (0:ℚ) < 2^1074), ← Int.cast_abs]
  have : |x.units| = x.mag := by unfold F64.units; split <;> simp
  rw [this]; simp

/-- The signed argument of a rounding. -/
def signedArg (neg : Bool) (m : Nat) : Int := if neg then -(m : Int) else m

/-- In integers: `F64.round` is nearest to its argument, ties to even. -/
theorem round_units_nearest (neg : Bool) (m f : Nat) (z : F64) (hz : z.wf = true) :
    |(F64.round neg m f).units * 2 ^ f - signedArg neg m| ≤ |z.units * 2 ^ f - signedArg neg m| ∧
    (|(F64.round neg m f).units * 2 ^ f - signedArg neg m| = |z.units * 2 ^ f - signedArg neg m| →
      z.units ≠ (F64.round neg m f).units → (F64.round neg m f).man % 2 = 0) := by
  obtain ⟨h1, h2⟩ := round_mag_nearest neg m f z hz
  have h0 := (round_mag_nearest neg m f F64.zero (by decide)).1
  have hn := round_neg neg m f
  have hF : (0 : Int) < 2 ^ f := by positivity
  have z0 : (F64.zero.mag : Int) * 2 ^ f - m = -(m : Int) := by simp [F64.zero, F64.mag]
  rw [z0] at h0
  unfold F64.units signedArg
  rw [hn]
  generalize (F64.round neg m f).man % 2 = par at *
  generalize hY : (F64.round neg m f).mag = Y at *
  generalize z.mag = Z at *
  have hYF : 0 ≤ (Y : Int) * 2 ^ f := by positivity
  have hZF : 0 ≤ (Z : Int) * 2 ^ f := by positivity
  have hinj : (Y : Int) * 2 ^ f = (Z : Int) * 2 ^ f → Y = Z := fun h => by
    exact_mod_cast (mul_left_inj' (ne_of_gt hF)).1 h
  have hZ0 : (Z : Int) * 2 ^ f = 0 → Z = 0 := fun h => by
    exact_mod_cast (mul_eq_zero.1 h).resolve_right (ne_of_gt hF)
  have hY0 : (Y : Int) * 2 ^ f = 0 → Y = 0 := fun h => by
    exact_mod_cast (mul_eq_zero.1 h).resolve_right (ne_of_gt hF)
  cases neg <;> cases z.neg <;> simp only [if_true, if_false, Bool.false_eq_true, neg_mul] <;>
    simp only [Int.abs_eq_natAbs] at * <;>
    generalize (Y : Int) * 2 ^ f = YF at * <;> generalize (Z : Int) * 2 ^ f = ZF at * <;>
    (refine ⟨by omega, fun he hne => ?_⟩ ; omega)

theorem value_sub (x : F64) (n : Int) (f : Nat) :
    |x.value - (n : ℚ) / 2 ^ f / 2 ^ 1074| = ((|x.units * 2 ^ f - n| : Int) : ℚ) / (2 ^ f * 2 ^ 1074) := by
  rw [value_units]
  have hU : (0 : ℚ) < 2 ^ 1074 := pow_pos two_pos _
  generalize (2 : ℚ) ^ 1074 = U at *
  have hF : (0 : ℚ) < 2 ^ f := by positivity
  have e : (x.units : ℚ) / U - (n : ℚ) / 2 ^ f / U = ((x.units * 2 ^ f - n : Int) : ℚ) / (2 ^ f * U) := by
    push_cast; field_simp
  rw [e, abs_div, abs_of_pos (mul_pos hF hU), Int.cast_abs]

/-- The exact number that `F64.round neg m f` rounds. -/
def roundArg (neg : Bool) (m f : Nat) : ℚ := (signedArg neg m : ℚ) / 2 ^ f / 2 ^ 1074

/-- `F64.round` is the value nearest to its argument, ties to even, for arguments in range. -/
theorem round_isNearest (neg : Bool) (m f : Nat) (h : InRange m f) :
    (F64.round neg m f).IsNearest ((roundArg neg m f : ℚ) : ℝ) := by
  refine ⟨round_wf neg m f h, fun z hz => ?_⟩
  obtain ⟨h1, h2⟩ := round_units_nearest neg m f z hz
  have hpos : (0 : ℚ) < 2 ^ f * 2 ^ 1074 := mul_pos (pow_pos two_pos _) (pow_pos two_pos _)
  have cast : ∀ a : F64, |(a.value : ℝ) - ((roundArg neg m f : ℚ) : ℝ)| =
      (((|a.units * 2 ^ f - signedArg neg m| : Int) : ℚ) / (2 ^ f * 2 ^ 1074) : ℚ) := fun a => by
    rw [← value_sub, Rat.cast_abs, Rat.cast_sub]; rfl
  rw [cast, cast]
  refine ⟨?_, fun he hne => ?_⟩
  · rw [Rat.cast_le]
    exact div_le_div_of_nonneg_right (by exact_mod_cast h1) hpos.le
  · rw [Rat.cast_inj] at he
    have := (div_left_inj' (ne_of_gt hpos)).1 he
    exact h2 (by exact_mod_cast this) (fun hu => hne ((value_eq_iff _ _).2 hu))

/-- A binary64 value is its own nearest value. -/
theorem isNearest_eq {y z : F64} (h : y.IsNearest (z.value : ℝ)) (hz : z.wf = true) : y.value = z.value := by
  have := (h.2 z hz).1
  rw [sub_self, abs_zero] at this
  have := abs_eq_zero.1 (le_antisymm this (abs_nonneg _))
  exact_mod_cast sub_eq_zero.1 this

/-- Rounding does not go above a binary64 value that bounds the number from above. -/
theorem isNearest_le {y z : F64} {v : ℝ} (h : y.IsNearest v) (hz : z.wf = true) (hv : v ≤ (z.value : ℝ)) :
    y.value ≤ z.value := by
  have := (h.2 z hz).1
  rw [abs_of_nonneg (by linarith : (0 : ℝ) ≤ (z.value : ℝ) - v)] at this
  have := (abs_le.1 this).2
  have : (y.value : ℝ) ≤ (z.value : ℝ) := by linarith
  exact_mod_cast this

/-- Rounding does not go below a binary64 value that bounds the number from below. -/
theorem isNearest_ge {y z : F64} {v : ℝ} (h : y.IsNearest v) (hz : z.wf = true) (hv : (z.value : ℝ) ≤ v) :
    z.value ≤ y.value := by
  have := (h.2 z hz).1
  rw [abs_of_nonpos (by linarith : (z.value : ℝ) - v ≤ 0)] at this
  have := (abs_le.1 this).1
  have : (z.value : ℝ) ≤ (y.value : ℝ) := by linarith
  exact_mod_cast this

/-- A significand below `2^53`, at any exponent up to 2045 and with either sign, is a binary64 value. -/
theorem exists_wf_units (n : Int) (k : Nat) (hn : n.natAbs < 2 ^ 53) (hk : k ≤ 2045) :
    ∃ z : F64, z.wf = true ∧ z.units = n * 2 ^ k := by
  obtain ⟨z, h1, h2, h3⟩ := exists_wf_mag (decide (n < 0)) n.natAbs k hn hk
  refine ⟨z, h1, ?_⟩
  unfold F64.units
  rw [h2, h3]
  by_cases h : n < 0
  · rw [if_pos (by simpa using h)]; push_cast; rw [abs_of_neg h]; ring
  · rw [if_neg (by simpa using h)]; push_cast; rw [abs_of_nonneg (by omega)]

/-- An integer below `2^53` is a binary64 value. -/
theorem exists_wf_int (n : Int) (hn : n.natAbs < 2 ^ 53) : ∃ z : F64, z.wf = true ∧ z.value = (n : ℚ) := by
  obtain ⟨z, h1, h2⟩ := exists_wf_units n 1074 hn (by decide)
  refine ⟨z, h1, ?_⟩
  rw [value_units, h2, Int.cast_mul, Int.cast_pow, Int.cast_ofNat, mul_div_cancel_right₀ _ (pow_ne_zero _ two_ne_zero)]

/-! ## The primitives of 00_scope.md R11 -/

/-- Where the rounded number is a binary64 value, `F64.round` gives it. -/
theorem round_exact (neg : Bool) (m f : Nat) (h : InRange m f) (z : F64) (hz : z.wf = true)
    (he : z.value = roundArg neg m f) : (F64.round neg m f).value = z.value := by
  have := round_isNearest neg m f h
  rw [← he] at this
  exact isNearest_eq this hz

/-- `f64(x)` is exact. -/
theorem ofWord_spec (x : Word) : (F64.ofWord x).wf = true ∧ (F64.ofWord x).value = (x.toNat : ℚ) := by
  have hx := x.isLt
  have hle : x.toNat * 2 ^ 1074 ≤ 2 ^ (0 + 2097) :=
    calc x.toNat * 2 ^ 1074 ≤ 2 ^ 32 * 2 ^ 1074 := Nat.mul_le_mul_right _ hx.le
      _ = 2 ^ (32 + 1074) := by rw [pow_add]
      _ ≤ _ := Nat.pow_le_pow_right (by decide) (by decide)
  refine ⟨round_wf _ _ _ (inRange_of_le hle), ?_⟩
  obtain ⟨z, hz, hv⟩ := exists_wf_int x.toNat (by simp only [Int.natAbs_natCast]; omega)
  rw [F64.ofWord, round_exact _ _ _ (inRange_of_le hle) z hz ?_, hv, Int.cast_natCast]
  rw [hv, roundArg, signedArg, if_neg (by decide), pow_zero, div_one]
  push_cast
  rw [mul_div_cancel_right₀ _ (pow_ne_zero _ two_ne_zero)]

/-- The argument of `fmul` is the exact product. -/
theorem mul_arg (p q : F64) : roundArg (p.neg != q.neg) (p.mag * q.mag) 1074 = p.value * q.value := by
  rw [value_units, value_units, roundArg, signedArg]
  unfold F64.units
  have hU : (2 : ℚ) ^ 1074 ≠ 0 := pow_ne_zero _ two_ne_zero
  generalize (2 : ℚ) ^ 1074 = U at *
  cases p.neg <;> cases q.neg <;> simp <;> field_simp

theorem mul_inRange (p q : F64) (h : |p.value * q.value| ≤ 2 ^ 1023) : InRange (p.mag * q.mag) 1074 := by
  refine inRange_of_le ?_
  rw [abs_mul, abs_value, abs_value] at h
  have hU : (0 : ℚ) < 2 ^ 1074 := pow_pos two_pos _
  have e : (p.mag : ℚ) / 2 ^ 1074 * (q.mag / 2 ^ 1074) = (p.mag : ℚ) * q.mag / (2 ^ 1074 * 2 ^ 1074) := by
    generalize (2 : ℚ) ^ 1074 = U at *; field_simp
  rw [e, div_le_iff₀ (mul_pos hU hU), ← pow_add, ← pow_add] at h
  exact_mod_cast h

/-- `fmul(p, q)` is the correctly rounded product, for products of magnitude up to `2^1023`. -/
theorem mul_isNearest (p q : F64) (h : |p.value * q.value| ≤ 2 ^ 1023) :
    (F64.mul p q).IsNearest ((p.value * q.value : ℚ) : ℝ) := by
  rw [← mul_arg]
  exact round_isNearest _ _ _ (mul_inRange p q h)

/-- `floorInt` is the floor of the value. -/
theorem floorInt_eq (p : F64) : p.floorInt = ⌊p.value⌋ := by
  symm
  rw [Int.floor_eq_iff, value_units]
  have hU : (0:ℚ) < 2^1074 := pow_pos two_pos _
  rw [le_div_iff₀ hU, div_lt_iff₀ hU]
  have hUI : (0:Nat) < 2^1074 := Nat.pos_of_ne_zero (pow_ne_zero _ two_ne_zero)
  have key : p.floorInt * ((2^1074 : Nat) : Int) ≤ p.units ∧ p.units < (p.floorInt + 1) * ((2^1074 : Nat) : Int) := by
    unfold F64.floorInt F64.units
    generalize (2^1074 : Nat) = U at *
    cases p.neg <;> simp only [if_true, if_false, Bool.false_eq_true]
    · have h1 := Nat.div_add_mod p.mag U
      have h2 := Nat.mod_lt p.mag hUI
      generalize p.mag / U = d at *
      generalize p.mag % U = r at *
      rw [← h1]; push_cast
      constructor <;> nlinarith
    · have h1 := Nat.div_add_mod (p.mag + (U - 1)) U
      have h2 := Nat.mod_lt (p.mag + (U-1)) hUI
      generalize (p.mag + (U-1)) / U = d at *
      generalize (p.mag + (U-1)) % U = r at *
      have h3 : (p.mag : Int) = U * d + r - (U - 1) := by
        have : (U * d + r : Nat) = p.mag + (U - 1) := h1
        have h4 : ((U * d + r : Nat) : Int) = ((p.mag + (U - 1) : Nat) : Int) := by rw [this]
        push_cast [Nat.cast_sub hUI] at h4
        have : ((U - 1 : Nat) : Int) = U - 1 := by omega
        linarith
      rw [h3]
      have : (0:Int) < U := by exact_mod_cast hUI
      have : (r : Int) < U := by exact_mod_cast h2
      constructor <;> nlinarith
  have c1 := key.1
  have c2 := key.2
  have e : (((2^1074 : Nat) : Int) : ℚ) = 2^1074 := by rw [Int.cast_natCast, Nat.cast_pow, Nat.cast_ofNat]
  constructor
  · have : ((p.floorInt * ((2^1074 : Nat) : Int) : Int) : ℚ) ≤ ((p.units : Int) : ℚ) := by exact_mod_cast c1
    rw [Int.cast_mul, e] at this; exact this
  · have : ((p.units : Int) : ℚ) < (((p.floorInt + 1) * ((2^1074 : Nat) : Int) : Int) : ℚ) := by exact_mod_cast c2
    rw [Int.cast_mul, e] at this; exact_mod_cast this

/-- The floor of a binary64 value is a binary64 value. -/
theorem floorInt_rep {p : F64} (h : p.wf = true) : ∃ z : F64, z.wf = true ∧ z.value = (p.floorInt : ℚ) := by
  simp only [F64.wf, Bool.and_eq_true, decide_eq_true_eq] at h
  by_cases he : 1074 ≤ p.exp
  · refine ⟨p, by simp only [F64.wf, Bool.and_eq_true, decide_eq_true_eq]; exact h, ?_⟩
    have hm : p.mag = p.man * 2 ^ (p.exp - 1074) * 2 ^ 1074 := by
      unfold F64.mag; rw [mul_assoc, ← pow_add]; congr 2; omega
    have hi : p.value = ((if p.neg then -(p.man * 2 ^ (p.exp - 1074) : Nat) else (p.man * 2 ^ (p.exp - 1074) : Nat) : Int) : ℚ) := by
      rw [value_units, F64.units, hm]
      have hU : (2 : ℚ) ^ 1074 ≠ 0 := pow_ne_zero _ two_ne_zero
      rw [div_eq_iff hU]
      cases p.neg <;> simp only [if_true, if_false, Bool.false_eq_true] <;> push_cast <;> ring
    rw [floorInt_eq, hi, Int.floor_intCast]
  · apply exists_wf_int
    have hm : p.mag < 2 ^ 52 * 2 ^ 1074 := by
      unfold F64.mag
      calc p.man * 2 ^ p.exp < 2 ^ 53 * 2 ^ p.exp := Nat.mul_lt_mul_of_pos_right h.1.1 (Nat.pos_of_ne_zero (pow_ne_zero _ two_ne_zero))
        _ = 2 ^ (53 + p.exp) := by rw [pow_add]
        _ ≤ 2 ^ (52 + 1074) := Nat.pow_le_pow_right (by decide) (by omega)
        _ = _ := by rw [pow_add]
    have hU : (0:Nat) < 2^1074 := Nat.pos_of_ne_zero (pow_ne_zero _ two_ne_zero)
    unfold F64.floorInt
    generalize (2^1074 : Nat) = U at *
    have h1 : p.mag / U < 2^52 := (Nat.div_lt_iff_lt_mul hU).2 hm
    have h2 : (p.mag + (U - 1)) / U < 2^52 + 1 := (Nat.div_lt_iff_lt_mul hU).2 (by rw [Nat.succ_mul]; omega)
    split
    · rw [Int.natAbs_neg, Int.natAbs_natCast]; omega
    · rw [Int.natAbs_natCast]; omega

/-- The floor has the sign that `floor64` gives it, or is zero. -/
theorem floorInt_sign (p : F64) : signedArg p.neg p.floorInt.natAbs = p.floorInt := by
  unfold signedArg F64.floorInt
  cases p.neg <;> simp only [if_true, if_false, Bool.false_eq_true] <;> omega

/-- The units of a value that is an integer. -/
theorem units_of_value {v : F64} {n : Int} (h : v.value = (n : ℚ)) : v.units = n * ((2^1074 : Nat) : Int) := by
  have hU : (2 : ℚ) ^ 1074 ≠ 0 := pow_ne_zero _ two_ne_zero
  rw [value_units, div_eq_iff hU] at h
  have e : (((2^1074 : Nat) : Int) : ℚ) = 2^1074 := by rw [Int.cast_natCast, Nat.cast_pow, Nat.cast_ofNat]
  rw [← e] at h
  exact_mod_cast h

/-- `toInt` reads an integral value. -/
theorem toInt_eq {v : F64} {n : Int} (h : v.value = (n : ℚ)) : v.toInt = n := by
  have hu := units_of_value h
  have hUI : (0:Nat) < 2^1074 := Nat.pos_of_ne_zero (pow_ne_zero _ two_ne_zero)
  unfold F64.units at hu
  unfold F64.toInt
  generalize (2^1074 : Nat) = U at *
  have hU' : (U : Int) ≠ 0 := by omega
  cases hn : v.neg <;> rw [hn] at hu <;> simp only [if_true, if_false, Bool.false_eq_true] at hu ⊢
  · rw [Int.natCast_ediv, hu, Int.mul_ediv_cancel _ hU']
  · have : (v.mag : Int) = (-n) * U := by rw [neg_mul, ← hu, neg_neg]
    rw [Int.natCast_ediv, this, Int.mul_ediv_cancel _ hU', neg_neg]

/-- `floor64` is exact, and keeps the sign. -/
theorem floor_spec {p : F64} (h : p.wf = true) : (F64.floor p).wf = true ∧ (F64.floor p).value = (p.floorInt : ℚ) ∧ (F64.floor p).neg = p.neg := by
  obtain ⟨z, hz, hv⟩ := floorInt_rep h
  have hu := units_of_value hv
  have hr : InRange (p.floorInt.natAbs * 2^1074) 0 := by
    have : p.floorInt.natAbs * 2^1074 = z.mag := by
      have e : z.units.natAbs = z.mag := by unfold F64.units; split <;> simp
      rw [← e, hu, Int.natAbs_mul, Int.natAbs_natCast]
    rw [this]; exact inRange_mag hz
  refine ⟨round_wf _ _ _ hr, ?_, round_neg _ _ _⟩
  rw [F64.floor, round_exact _ _ _ hr z hz ?_, hv]
  rw [hv, roundArg, pow_zero, div_one]
  have e : signedArg p.neg (p.floorInt.natAbs * 2^1074) = p.floorInt * ((2^1074 : Nat) : Int) := by
    have fs := floorInt_sign p
    simp only [signedArg] at fs ⊢
    generalize p.floorInt.natAbs = N at *
    rw [← fs]
    generalize (2^1074 : Nat) = U
    cases p.neg <;> simp
  rw [e, Int.cast_mul, Int.cast_natCast, Nat.cast_pow, Nat.cast_ofNat, mul_div_cancel_right₀ _ (pow_ne_zero _ two_ne_zero)]

end Sys2Proof.Machine
end

