-- ==== Sys2Proof/Machine/SineBox.lean ====
section
/-! DEFINITION. The enclosure of the sine that `SIN64` (00_scope.md R3) is computed from, by integer arithmetic. The spec
fixes only the function; the method is the model's: divide the argument by `3^k`, take the cubic Taylor polynomial
there, undo the division by `sin 3y = 3 sin y - 4 (sin y)^3` k times, and keep a bound of the error. If both ends of the
enclosure round to one binary64 value, that value is the answer. Log entry 9. Laws/SineBox.lean proves that the
enclosure holds the sine and that some precision settles every argument. -/

namespace Sys2Proof.Machine

/-- A fixed-point value kept inside `[-1, 1]`, in units of `2^(-p)`. -/
def clampUnit (p : Nat) (v : Int) : Int := max (-(2 ^ p : Nat)) (min v (2 ^ p : Nat))

/-- `k` times `v := 3 v - 4 v^3`, in units of `2^(-p)`, rounding down. -/
def sineTriple (p : Nat) : Nat → Int → Int
  | 0, v => v
  | k + 1, v => sineTriple p k (clampUnit p (3 * v - 4 * (v * v * v) / (2 ^ (2 * p) : Nat)))

/-- An enclosure: the sine lies in `[lo, hi]`, in units of `2^(-prec)`. -/
structure SineBox where
  prec : Nat
  lo : Int
  hi : Int
deriving DecidableEq, Repr

/-- The working precision for an argument magnitude `x` (units of `2^(-1074)`) and a target of `t` bits. -/
def sinePrec (x t : Nat) : Nat :=
  (9 * (t + (1074 - x.log2) + 7)) / 4 + 5 * (x.log2 + 1 - 1074)

/-- How many triplings: `3^k` is about `x * 2^(prec/4)`. -/
def sineTriples (x p : Nat) : Nat := (2 * ((x.log2 + 1 - 1074) + p / 4)) / 3 + 1

/-- The argument divided by `3^k`, rounded down, in units of `2^(-p)`. -/
def sineReduced (x p k : Nat) : Nat := x * 2 ^ p / (2 ^ 1074 * 3 ^ k)

/-- The cubic Taylor polynomial of the sine at the reduced argument. -/
def sineCubic (y p : Nat) : Int := (y : Int) - (y * y * y / (6 * 2 ^ (2 * p)) : Nat)

/-- A bound of the error after `k` triplings, in units of `2^(-p)`. -/
def sineError (y p k : Nat) : Nat := 9 ^ k * (5 * y ^ 4 / (96 * 2 ^ (3 * p)) + 4)

/-- The enclosure of `sin(x * 2^(-1074))` at target precision `t`. -/
def sineBox (x t : Nat) : SineBox :=
  let p := sinePrec x t
  let k := sineTriples x p
  let y := sineReduced x p k
  let v := sineTriple p k (clampUnit p (sineCubic y p))
  let e := sineError y p k
  ⟨p, clampUnit p (v - e), clampUnit p (v + e)⟩

/-- The binary64 value nearest to `v * 2^(-p)`, ties to even. -/
def F64.ofFixed (v : Int) (p : Nat) : F64 := F64.round (decide (v < 0)) (v.natAbs * 2 ^ 1074) p

/-- The lower end of an enclosure, rounded. -/
def SineBox.lower (b : SineBox) : F64 := F64.ofFixed b.lo b.prec

/-- The upper end of an enclosure, rounded. -/
def SineBox.upper (b : SineBox) : F64 := F64.ofFixed b.hi b.prec

/-- The first rung at which both ends round alike. -/
def sineSettled (x : Nat) : List Nat → Option F64
  | [] => none
  | t :: ts =>
    let b := sineBox x t
    if b.lower = b.upper then some b.lower else sineSettled x ts

/-- The target precisions of the ladder, in bits. -/
def sineLadder : List Nat := [128, 256, 512, 1024]

end Sys2Proof.Machine
end

