-- ==== Sys2Proof/Laws/SineBox.lean ====
section
/-! SUPPORT. The enclosure of Machine/SineBox.lean holds the sine, and a number between two numbers that round to one binary64
value rounds to it as well. -/

namespace Sys2Proof.Machine

/-! ## Clamping -/

theorem clampUnit_abs (p : Nat) (v : Int) : |clampUnit p v| ≤ ((2 ^ p : Nat) : Int) := by
  unfold clampUnit
  generalize (2 ^ p : Nat) = P
  rw [abs_le]
  omega

/-- Clamping brings a value no further from a number of `[-2^p, 2^p]`. -/
theorem clampUnit_near (p : Nat) (v : Int) {r : ℝ} (h : |r| ≤ 2 ^ p) : |r - (clampUnit p v : ℝ)| ≤ |r - v| := by
  have h' := abs_le.1 h
  have hcast : (((2 ^ p : Nat) : Int) : ℝ) = 2 ^ p := by push_cast; rfl
  unfold clampUnit
  rcases le_total v (-((2 ^ p : Nat) : Int)) with h1 | h1
  · have e : max (-((2 ^ p : Nat) : Int)) (min v ((2 ^ p : Nat) : Int)) = -((2 ^ p : Nat) : Int) := by
      generalize (2 ^ p : Nat) = P at *; omega
    rw [e]
    have h2 : (v : ℝ) ≤ -(2 ^ p) := by rw [← hcast]; exact_mod_cast h1
    push_cast
    rw [abs_of_nonneg (by linarith), abs_of_nonneg (by linarith)]
    linarith
  · rcases le_total v ((2 ^ p : Nat) : Int) with h2 | h2
    · have e : max (-((2 ^ p : Nat) : Int)) (min v ((2 ^ p : Nat) : Int)) = v := by
        generalize (2 ^ p : Nat) = P at *; omega
      rw [e]
    · have e : max (-((2 ^ p : Nat) : Int)) (min v ((2 ^ p : Nat) : Int)) = ((2 ^ p : Nat) : Int) := by
        generalize (2 ^ p : Nat) = P at *; omega
      rw [e]
      have h3 : (2 ^ p : ℝ) ≤ v := by rw [← hcast]; exact_mod_cast h2
      rw [hcast, abs_of_nonpos (by linarith), abs_of_nonpos (by linarith)]
      linarith

/-- Clamping keeps a bound of a number of `[-2^p, 2^p]`. -/
theorem clampUnit_bounds (p : Nat) (a b : Int) {r : ℝ} (h : |r| ≤ 2 ^ p) (ha : (a : ℝ) ≤ r) (hb : r ≤ b) :
    ((clampUnit p a : Int) : ℝ) ≤ r ∧ r ≤ ((clampUnit p b : Int) : ℝ) := by
  have h' := abs_le.1 h
  have hcast : (((2 ^ p : Nat) : Int) : ℝ) = 2 ^ p := by push_cast; rfl
  unfold clampUnit
  push_cast
  refine ⟨max_le h'.1 (min_le_of_left_le ha), le_max_of_le_right (le_min hb h'.2)⟩

/-! ## The triple angle -/

/-- One tripling multiplies the error by at most nine and adds one unit of rounding. -/
theorem sineTriple_step (p : Nat) (v : Int) (hv : |v| ≤ ((2 ^ p : Nat) : Int)) (φ e : ℝ)
    (he : |2 ^ p * Real.sin φ - v| ≤ e) :
    |2 ^ p * Real.sin (3 * φ) - (clampUnit p (3 * v - 4 * (v * v * v) / ((2 ^ (2 * p) : Nat) : Int)) : ℝ)| ≤ 9 * e + 1 := by
  have hP : (0 : ℝ) < 2 ^ p := by positivity
  have hsin : |2 ^ p * Real.sin (3 * φ)| ≤ 2 ^ p := by
    rw [abs_mul, abs_of_pos hP]
    exact mul_le_of_le_one_right hP.le (Real.abs_sin_le_one _)
  refine (clampUnit_near p _ hsin).trans ?_
  -- the quotient's rounding
  have hD : (0 : Int) < ((2 ^ (2 * p) : Nat) : Int) := by positivity
  have hq := Int.emod_add_mul_ediv (4 * (v * v * v)) ((2 ^ (2 * p) : Nat) : Int)
  have hr0 := Int.emod_nonneg (4 * (v * v * v)) (ne_of_gt hD)
  have hr1 := Int.emod_lt_of_pos (4 * (v * v * v)) hD
  generalize 4 * (v * v * v) / ((2 ^ (2 * p) : Nat) : Int) = q at *
  generalize 4 * (v * v * v) % ((2 ^ (2 * p) : Nat) : Int) = r at *
  have hDr : (((2 ^ (2 * p) : Nat) : Int) : ℝ) = (2 ^ p) ^ 2 := by push_cast; rw [← pow_mul, mul_comm]
  have hq' : (r : ℝ) + (2 ^ p) ^ 2 * q = 4 * (v * v * v) := by
    rw [← hDr]; exact_mod_cast hq
  have hr0' : (0 : ℝ) ≤ r := by exact_mod_cast hr0
  have hr1' : (r : ℝ) < (2 ^ p) ^ 2 := by rw [← hDr]; exact_mod_cast hr1
  have hv' : |(v : ℝ)| ≤ 2 ^ p := by
    have : ((|v| : Int) : ℝ) ≤ (((2 ^ p : Nat) : Int) : ℝ) := by exact_mod_cast hv
    rw [Int.cast_abs] at this
    refine this.trans (le_of_eq ?_)
    push_cast; rfl
  have hs1 := Real.abs_sin_le_one φ
  rw [Real.sin_three_mul]
  push_cast
  generalize Real.sin φ = s at *
  generalize (2 : ℝ) ^ p = P at *
  -- everything over P
  obtain ⟨w, hw⟩ : ∃ w : ℝ, (v : ℝ) = P * w := ⟨v / P, by field_simp⟩
  obtain ⟨g, hg⟩ : ∃ g : ℝ, (r : ℝ) = P ^ 2 * g := ⟨r / P ^ 2, by field_simp⟩
  rw [hw] at hv' he hq' ⊢
  rw [hg] at hr0' hr1' hq'
  have hP2 : 0 < P ^ 2 := by positivity
  have hg0 : 0 ≤ g := nonneg_of_mul_nonneg_right hr0' hP2
  have hg1 : g ≤ 1 := by nlinarith
  have hw1 : |w| ≤ 1 := by
    rw [abs_mul, abs_of_pos hP] at hv'
    exact le_of_mul_le_mul_left (by linarith) hP
  have hqe : (q : ℝ) = 4 * P * w ^ 3 - g := by
    have : P ^ 2 * (q : ℝ) = P ^ 2 * (4 * P * w ^ 3 - g) := by linear_combination hq'
    exact mul_left_cancel₀ (ne_of_gt hP2) this
  rw [hqe]
  have e1 : P * (3 * s - 4 * s ^ 3) - (3 * (P * w) - (4 * P * w ^ 3 - g)) =
      (P * s - P * w) * (3 - 4 * (s ^ 2 + s * w + w ^ 2)) - g := by ring
  rw [e1]
  have hsl := abs_le.1 hs1
  have hwl := abs_le.1 hw1
  have hfac : |3 - 4 * (s ^ 2 + s * w + w ^ 2)| ≤ 9 := by
    rw [abs_le]
    constructor <;> nlinarith [sq_nonneg (s + w), sq_nonneg s, sq_nonneg w, sq_nonneg (s - w)]
  have he0 : 0 ≤ e := (abs_nonneg _).trans he
  calc |(P * s - P * w) * (3 - 4 * (s ^ 2 + s * w + w ^ 2)) - g|
      ≤ |(P * s - P * w) * (3 - 4 * (s ^ 2 + s * w + w ^ 2))| + |g| := abs_sub _ _
    _ ≤ e * 9 + 1 := by
        rw [abs_mul, abs_of_nonneg hg0]
        exact add_le_add (mul_le_mul he hfac (abs_nonneg _) he0) hg1
    _ = 9 * e + 1 := by ring

/-- The error after `k` triplings. -/
theorem sineTriple_near (p : Nat) : ∀ (k : Nat) (v : Int) (φ e : ℝ), |v| ≤ ((2 ^ p : Nat) : Int) →
    |2 ^ p * Real.sin φ - v| ≤ e →
    |2 ^ p * Real.sin (3 ^ k * φ) - (sineTriple p k v : ℝ)| ≤ 9 ^ k * (e + 1 / 8) - 1 / 8
  | 0, v, φ, e, _, he => by simpa [sineTriple] using he
  | k + 1, v, φ, e, hv, he => by
    have h1 := sineTriple_step p v hv φ e he
    have h2 := sineTriple_near p k _ (3 * φ) (9 * e + 1) (clampUnit_abs p _) h1
    rw [show (3 : ℝ) ^ (k + 1) * φ = 3 ^ k * (3 * φ) by ring]
    refine h2.trans (le_of_eq ?_)
    rw [pow_succ]; ring

/-! ## The reduced argument -/

/-- `3^k` is at least `2^n` where `k` is `2n/3 + 1`. -/
theorem two_pow_le_three_pow (n k : Nat) (h : 2 * n ≤ 3 * k) : 2 ^ n ≤ 3 ^ k := by
  have h1 : (2 ^ n) ^ 2 ≤ (3 ^ k) ^ 2 := by
    calc (2 ^ n) ^ 2 = 2 ^ (2 * n) := by rw [← pow_mul, mul_comm]
      _ ≤ 2 ^ (3 * k) := Nat.pow_le_pow_right (by decide) h
      _ = 8 ^ k := by rw [pow_mul]; norm_num
      _ ≤ 9 ^ k := Nat.pow_le_pow_left (by decide) k
      _ = (3 ^ k) ^ 2 := by rw [← pow_mul, mul_comm, pow_mul]; norm_num
  exact (Nat.pow_le_pow_iff_left (by decide)).1 h1

/-- The angle an argument magnitude stands for. -/
noncomputable def angleOf (x : Nat) : ℝ := (x : ℝ) / 2 ^ 1074

theorem angle_le (x p : Nat) : angleOf x ≤ 3 ^ sineTriples x p := by
  have hU : (0 : ℝ) < 2 ^ 1074 := pow_pos two_pos _
  have h1 : x < 2 ^ ((x.log2 + 1 - 1074) + 1074) :=
    lt_of_lt_of_le Nat.lt_log2_self (Nat.pow_le_pow_right (by decide) (by omega))
  have h2 : 2 ^ (x.log2 + 1 - 1074) ≤ 3 ^ sineTriples x p := by
    refine two_pow_le_three_pow _ _ ?_
    unfold sineTriples
    omega
  have h3 : (x : ℝ) < 2 ^ ((x.log2 + 1 - 1074) + 1074) := by exact_mod_cast h1
  rw [pow_add] at h3
  have h4 : (2 : ℝ) ^ (x.log2 + 1 - 1074) ≤ 3 ^ sineTriples x p := by exact_mod_cast h2
  unfold angleOf
  rw [div_le_iff₀ hU]
  exact h3.le.trans (mul_le_mul_of_nonneg_right h4 hU.le)

/-- The reduced argument is the angle over `3^k`, rounded down. -/
theorem sineReduced_spec (x p k : Nat) :
    (sineReduced x p k : ℝ) ≤ 2 ^ p * (angleOf x / 3 ^ k) ∧ 2 ^ p * (angleOf x / 3 ^ k) < sineReduced x p k + 1 := by
  have hU : (0 : ℝ) < 2 ^ 1074 := pow_pos two_pos _
  have hDn : 0 < 2 ^ 1074 * 3 ^ k := Nat.mul_pos (Nat.pos_of_ne_zero (pow_ne_zero _ two_ne_zero)) (by positivity)
  have h1 := Nat.div_mul_le_self (x * 2 ^ p) (2 ^ 1074 * 3 ^ k)
  have h2 := Nat.lt_div_mul_add (a := x * 2 ^ p) hDn
  have e : (2 : ℝ) ^ p * (angleOf x / 3 ^ k) = (x * 2 ^ p) / (2 ^ 1074 * 3 ^ k) := by
    unfold angleOf
    generalize (2 : ℝ) ^ 1074 = U at *
    field_simp
  have hDr : (0 : ℝ) < 2 ^ 1074 * 3 ^ k := mul_pos hU (by positivity)
  rw [e, le_div_iff₀ hDr, div_lt_iff₀ hDr]
  unfold sineReduced
  have c : ((2 ^ 1074 * 3 ^ k : Nat) : ℝ) = 2 ^ 1074 * 3 ^ k := by
    rw [Nat.cast_mul, Nat.cast_pow, Nat.cast_ofNat, Nat.cast_pow, Nat.cast_ofNat]
  rw [← c]
  generalize 2 ^ 1074 * 3 ^ k = D at *
  constructor
  · exact_mod_cast h1
  · have : x * 2 ^ p < (x * 2 ^ p / D + 1) * D := by rw [Nat.succ_mul]; exact h2
    exact_mod_cast this

/-- The cubic polynomial is near the sine of the reduced argument. -/
theorem sineCubic_near (y p : Nat) (ψ : ℝ) (h1 : (y : ℝ) ≤ 2 ^ p * ψ) (h2 : 2 ^ p * ψ < y + 1) (hψ : ψ ≤ 1) :
    |2 ^ p * Real.sin ψ - (sineCubic y p : ℝ)| ≤ ((5 * y ^ 4 / (96 * 2 ^ (3 * p)) : Nat) : ℝ) + 3 := by
  have hP : (0 : ℝ) < 2 ^ p := by positivity
  -- the truncated argument
  obtain ⟨u, hu⟩ : ∃ u : ℝ, (y : ℝ) = 2 ^ p * u := ⟨y / 2 ^ p, by field_simp⟩
  have hu0 : 0 ≤ u := by
    have : (0 : ℝ) ≤ 2 ^ p * u := by rw [← hu]; positivity
    exact nonneg_of_mul_nonneg_right this hP
  have huψ : u ≤ ψ := by
    rw [hu] at h1; exact le_of_mul_le_mul_left h1 hP
  have hlip : |2 ^ p * Real.sin ψ - 2 ^ p * Real.sin u| ≤ 1 := by
    rw [← mul_sub, abs_mul, abs_of_pos hP]
    have h3 : |Real.sin ψ - Real.sin u| ≤ |ψ - u| := by
      simpa [Real.dist_eq] using Real.lipschitzWith_sin.dist_le_mul ψ u
    rw [abs_of_nonneg (by linarith : 0 ≤ ψ - u)] at h3
    have : 2 ^ p * |Real.sin ψ - Real.sin u| ≤ 2 ^ p * (ψ - u) := by gcongr
    rw [hu] at h2
    linarith
  have htay := Real.sin_bound (x := u) (by rw [abs_of_nonneg hu0]; linarith)
  rw [abs_of_nonneg hu0] at htay
  replace htay : |Real.sin u - (u - u ^ 3 / 6)| ≤ u ^ 4 * (5 / 96) := by
    refine htay.trans ?_
    have : 0 ≤ u ^ 4 := by positivity
    nlinarith
  have htay' : |2 ^ p * Real.sin u - 2 ^ p * (u - u ^ 3 / 6)| ≤ 2 ^ p * (u ^ 4 * (5 / 96)) := by
    rw [← mul_sub, abs_mul, abs_of_pos hP]; gcongr
  -- the polynomial's rounding
  have hc : |2 ^ p * (u - u ^ 3 / 6) - (sineCubic y p : ℝ)| ≤ 1 := by
    have hDn : 0 < 6 * 2 ^ (2 * p) := by positivity
    have q1 := Nat.div_mul_le_self (y * y * y) (6 * 2 ^ (2 * p))
    have q2 := Nat.lt_div_mul_add (a := y * y * y) hDn
    unfold sineCubic
    generalize y * y * y / (6 * 2 ^ (2 * p)) = q at *
    have hDr : ((6 * 2 ^ (2 * p) : Nat) : ℝ) = 6 * (2 ^ p) ^ 2 := by push_cast; rw [← pow_mul, mul_comm p]
    have q1' : (q : ℝ) * (6 * (2 ^ p) ^ 2) ≤ y * y * y := by rw [← hDr]; exact_mod_cast q1
    have q2' : (y * y * y : ℝ) < q * (6 * (2 ^ p) ^ 2) + 6 * (2 ^ p) ^ 2 := by rw [← hDr]; exact_mod_cast q2
    push_cast
    rw [hu] at q1' q2' ⊢
    generalize (2 : ℝ) ^ p = P at *
    have e3 : P * u * (P * u) * (P * u) = (P * u ^ 3 / 6) * (6 * P ^ 2) := by ring
    rw [e3] at q1' q2'
    have hP2 : 0 < 6 * P ^ 2 := by positivity
    have a1 : (q : ℝ) ≤ P * u ^ 3 / 6 := le_of_mul_le_mul_right q1' hP2
    have a2 : P * u ^ 3 / 6 < q + 1 := by
      rw [← add_one_mul] at q2'
      exact lt_of_mul_lt_mul_right q2' hP2.le
    rw [abs_le]
    constructor <;> linarith
  -- the remainder's rounding
  have hrem : 2 ^ p * (u ^ 4 * (5 / 96)) ≤ ((5 * y ^ 4 / (96 * 2 ^ (3 * p)) : Nat) : ℝ) + 1 := by
    have hDn : 0 < 96 * 2 ^ (3 * p) := by positivity
    have q2 := Nat.lt_div_mul_add (a := 5 * y ^ 4) hDn
    generalize 5 * y ^ 4 / (96 * 2 ^ (3 * p)) = q at *
    have hDr : ((96 * 2 ^ (3 * p) : Nat) : ℝ) = 96 * (2 ^ p) ^ 3 := by push_cast; rw [← pow_mul, mul_comm p]
    have q2' : (5 * (y : ℝ) ^ 4) < q * (96 * (2 ^ p) ^ 3) + 96 * (2 ^ p) ^ 3 := by rw [← hDr]; exact_mod_cast q2
    rw [hu] at q2'
    generalize (2 : ℝ) ^ p = P at *
    have e4 : 5 * (P * u) ^ 4 = (P * (u ^ 4 * (5 / 96))) * (96 * P ^ 3) := by ring
    rw [e4, ← add_one_mul] at q2'
    exact (lt_of_mul_lt_mul_right q2' (by positivity)).le
  have := abs_sub_le (2 ^ p * Real.sin ψ) (2 ^ p * Real.sin u) (sineCubic y p : ℝ)
  have := abs_sub_le (2 ^ p * Real.sin u) (2 ^ p * (u - u ^ 3 / 6)) (sineCubic y p : ℝ)
  linarith

/-! ## The enclosure -/

/-- The enclosure holds the sine, at every target precision. -/
theorem sineBox_encloses (x t : Nat) :
    ((sineBox x t).lo : ℝ) ≤ 2 ^ (sineBox x t).prec * Real.sin (angleOf x) ∧
    2 ^ (sineBox x t).prec * Real.sin (angleOf x) ≤ ((sineBox x t).hi : ℝ) := by
  simp only [sineBox]
  generalize hp : sinePrec x t = p
  generalize hk : sineTriples x p = k
  have h3 : (0 : ℝ) < 3 ^ k := by positivity
  have hψ : angleOf x / 3 ^ k ≤ 1 := by
    rw [div_le_one h3, ← hk]; exact angle_le x p
  obtain ⟨r1, r2⟩ := sineReduced_spec x p k
  generalize sineReduced x p k = y at *
  have hc := sineCubic_near y p _ r1 r2 hψ
  have hP : (0 : ℝ) < 2 ^ p := by positivity
  have hs : ∀ φ : ℝ, |2 ^ p * Real.sin φ| ≤ 2 ^ p := fun φ => by
    rw [abs_mul, abs_of_pos hP]; exact mul_le_of_le_one_right hP.le (Real.abs_sin_le_one _)
  have hc' := (clampUnit_near p (sineCubic y p) (hs (angleOf x / 3 ^ k))).trans hc
  have hk' := sineTriple_near p k _ _ _ (clampUnit_abs p _) hc'
  rw [mul_div_cancel₀ _ (ne_of_gt h3)] at hk'
  have herr : (9 : ℝ) ^ k * (((5 * y ^ 4 / (96 * 2 ^ (3 * p)) : Nat) : ℝ) + 3 + 1 / 8) - 1 / 8 ≤ (sineError y p k : ℝ) := by
    unfold sineError
    generalize 5 * y ^ 4 / (96 * 2 ^ (3 * p)) = F
    have : (0 : ℝ) < 9 ^ k := by positivity
    have e : ((9 ^ k * (F + 4) : Nat) : ℝ) = 9 ^ k * (F + 4) := by push_cast; rfl
    rw [e]
    linarith
  have hb := abs_le.1 (hk'.trans herr)
  refine clampUnit_bounds p _ _ (hs _) ?_ ?_
  · push_cast; linarith
  · push_cast; linarith

/-! ## The ladder -/

theorem sineSettled_cons (x t : Nat) (ts : List Nat) : sineSettled x (t :: ts) =
    if (sineBox x t).lower = (sineBox x t).upper then some (sineBox x t).lower else sineSettled x ts := by
  rw [sineSettled]

/-- A settled sine is both rounded ends of one rung's enclosure. -/
theorem sineSettled_some (x : Nat) (l : List Nat) (y : F64) (h : sineSettled x l = some y) :
    ∃ t, y = (sineBox x t).lower ∧ y = (sineBox x t).upper := by
  induction l with
  | nil => cases h
  | cons t ts ih =>
    rw [sineSettled_cons] at h
    by_cases he : (sineBox x t).lower = (sineBox x t).upper
    · rw [if_pos he] at h
      have := Option.some.inj h
      exact ⟨t, this.symm, this.symm.trans he⟩
    · rw [if_neg he] at h
      exact ih h

/-! ## Rounding the enclosure -/

/-- The rounded end of an enclosure is the binary64 value nearest to it. -/
theorem ofFixed_isNearest (v : Int) (p : Nat) (hv : |v| ≤ ((2 ^ p : Nat) : Int)) :
    (F64.ofFixed v p).IsNearest ((v : ℝ) / 2 ^ p) := by
  have hr : InRange (v.natAbs * 2 ^ 1074) p := by
    refine inRange_of_le ?_
    rw [Int.abs_eq_natAbs] at hv
    calc v.natAbs * 2 ^ 1074 ≤ 2 ^ p * 2 ^ 1074 := Nat.mul_le_mul_right _ (by exact_mod_cast hv)
      _ = 2 ^ (p + 1074) := by rw [pow_add]
      _ ≤ _ := Nat.pow_le_pow_right (by decide) (by omega)
  have := round_isNearest (decide (v < 0)) _ p hr
  have e : roundArg (decide (v < 0)) (v.natAbs * 2 ^ 1074) p = (v : ℚ) / 2 ^ p := by
    have hs : signedArg (decide (v < 0)) (v.natAbs * 2 ^ 1074) = v * ((2 ^ 1074 : Nat) : Int) := by
      unfold signedArg
      generalize (2 ^ 1074 : Nat) = U
      by_cases h : v < 0
      · rw [if_pos (by simpa using h)]; push_cast; rw [abs_of_neg h]; ring
      · rw [if_neg (by simpa using h)]; push_cast; rw [abs_of_nonneg (by omega)]
    have hU : (2 : ℚ) ^ 1074 ≠ 0 := pow_ne_zero _ two_ne_zero
    rw [roundArg, hs, Int.cast_mul, Int.cast_natCast, Nat.cast_pow, Nat.cast_ofNat]
    generalize (2 : ℚ) ^ 1074 = U at *
    field_simp
  rw [e] at this
  push_cast at this
  exact this

/-- Both ends of an enclosure lie in `[-1, 1]`. -/
theorem box_bounds (x t : Nat) : |(sineBox x t).lo| ≤ ((2 ^ (sineBox x t).prec : Nat) : Int) ∧ |(sineBox x t).hi| ≤ ((2 ^ (sineBox x t).prec : Nat) : Int) :=
  ⟨clampUnit_abs _ _, clampUnit_abs _ _⟩

/-- The rounded lower end is nearest to the lower end. -/
theorem lower_near (x t : Nat) : (sineBox x t).lower.IsNearest (((sineBox x t).lo : ℝ) / 2 ^ (sineBox x t).prec) := ofFixed_isNearest _ _ (box_bounds x t).1

/-- The rounded upper end is nearest to the upper end. -/
theorem upper_near (x t : Nat) : (sineBox x t).upper.IsNearest (((sineBox x t).hi : ℝ) / 2 ^ (sineBox x t).prec) := ofFixed_isNearest _ _ (box_bounds x t).2

/-! ## Signs -/

/-- A value as an angle. -/
theorem value_real (x : F64) : (x.value : ℝ) = if x.neg then -angleOf x.mag else angleOf x.mag := by
  rw [value_units, Rat.cast_div, Rat.cast_pow, Rat.cast_ofNat, Rat.cast_intCast]
  unfold F64.units angleOf
  generalize (2:ℝ)^1074 = U
  generalize x.mag = m
  cases x.neg
  · rw [if_neg (by decide), if_neg (by decide), Int.cast_natCast]
  · rw [if_pos rfl, if_pos rfl, Int.cast_neg, Int.cast_natCast, neg_div]

/-- Flipping the sign flips the value. -/
theorem flip_value (y : F64) (b : Bool) : F64.value { y with neg := y.neg != b } = (if b then -y.value else y.value) := by
  have hu : F64.units { y with neg := y.neg != b } = if b then -y.units else y.units := by
    obtain ⟨n, m, e⟩ := y
    unfold F64.units F64.mag
    cases n <;> cases b <;> simp
  rw [value_units, hu, value_units]
  cases b <;> simp
  rw [neg_div]

/-- Flipping the sign keeps the form. -/
theorem flip_wf (y : F64) (b : Bool) : F64.wf { y with neg := y.neg != b } = y.wf := rfl

/-! ## Between the two ends -/

/-- A number between two numbers that round to one binary64 value rounds to that value. -/
theorem isNearest_between {y : F64} {a b v : ℝ} (ha : y.IsNearest a) (hb : y.IsNearest b) (h1 : a ≤ v) (h2 : v ≤ b) :
    y.IsNearest v := by
  refine ⟨ha.1, fun z hz => ?_⟩
  obtain ⟨a1, a2⟩ := ha.2 z hz
  obtain ⟨b1, b2⟩ := hb.2 z hz
  -- whether `y` is nearer than `z` is a sign of an affine function
  have key : ∀ u : ℝ, (|(y.value : ℝ) - u| ≤ |(z.value : ℝ) - u| ↔
      0 ≤ ((z.value : ℝ) - y.value) * (z.value + y.value - 2 * u)) := fun u => by
    rw [← sq_le_sq, ← sub_nonneg]
    constructor <;> intro h <;> nlinarith
  have keq : ∀ u : ℝ, (|(y.value : ℝ) - u| = |(z.value : ℝ) - u| ↔
      ((z.value : ℝ) - y.value) * (z.value + y.value - 2 * u) = 0) := fun u => by
    rw [← sq_eq_sq_iff_abs_eq_abs, ← sub_eq_zero]
    constructor <;> intro h <;> nlinarith
  rw [key] at a1 b1 ⊢
  rw [keq] at a2 b2 ⊢
  constructor
  · rcases le_total (z.value : ℝ) y.value with hzy | hzy
    · nlinarith
    · nlinarith
  · intro h0 hne
    have hd : (z.value : ℝ) - y.value ≠ 0 := by
      intro hc; exact hne (by exact_mod_cast sub_eq_zero.1 hc)
    have hmid : (z.value : ℝ) + y.value - 2 * v = 0 := (mul_eq_zero.1 h0).resolve_left hd
    rcases lt_or_gt_of_ne hd with hlt | hgt
    · refine a2 ?_ hne
      have : (z.value : ℝ) + y.value - 2 * a ≤ 0 := by
        by_contra hc; nlinarith
      rw [show (z.value : ℝ) + y.value - 2 * a = 0 by linarith, mul_zero]
    · refine b2 ?_ hne
      have : 0 ≤ (z.value : ℝ) + y.value - 2 * b := by
        by_contra hc; nlinarith
      rw [show (z.value : ℝ) + y.value - 2 * b = 0 by linarith, mul_zero]

end Sys2Proof.Machine
end

