-- ==== Sys2Proof/Laws/SineIrrational.lean ====
section
/-! SUPPORT. The sine of a nonzero rational number is irrational, from Mathlib's analytic part of the Lindemann-Weierstrass
theorem, so no sine of a nonzero binary64 value lies midway between two others. -/

namespace Sys2Proof.Machine

open Polynomial

/-- `i^k + (-i)^k` is an integer. -/
theorem exists_int_I_pow : ∀ k : Nat, ∃ z : Int, Complex.I ^ k + (-Complex.I) ^ k = (z : ℂ)
  | 0 => ⟨2, by norm_num⟩
  | 1 => ⟨0, by norm_num⟩
  | k + 2 => by
    obtain ⟨z, hz⟩ := exists_int_I_pow k
    refine ⟨-z, ?_⟩
    rw [pow_add, pow_add, neg_sq, Complex.I_sq]
    push_cast
    linear_combination -hz

/-- An integer polynomial at `±(a/b) i`, over the common denominator. -/
theorem exists_int_aeval (a b : Int) (hb : b ≠ 0) (g : ℤ[X]) (N : Nat) (hN : g.natDegree ≤ N) :
    ∃ z : Int, (b : ℂ) ^ N * (aeval ((a / b : ℂ) * Complex.I) g + aeval (-((a / b : ℂ) * Complex.I)) g) = z := by
  have hb' : (b : ℂ) ≠ 0 := by exact_mod_cast hb
  choose s hs using exists_int_I_pow
  refine ⟨∑ k ∈ Finset.range (N + 1), g.coeff k * b ^ (N - k) * a ^ k * s k, ?_⟩
  rw [aeval_eq_sum_range' (Nat.lt_succ_of_le hN), aeval_eq_sum_range' (Nat.lt_succ_of_le hN), ← Finset.sum_add_distrib,
    Finset.mul_sum]
  push_cast
  refine Finset.sum_congr rfl fun k hk => ?_
  have hk' : k ≤ N := Nat.lt_succ_iff.1 (Finset.mem_range.1 hk)
  rw [← hs k, neg_mul_eq_mul_neg, mul_pow, mul_pow, div_pow, zsmul_eq_mul, zsmul_eq_mul]
  have e : (b : ℂ) ^ N = b ^ (N - k) * b ^ k := by rw [← pow_add]; congr 1; omega
  rw [e]
  field_simp

/-- The cosine of a nonzero rational number is no nonzero rational number. -/
theorem cos_rat_ne (a b u v : Int) (ha : a ≠ 0) (hb : b ≠ 0) (hu : u ≠ 0) (hv : v ≠ 0) :
    Real.cos (a / b) ≠ u / v := by
  intro hcos
  let f : ℤ[X] := C (b ^ 2) * X ^ 2 + C (a ^ 2)
  have hf0 : f.eval 0 ≠ 0 := by simp [f, ha]
  have hf : f ≠ 0 := fun h => hf0 (by rw [h, eval_zero])
  have hdeg : f.natDegree ≤ 2 := by simp only [f]; compute_degree
  have hb' : (b : ℂ) ≠ 0 := by exact_mod_cast hb
  have hroot : ∀ r : ℂ, r ^ 2 = -(a / b : ℂ) ^ 2 → r ∈ f.aroots ℂ := by
    intro r hr
    rw [mem_aroots]
    refine ⟨hf, ?_⟩
    simp only [f, map_add, map_mul, map_pow, aeval_C, aeval_X, hr]
    simp
    field_simp
    ring
  obtain ⟨c, hc⟩ := LindemannWeierstrass.exp_polynomial_approx f hf0
  -- the bound that a large prime breaks
  let K : ℝ := |c| * b ^ 2
  have hlim := (FloorSemiring.tendsto_pow_div_factorial_atTop K).const_mul (2 * |(v : ℝ)| * K)
  rw [mul_zero] at hlim
  obtain ⟨M, hM⟩ := Filter.eventually_atTop.1 (hlim.eventually_lt_const (show (0 : ℝ) < 1 by norm_num))
  obtain ⟨p, hp1, hp⟩ := Nat.exists_infinite_primes (M + (f.eval 0).natAbs + 2 * u.natAbs + b.natAbs + 2)
  obtain ⟨n, hn, g, hg, happ⟩ := hc p (by omega) hp
  have hgN : g.natDegree ≤ 2 * p - 1 := hg.trans (by have := Nat.mul_le_mul_left p hdeg; omega)
  obtain ⟨z, hz⟩ := exists_int_aeval a b hb g (2 * p - 1) hgN
  -- the integer that is not divisible by `p`
  have hne : 2 * n * u * b ^ (2 * p - 1) - p * (v * z) ≠ 0 := by
    intro h
    have hd : (p : Int) ∣ 2 * u * n * b ^ (2 * p - 1) := ⟨v * z, by linear_combination h⟩
    have hpI : Prime (p : Int) := Nat.prime_iff_prime_int.1 hp
    rcases hpI.dvd_mul.1 hd with h1 | h1
    · rcases hpI.dvd_mul.1 h1 with h2 | h2
      · have := Int.natAbs_le_of_dvd_ne_zero h2 (mul_ne_zero two_ne_zero hu)
        rw [Int.natAbs_mul] at this
        simp at this
        omega
      · exact hn h2
    · have := Int.natAbs_le_of_dvd_ne_zero (hpI.dvd_of_dvd_pow h1) hb
      simp at this
      omega
  have hone : (1 : ℝ) ≤ |((2 * n * u * b ^ (2 * p - 1) - p * (v * z) : Int) : ℝ)| := by
    rw [← Int.cast_abs]
    exact_mod_cast Int.one_le_abs hne
  -- its size
  have h1 := happ (hroot ((a / b : ℂ) * Complex.I) (by rw [mul_pow, Complex.I_sq]; ring))
  have h2 := happ (hroot (-((a / b : ℂ) * Complex.I)) (by rw [neg_sq, mul_pow, Complex.I_sq]; ring))
  have hsum := (norm_add_le _ _).trans (add_le_add h1 h2)
  have hcosC : Complex.exp ((a / b : ℂ) * Complex.I) + Complex.exp (-((a / b : ℂ) * Complex.I)) = 2 * (u / v : ℂ) := by
    have := Complex.two_cos (a / b : ℂ)
    rw [← neg_mul_eq_neg_mul] at this
    rw [← this]
    have e : Complex.cos (a / b : ℂ) = ((Real.cos (a / b) : ℝ) : ℂ) := by push_cast; rfl
    rw [e, hcos]
    push_cast
    rfl
  have hvC : (v : ℂ) ≠ 0 := by exact_mod_cast hv
  have key : ((2 * n * u * b ^ (2 * p - 1) - p * (v * z) : Int) : ℂ) = v * b ^ (2 * p - 1) *
      ((n • Complex.exp ((a / b : ℂ) * Complex.I) - p • aeval ((a / b : ℂ) * Complex.I) g) +
      (n • Complex.exp (-((a / b : ℂ) * Complex.I)) - p • aeval (-((a / b : ℂ) * Complex.I)) g)) := by
    have e : (n • Complex.exp ((a / b : ℂ) * Complex.I) - p • aeval ((a / b : ℂ) * Complex.I) g) +
      (n • Complex.exp (-((a / b : ℂ) * Complex.I)) - p • aeval (-((a / b : ℂ) * Complex.I)) g) =
      n * (Complex.exp ((a / b : ℂ) * Complex.I) + Complex.exp (-((a / b : ℂ) * Complex.I))) -
      p * (aeval ((a / b : ℂ) * Complex.I) g + aeval (-((a / b : ℂ) * Complex.I)) g) := by
      simp only [zsmul_eq_mul, nsmul_eq_mul]
      ring
    rw [e, hcosC]
    push_cast
    rw [← hz]
    field_simp
  have hsize : |((2 * n * u * b ^ (2 * p - 1) - p * (v * z) : Int) : ℝ)| ≤
      |(v : ℝ)| * |(b : ℝ)| ^ (2 * p - 1) * (2 * (|c| ^ p / (p - 1).factorial)) := by
    have hle : c ^ p / ((p - 1).factorial : ℝ) ≤ |c| ^ p / (p - 1).factorial := by
      rw [← abs_pow]
      gcongr
      exact le_abs_self _
    have := congrArg norm key
    rw [norm_mul, norm_mul, norm_pow, Complex.norm_intCast, Complex.norm_intCast, Complex.norm_intCast] at this
    rw [this]
    gcongr
    linarith
  have hpow : |(b : ℝ)| ^ (2 * p - 1) ≤ (b : ℝ) ^ (2 * p) := by
    have hb1 : (1 : ℝ) ≤ |(b : ℝ)| := by rw [← Int.cast_abs]; exact_mod_cast Int.one_le_abs hb
    calc |(b : ℝ)| ^ (2 * p - 1) ≤ |(b : ℝ)| ^ (2 * p) := pow_le_pow_right₀ hb1 (by omega)
      _ = (b : ℝ) ^ (2 * p) := by rw [pow_mul, sq_abs, ← pow_mul]
  have hlast := hM (p - 1) (by omega)
  have heq : |(v : ℝ)| * (b : ℝ) ^ (2 * p) * (2 * (|c| ^ p / (p - 1).factorial)) =
      2 * |(v : ℝ)| * K * (K ^ (p - 1) / (p - 1).factorial) := by
    obtain ⟨m, rfl⟩ : ∃ m, p = m + 1 := ⟨p - 1, by have := hp.pos; omega⟩
    simp only [K, Nat.add_sub_cancel]
    rw [pow_mul, mul_pow]
    ring
  have : |(v : ℝ)| * |(b : ℝ)| ^ (2 * p - 1) * (2 * (|c| ^ p / (p - 1).factorial)) ≤
      |(v : ℝ)| * (b : ℝ) ^ (2 * p) * (2 * (|c| ^ p / (p - 1).factorial)) := by gcongr
  linarith

/-- The sine of a nonzero rational number is irrational. -/
theorem sin_rat_ne {r : ℚ} (hr : r ≠ 0) (m : ℚ) : Real.sin r ≠ m := by
  have hcos : ∀ s q : ℚ, s ≠ 0 → q ≠ 0 → Real.cos s ≠ q := fun s q hs hq h => by
    refine cos_rat_ne s.num s.den q.num q.den (Rat.num_ne_zero.2 hs) (by exact_mod_cast s.den_ne_zero)
      (Rat.num_ne_zero.2 hq) (by exact_mod_cast q.den_ne_zero) ?_
    rw [Rat.cast_def, Rat.cast_def] at h
    exact_mod_cast h
  intro h
  have h2 : Real.cos ((2 * r : ℚ) : ℝ) = ((1 - 2 * m ^ 2 : ℚ) : ℝ) := by
    push_cast
    rw [Real.cos_two_mul, Real.cos_sq', h]
    ring
  by_cases h0 : 1 - 2 * m ^ 2 = 0
  · refine hcos (4 * r) (-1) (by simpa using hr) (by norm_num) ?_
    rw [h0] at h2
    have e : ((4 * r : ℚ) : ℝ) = 2 * ((2 * r : ℚ) : ℝ) := by push_cast; ring
    rw [e, Real.cos_two_mul, h2]
    norm_num
  · exact hcos (2 * r) _ (by simpa using hr) h0 h2

end Sys2Proof.Machine
end

