-- ==== Sys2Proof/Laws/SineSettles.lean ====
section
/-! SUPPORT. Some precision settles every argument: the sine is irrational, so it is midway between no two binary64
values, and the enclosure gets as narrow as one likes. -/

namespace Sys2Proof.Machine

/-! ## The form of a value is unique -/

/-- Two binary64 values of one magnitude and one sign are one value. -/
theorem eq_of_mag_eq {y z : F64} (hy : y.wf = true) (hz : z.wf = true) (hn : y.neg = z.neg) (hm : y.mag = z.mag) :
    y = z := by
  have key : ∀ u v : F64, u.wf = true → v.wf = true → u.mag = v.mag → u.exp ≤ v.exp →
      u.exp = v.exp ∧ u.man = v.man := by
    intro u v hu hv h hle
    simp only [F64.wf, Bool.and_eq_true, Bool.or_eq_true, decide_eq_true_eq] at hu hv
    unfold F64.mag at h
    obtain ⟨d, hd⟩ := Nat.exists_eq_add_of_le hle
    rw [hd, pow_add, mul_comm (2 ^ u.exp), ← mul_assoc] at h
    have h' : u.man = v.man * 2 ^ d := Nat.eq_of_mul_eq_mul_right (Nat.pos_of_ne_zero (by simp)) h
    rcases Nat.eq_zero_or_pos d with rfl | hpos
    · exact ⟨by omega, by simpa using h'⟩
    · have h1 : 2 ^ 52 ≤ v.man := hv.1.2.resolve_right (by omega)
      have h2 : 2 ^ 1 ≤ 2 ^ d := Nat.pow_le_pow_right (by decide) hpos
      have h3 := Nat.mul_le_mul h1 h2
      omega
  have : y.exp = z.exp ∧ y.man = z.man := by
    rcases le_total y.exp z.exp with h | h
    · exact key y z hy hz hm h
    · obtain ⟨a, b⟩ := key z y hz hy hm.symm h
      exact ⟨a.symm, b.symm⟩
  obtain ⟨n, m, e⟩ := y
  obtain ⟨n', m', e'⟩ := z
  simp_all

theorem eq_of_value_eq {y z : F64} (hy : y.wf = true) (hz : z.wf = true) (hn : y.neg = z.neg)
    (hv : y.value = z.value) : y = z := by
  refine eq_of_mag_eq hy hz hn ?_
  have := (value_eq_iff y z).1 hv
  unfold F64.units at this
  rw [hn] at this
  split at this <;> omega

/-! ## Near an irrational number -/

/-- The binary64 values are finitely many. -/
theorem finite_wf : {z : F64 | z.wf = true}.Finite := by
  refine (Set.finite_range fun q : Bool × Fin (2 ^ 53) × Fin 2046 => F64.mk q.1 q.2.1 q.2.2).subset ?_
  rintro ⟨n, m, e⟩ h
  simp only [Set.mem_ofPred_eq, F64.wf, Bool.and_eq_true, Bool.or_eq_true, decide_eq_true_eq] at h
  exact ⟨(n, ⟨m, h.1.1⟩, ⟨e, by omega⟩), rfl⟩

theorem exists_gap {α : Type} {S : Set α} (hS : S.Finite) (f : α → ℝ) (hf : ∀ z ∈ S, 0 < f z) :
    ∃ g > 0, ∀ z ∈ S, g ≤ f z := by
  rcases S.eq_empty_or_nonempty with rfl | hne
  · exact ⟨1, one_pos, fun _ h => absurd h (Set.notMem_empty _)⟩
  · obtain ⟨a, ha, h⟩ := Set.exists_min_image S f hS hne
    exact ⟨f a, hf a ha, h⟩

/-- All numbers near an irrational number round to one value. -/
theorem exists_nearby_round {s : ℝ} (hs : ∀ q : ℚ, s ≠ q) :
    ∃ δ > 0, ∃ r : ℚ, ∀ (v : ℝ) (y : F64), |v - s| < δ → y.IsNearest v → y.value = r := by
  obtain ⟨y0, h0, hmin⟩ := Set.exists_min_image _ (fun z : F64 => |(z.value : ℝ) - s|) finite_wf ⟨F64.zero, rfl⟩
  obtain ⟨g, hg, hgap⟩ := exists_gap (finite_wf.subset (Set.sep_subset _ fun z : F64 => z.value ≠ y0.value))
    (fun z : F64 => |(z.value : ℝ) - s| - |(y0.value : ℝ) - s|) (by
      rintro z ⟨hz, hne⟩
      refine sub_pos.2 (lt_of_le_of_ne (hmin z hz) fun he => ?_)
      rcases abs_eq_abs.1 he with h | h
      · exact hne (by exact_mod_cast (sub_left_inj.1 h).symm)
      · refine hs ((y0.value + z.value) / 2) ?_
        push_cast
        linarith)
  refine ⟨g / 2, by linarith, y0.value, fun v y hv hy => ?_⟩
  by_contra hne
  have h1 := hgap y ⟨hy.1, hne⟩
  have h2 := (hy.2 y0 h0).1
  have h3 := abs_sub_le (y.value : ℝ) v s
  have h4 := abs_sub_le (y0.value : ℝ) s v
  rw [abs_sub_comm s v] at h4
  change g ≤ |(y.value : ℝ) - s| - |(y0.value : ℝ) - s| at h1
  linarith

/-! ## The width of the enclosure -/

theorem box_width (x t : Nat) : (sineBox x t).hi - (sineBox x t).lo ≤
    2 * (sineError (sineReduced x (sineBox x t).prec (sineTriples x (sineBox x t).prec)) (sineBox x t).prec
      (sineTriples x (sineBox x t).prec) : Int) := by
  simp only [sineBox]
  generalize sineError _ _ _ = e
  generalize sineTriple _ _ _ = v
  unfold clampUnit
  generalize (2 ^ sinePrec x t : Nat) = P
  omega

/-- The error bound over the unit. -/
theorem error_le (x p k : Nat) : (sineError (sineReduced x p k) p k : ℝ) / 2 ^ p ≤
    angleOf x ^ 4 / 9 ^ k + 4 * (9 ^ k / 2 ^ p) := by
  have hP : (0 : ℝ) < 2 ^ p := by positivity
  have hy := (sineReduced_spec x p k).1
  have h0 : (0 : ℝ) ≤ sineReduced x p k := Nat.cast_nonneg _
  generalize angleOf x = A at *
  unfold sineError
  generalize sineReduced x p k = y at *
  have hq : ((5 * y ^ 4 / (96 * 2 ^ (3 * p)) : Nat) : ℝ) ≤ 2 ^ p * (A ^ 4 / 81 ^ k) := by
    refine Nat.cast_div_le.trans ?_
    push_cast
    have hy4 : (y : ℝ) ^ 4 ≤ (2 ^ p * (A / 3 ^ k)) ^ 4 := pow_le_pow_left₀ h0 hy 4
    rw [div_le_iff₀ (by positivity)]
    have e1 : ((2 : ℝ) ^ p * (A / 3 ^ k)) ^ 4 = 2 ^ p * (A ^ 4 / 81 ^ k) * 2 ^ (3 * p) := by
      rw [mul_pow, div_pow, ← pow_mul, ← pow_mul (3 : ℝ), mul_comm k 4, pow_mul (3 : ℝ)]
      norm_num
      ring
    rw [e1] at hy4
    have : (0 : ℝ) ≤ 2 ^ p * (A ^ 4 / 81 ^ k) * 2 ^ (3 * p) := by positivity
    nlinarith
  have e81 : (81 : ℝ) ^ k = 9 ^ k * 9 ^ k := by rw [← mul_pow]; norm_num
  rw [div_le_iff₀ hP]
  push_cast
  calc (9 : ℝ) ^ k * (((5 * y ^ 4 / (96 * 2 ^ (3 * p)) : Nat) : ℝ) + 4)
      ≤ 9 ^ k * (2 ^ p * (A ^ 4 / 81 ^ k) + 4) := by gcongr
    _ = (A ^ 4 / 9 ^ k + 4 * (9 ^ k / 2 ^ p)) * 2 ^ p := by
        rw [e81]
        field_simp

theorem triples_bounds (x n p : Nat) (hp : p = sinePrec x (3 * n + 4 * (x.log2 + 1 - 1074) + 10)) :
    n + 4 * sineTriples x p ≤ p ∧ n ≤ sineTriples x p := by
  unfold sinePrec at hp
  unfold sineTriples
  omega

/-- The enclosure gets as narrow as one likes. -/
theorem exists_narrow (x : Nat) {δ : ℝ} (hδ : 0 < δ) :
    ∃ t, ((sineBox x t).hi - (sineBox x t).lo : ℝ) / 2 ^ (sineBox x t).prec < δ := by
  obtain ⟨n, hn⟩ := pow_unbounded_of_one_lt ((2 * angleOf x ^ 4 + 8) / δ) (by norm_num : (1 : ℝ) < 2)
  rw [div_lt_iff₀ hδ] at hn
  refine ⟨3 * n + 4 * (x.log2 + 1 - 1074) + 10, ?_⟩
  have hw := box_width x (3 * n + 4 * (x.log2 + 1 - 1074) + 10)
  generalize hp : (sineBox x (3 * n + 4 * (x.log2 + 1 - 1074) + 10)).prec = p at *
  have hpn := triples_bounds x n p hp.symm
  have herr := error_le x p (sineTriples x p)
  generalize sineTriples x p = k at *
  have hP : (0 : ℝ) < 2 ^ p := by positivity
  have hw' : ((sineBox x (3 * n + 4 * (x.log2 + 1 - 1074) + 10)).hi - (sineBox x (3 * n + 4 * (x.log2 + 1 - 1074) + 10)).lo : ℝ) ≤
      2 * (sineError (sineReduced x p k) p k : ℝ) := by exact_mod_cast hw
  have hA : (0 : ℝ) ≤ angleOf x ^ 4 := Even.pow_nonneg (by decide) _
  have h2n : (0 : ℝ) < 2 ^ n := by positivity
  have ha : angleOf x ^ 4 / 9 ^ k ≤ angleOf x ^ 4 / 2 ^ n := by
    refine div_le_div_of_nonneg_left hA h2n ?_
    calc (2 : ℝ) ^ n ≤ 2 ^ k := pow_le_pow_right₀ (by norm_num) hpn.2
      _ ≤ 9 ^ k := pow_le_pow_left₀ (by norm_num) (by norm_num) k
  have hb : (9 : ℝ) ^ k / 2 ^ p ≤ 1 / 2 ^ n := by
    rw [div_le_div_iff₀ hP h2n, one_mul]
    calc (9 : ℝ) ^ k * 2 ^ n ≤ 16 ^ k * 2 ^ n := by gcongr; norm_num
      _ = 2 ^ (n + 4 * k) := by rw [show (16 : ℝ) = 2 ^ 4 by norm_num, ← pow_mul, ← pow_add]; ring
      _ ≤ 2 ^ p := pow_le_pow_right₀ (by norm_num) hpn.1
  calc _ ≤ 2 * (sineError (sineReduced x p k) p k : ℝ) / 2 ^ p := by gcongr
    _ = 2 * ((sineError (sineReduced x p k) p k : ℝ) / 2 ^ p) := by ring
    _ ≤ 2 * (angleOf x ^ 4 / 2 ^ n + 4 * (1 / 2 ^ n)) := by linarith
    _ = (2 * angleOf x ^ 4 + 8) / 2 ^ n := by ring
    _ < δ := by rw [div_lt_iff₀ h2n]; linarith

/-! ## Settling -/

theorem ofFixed_neg (v : Int) (p : Nat) : (F64.ofFixed v p).neg = decide (v < 0) := by
  unfold F64.ofFixed
  exact round_neg _ _ _

/-- The sine of a positive magnitude is irrational. -/
theorem sin_angle_ne {x : Nat} (hx : x ≠ 0) (q : ℚ) : Real.sin (angleOf x) ≠ q := by
  have e : angleOf x = (((x : ℚ) / 2 ^ 1074 : ℚ) : ℝ) := by
    rw [Rat.cast_div, Rat.cast_pow, Rat.cast_natCast, Rat.cast_ofNat]
    rfl
  rw [e]
  exact sin_rat_ne (div_ne_zero (by exact_mod_cast hx) (pow_ne_zero _ two_ne_zero)) q

/-- Some precision settles the sine of every positive magnitude. -/
theorem sineBox_settles (x : Nat) (hx : x ≠ 0) : ∃ t, (sineBox x t).lower = (sineBox x t).upper := by
  obtain ⟨δ, hδ, r, hr⟩ := exists_nearby_round (sin_angle_ne hx)
  have hs0 : Real.sin (angleOf x) ≠ 0 := by simpa using sin_angle_ne hx 0
  obtain ⟨t, ht⟩ := exists_narrow x (lt_min hδ (abs_pos.2 hs0))
  refine ⟨t, ?_⟩
  have hP : (0 : ℝ) < 2 ^ (sineBox x t).prec := by positivity
  obtain ⟨e1, e2⟩ := sineBox_encloses x t
  have hl := lower_near x t
  have hu := upper_near x t
  have hln : (sineBox x t).lower.neg = decide ((sineBox x t).lo < 0) := ofFixed_neg _ _
  have hun : (sineBox x t).upper.neg = decide ((sineBox x t).hi < 0) := ofFixed_neg _ _
  generalize (sineBox x t).lower = yl at *
  generalize (sineBox x t).upper = yu at *
  generalize (sineBox x t).lo = lo at *
  generalize (sineBox x t).hi = hi at *
  generalize Real.sin (angleOf x) = s at *
  generalize (2 : ℝ) ^ (sineBox x t).prec = P at *
  have hlo : (lo : ℝ) / P ≤ s := by rw [div_le_iff₀ hP]; linarith
  have hhi : s ≤ (hi : ℝ) / P := by rw [le_div_iff₀ hP]; linarith
  rw [sub_div] at ht
  have ht1 := lt_min_iff.1 ht
  have vl : yl.value = r := hr _ _ (by rw [abs_lt]; constructor <;> linarith) hl
  have vu : yu.value = r := hr _ _ (by rw [abs_lt]; constructor <;> linarith) hu
  refine eq_of_value_eq hl.1 hu.1 ?_ (vl.trans vu.symm)
  rw [hln, hun]
  congr 1
  rw [eq_iff_iff]
  rcases lt_or_gt_of_ne hs0 with h | h
  · rw [abs_of_neg h] at ht1
    have h1 : (lo : ℝ) < 0 := by
      have : (lo : ℝ) / P < 0 := by linarith
      by_contra hc
      exact absurd this (not_lt.2 (div_nonneg (not_lt.1 hc) hP.le))
    have h2 : (hi : ℝ) < 0 := by
      have : (hi : ℝ) / P < 0 := by linarith
      by_contra hc
      exact absurd this (not_lt.2 (div_nonneg (not_lt.1 hc) hP.le))
    exact ⟨fun _ => by exact_mod_cast h2, fun _ => by exact_mod_cast h1⟩
  · rw [abs_of_pos h] at ht1
    have h1 : ¬ (lo : ℝ) < 0 := fun hc => by
      have : (lo : ℝ) / P < 0 := div_neg_of_neg_of_pos hc hP
      linarith
    have h2 : ¬ (hi : ℝ) < 0 := fun hc => by
      have : (hi : ℝ) / P < 0 := div_neg_of_neg_of_pos hc hP
      linarith
    exact ⟨fun hc => absurd (by exact_mod_cast hc) h1, fun hc => absurd (by exact_mod_cast hc) h2⟩

end Sys2Proof.Machine
end

