-- ==== Sys2Proof/Machine/Sine.lean ====
section
/-! DEFINITION. `SIN64`, the correctly rounded sine (00_scope.md R3, 44_block_mixer.md R232), for every argument. The few
precisions of `sineLadder` are tried first; where none settles the argument, the search goes on over all precisions. It
ends because some precision settles: `sineBox_settles` of Laws/SineSettles.lean, which is why this file imports it. Log
entry 9. -/

namespace Sys2Proof.Machine

/-- The value of the ladder, or of the first precision at which both ends of the enclosure round alike. -/
def sinePick (x : Nat) (hx : x ≠ 0) : Option F64 → F64
  | some y => y
  | none => (sineBox x (Nat.find (sineBox_settles x hx))).lower

/-- The sine of a positive argument of magnitude `x`. -/
def sineOfMag (x : Nat) (hx : x ≠ 0) : F64 := sinePick x hx (sineSettled x sineLadder)

/-- `SIN64` (00_scope.md R3): odd, and the sine of a zero is that zero (P1). -/
def sin64 (x : F64) : F64 :=
  if hx : x.mag = 0 then x
  else
    let y := sineOfMag x.mag hx
    { y with neg := y.neg != x.neg }

end Sys2Proof.Machine
end

