-- ==== Sys2Proof/Machine/Digest.lean ====
section
/-! DEFINITION. The functions the stages compute, on values: padding (41_padder.md), the seed (42_seed.md), the initial
state (43_state_init.md), the block mixer (44_block_mixer.md), serialisation (45_compressor.md R281) and the digest
they make up (40_commands.md R133). -/

namespace Sys2Proof.Machine

/-! ## padder_unit (41_padder.md) -/

/-- `PL`, the padded length of a message of `L` bytes (R160). -/
def paddedLength (L : Nat) : Nat := 64 * (L / 64 + 1)

/-- `PADBYTE(n)`: the message byte, the sentinel, or zero (R161). `read` gives the message's bytes. R161 defines the
function for `n < PL` alone; that it has a value for `n >= PL`, a free one, is the model's choice (DESIGN CHOICE, log
entry 26). -/
def padByte (read : Nat → Byte) (L n : Nat) : Byte :=
  if n < L then read n
  else if n = L then 0x80
  else if n < paddedLength L then 0x00
  else Config.pastPadding ((List.range L).map read) n

/-- The block at byte `base` of the padded sequence (R162). -/
def padBlock (read : Nat → Byte) (L base : Nat) : Block :=
  Vector.ofFn fun m => padByte read L (base + m.val)

/-! ## seed_deriver (42_seed.md R181) -/

/-- One step of the seed fold. -/
def seedStep (seed : Word) (v : Byte) : Word :=
  seed ^^^ (v.setWidth 32 + 0x9e3779b9#32 + (seed <<< 6) + (seed >>> 2))

/-- `SeedFold(M)`: a left fold from the length. -/
def seedFold (M : List Byte) : Word := M.foldl seedStep (BitVec.ofNat 32 M.length)

/-! ## state_init_16w32b (43_state_init.md R201) -/

/-- `value xor (value >> n)`. -/
def xorShift (n : Nat) (x : Word) : Word := x ^^^ (x >>> n)

/-- `InitialMix(seed, index)`. -/
def initialMix (seed : Word) (i : Fin 16) : Word :=
  let v := seed ^^^ (BitVec.ofNat 32 i.val * 0x85ebca6b#32)
  let v := xorShift 16 v
  let v := v * 0x85ebca6b#32
  let v := xorShift 13 v
  let v := v * 0xc2b2ae35#32
  xorShift 16 v

/-- The sixteen initial words (R200). -/
def initialState (seed : Word) : Words := Vector.ofFn fun i => initialMix seed i

/-! ## word_absorber (44_block_mixer.md R223) -/

/-- `Absorb(S, blk)`. -/
def absorb (S : Words) (blk : Block) : Words := Vector.ofFn fun i => S.get i + blockWord blk i.val

/-! ## sine_nonlinearity_lut (44_block_mixer.md R230, R231) -/

/-- `NlLane(x, a, b, c)` for a sine and a setting of `MIX_CONV`. -/
def nlLane (sine : F64 → F64) (conv : MixConv) (x a b c : Word) : Word :=
  let temp := x ^^^ b
  let arg := F64.mul (F64.ofWord a) (F64.ofWord temp)
  let s := sine arg
  let p := F64.mul s (F64.ofWord c)
  x + conv32 conv p.floor

/-- `NlMix(S, a, b, c)` for a setting of `MIX_CONV`. -/
def nlMix (conv : MixConv) (S : Words) (a b c : Word) : Words :=
  Vector.ofFn fun i => nlLane sin64 conv (S.get i) a b c

/-! ## permutation_network (44_block_mixer.md R240-R243) -/

/-- The linear-congruential step (R241). -/
def lcg (ctr : Word) : Word := ctr * 1664525#32 + 1013904223#32

/-- Exchange two elements. -/
def permSwap (P : Perm) (x y : Fin 16) : Perm :=
  Vector.ofFn fun k => if k = x then P.get y else if k = y then P.get x else P.get k

/-- The swaps for `i = n` down to 1, each after an advance of the counter. -/
def permSteps : Nat → Perm × Word → Perm × Word
  | 0, q => q
  | n + 1, (P, ctr) =>
    permSteps n (permSwap P (Fin.ofNat 16 (n + 1)) (Fin.ofNat 16 ((lcg ctr).toNat % (n + 2))), lcg ctr)

/-- The identity array. -/
def identityPerm : Perm := Vector.ofFn fun i => i

/-- The permutation and the last counter value that PERMGEN leaves for a counter seed. -/
def permGen (seed : Word) : Perm × Word := permSteps 15 (identityPerm, seed)

/-- `Permute(S, perm)` (R243). -/
def permute (S : Words) (P : Perm) : Words := Vector.ofFn fun i => S.get (P.get i)

/-! ## rotate_xor_diffuser (44_block_mixer.md R250) -/

/-- `Diffuse(S)`: every read is of the state before the stage. -/
def diffuse (S : Words) : Words :=
  Vector.ofFn fun i => S.get i ^^^ rotl32 (S.get (i + 1)) (rotAmount (S.get i))

/-! ## The digest (40_commands.md R133, 45_compressor.md R281) -/

/-- `MixBlock(S, blk)`, for a setting of `MIX_CONV`. -/
def mixBlock (conv : MixConv) (S : Words) (blk : Block) : Words :=
  let S := absorb S blk
  let S := nlMix conv S (paramA blk) (paramB blk) (paramC blk)
  let S := permute S (permGen (ctrSeed blk)).1
  diffuse S

/-- Block `k` of the padded message. -/
def messageBlock (M : List Byte) (k : Nat) : Block := padBlock (fun n => M.getD n 0) M.length (64 * k)

/-- The state after the first `k` blocks of the padded message. -/
def stateAfter (conv : MixConv) (M : List Byte) : Nat → Words
  | 0 => initialState (seedFold M)
  | k + 1 => mixBlock conv (stateAfter conv M k) (messageBlock M k)

/-- `CosHashWords(M)`: the state after all `floor(L/64) + 1` blocks. -/
def cosHashWords (conv : MixConv) (M : List Byte) : Words := stateAfter conv M (M.length / 64 + 1)

/-- `Serialize`: each word's four bytes, the most significant first (45_compressor.md R281). -/
def serialize (D : Words) : List Byte :=
  D.toList.flatMap fun w => [laneByte w 0, laneByte w 1, laneByte w 2, laneByte w 3]

end Sys2Proof.Machine
end

