-- ==== Sys2Proof/Machine/Stages.lean ====
section
/-! DEFINITION. The stage rows of the opcode table: one atomic engine step each (40_commands.md R130), with the
successor of R131. -/

namespace Sys2Proof.Machine

/-- The message of the current run, `MSG_BUF[0 .. LEN_L-1]` (40_commands.md R133). -/
def State.message (s : State) : List Byte := (List.range s.lenL.toNat).map s.bufByte

/-- Every byte SEED reads exists (20_memory.md R64). -/
def State.seedReadable (s : State) : Bool := decide (s.lenL.toNat ≤ s.params.bufBytes)

/-- The end of the message bytes that LOAD reads: bytes `64*BLK .. end-1`, none if `LEN_L <= 64*BLK`. -/
def State.loadEnd (s : State) : Nat := min s.lenL.toNat (64 * s.blk.toNat + 64)

/-- Every byte LOAD reads exists (20_memory.md R64). -/
def State.loadReadable (s : State) : Bool :=
  decide (s.loadEnd ≤ s.params.bufBytes) || decide (s.loadEnd ≤ 64 * s.blk.toNat)

/-- `STAGE_IDLE`: the engine has no step; it waits for a command (R130). -/
def execStageIdle (s : State) : Outcome := .next s

/-- `STAGE_SEED` (42_seed.md R180). -/
def execStageSeed (s : State) : Outcome :=
  if s.seedReadable then .next { s with seed := seedFold s.message, stage := StageCode.init }
  else .fault (.bufferRange s.params.bufBytes)

/-- `STAGE_INIT` (43_state_init.md R200). -/
def execStageInit (s : State) : Outcome := .next { s with S := initialState s.seed, stage := StageCode.load }

/-- `STAGE_LOAD` (41_padder.md R162). -/
def execStageLoad (s : State) : Outcome :=
  if s.loadReadable then
    .next { s with
      blkr := padBlock s.bufByte s.lenL.toNat (64 * s.blk.toNat)
      stage := StageCode.params }
  else .fault (.bufferRange (max s.params.bufBytes (64 * s.blk.toNat)))

/-- `STAGE_PARAMS` (44_block_mixer.md R221). -/
def execStageParams (s : State) : Outcome :=
  .next { s with a := paramA s.blkr, b := paramB s.blkr, c := paramC s.blkr, stage := StageCode.absorb }

/-- `STAGE_ABSORB` (44_block_mixer.md R223). -/
def execStageAbsorb (s : State) : Outcome := .next { s with S := absorb s.S s.blkr, stage := StageCode.nlmix }

/-- `STAGE_NLMIX` (44_block_mixer.md R230). -/
def execStageNlmix (s : State) : Outcome :=
  .next { s with S := nlMix s.params.mixConv s.S s.a s.b s.c, stage := StageCode.permgen }

/-- `STAGE_PERMGEN` (44_block_mixer.md R240): `CTR` is left at its last value. -/
def execStagePermgen (s : State) : Outcome :=
  .next { s with
    perm := (permGen (ctrSeed s.blkr)).1
    ctr := (permGen (ctrSeed s.blkr)).2
    stage := StageCode.permute }

/-- `STAGE_PERMUTE` (44_block_mixer.md R243): `SNAP` takes the state before the stage. -/
def execStagePermute (s : State) : Outcome :=
  .next { s with snap := s.S, S := permute s.S s.perm, stage := StageCode.diffuse }

/-- `STAGE_DIFFUSE` with the end of the block (44_block_mixer.md R250, R251). -/
def execStageDiffuse (s : State) : Outcome :=
  .next { s with
    snap := s.S
    S := diffuse s.S
    blk := s.blk + 1
    blkcnt := s.blk + 1
    stage := if s.blk + 1 < s.nb then StageCode.load else StageCode.compress }

/-- `STAGE_COMPRESS` (45_compressor.md R280): the run ends, so the datapath becomes unspecified (10_state.md R30). -/
def execStageCompress (s : State) : Outcome :=
  .next { s.forgetDatapath with digest := s.S, done := true, stage := StageCode.idle }

/-- `STAGE_RESERVED`: a state the hardware cannot reach; the model faults (30_encoding.md R101). -/
def execStageReserved (code : BitVec 4) (_s : State) : Outcome := .fault (.reservedStage code)

end Sys2Proof.Machine
end

