-- ==== Sys2Proof/Machine/Dispatch.lean ====
section
/-! DEFINITION. One arm per row of spec/opcode_table.json. -/

namespace Sys2Proof.Machine

-- The instruction's meaning in a state.
def exec (i : Instr) (s : State) : Host.Outcome State Fault Refusal :=
  match i with
  -- the command rows
  | .cmdNop => Sys2Proof.Machine.execCmdNop s
  | .cmdStart => Sys2Proof.Machine.execCmdStart s
  | .cmdAbort => Sys2Proof.Machine.execCmdAbort s
  | .cmdSoftReset => Sys2Proof.Machine.execCmdSoftReset s
  | .cmdIllegal word => Sys2Proof.Machine.execCmdIllegal word s
  -- the transaction rows
  | .rd t => Sys2Proof.Machine.execRd t s
  | .wrCtrl data => Sys2Proof.Machine.execWrCtrl data s
  | .wrCmd data => Sys2Proof.Machine.execWrCmd data s
  | .wrStatus data => Sys2Proof.Machine.execWrStatus data s
  | .wrMsgLen data => Sys2Proof.Machine.execWrMsgLen data s
  | .wrBuf w data => Sys2Proof.Machine.execWrBuf w data s
  | .wrIgnored t data => Sys2Proof.Machine.execWrIgnored t data s
  -- the stage rows
  | .stageIdle => Sys2Proof.Machine.execStageIdle s
  | .stageSeed => Sys2Proof.Machine.execStageSeed s
  | .stageInit => Sys2Proof.Machine.execStageInit s
  | .stageLoad => Sys2Proof.Machine.execStageLoad s
  | .stageParams => Sys2Proof.Machine.execStageParams s
  | .stageAbsorb => Sys2Proof.Machine.execStageAbsorb s
  | .stageNlmix => Sys2Proof.Machine.execStageNlmix s
  | .stagePermgen => Sys2Proof.Machine.execStagePermgen s
  | .stagePermute => Sys2Proof.Machine.execStagePermute s
  | .stageDiffuse => Sys2Proof.Machine.execStageDiffuse s
  | .stageCompress => Sys2Proof.Machine.execStageCompress s
  | .stageReserved code => Sys2Proof.Machine.execStageReserved code s

end Sys2Proof.Machine
end

