-- ==== Sys2Proof/Machine/Fetch.lean ====
section
/-! DEFINITION. Whose turn it is, what the machine takes up at a step, and the reset input (20_memory.md R72,
40_commands.md R130, 70_reset_and_hazards.md R340). The interleaving is data: the list `turns`. -/

namespace Sys2Proof.Machine

/-- Who moves at the next step. Where no turn is scheduled the engine moves if it has a step, otherwise the host: it
keeps the fairness of 40_commands.md R135. DESIGN CHOICE, log entry 2. -/
def State.nextTurn (s : State) : Turn :=
  match s.turns with
  | t :: _ => t
  | [] => if s.busy then .engine else .host

/-- The state with the turn taken. -/
def State.afterTurn (s : State) : State := { s with turns := s.turns.tail }

/-- The transaction record of a host operation (30_encoding.md R90, R104). -/
def hostCodeWord : HostOp → CodeWord
  | .rd off => .rd off
  | .wr off data => .wr off data
  | .cmd word => .cmd word
  | .poll off _ _ => .rd off

/-- A POLL ends with the read that satisfies it (30_encoding.md R104). -/
def State.pollSatisfied (s : State) (off : Offset) (mask value : Word) : Bool :=
  decide (s.readTarget (decodeOff s.params off) &&& mask = value)

/-- The host's operations after its next transaction. -/
def State.hostAfter (s : State) : List HostOp :=
  match s.host with
  | [] => []
  | .poll off mask value :: rest => if s.pollSatisfied off mask value then rest else s.host
  | _ :: rest => rest

/-- What the machine takes up at its next step: the host's next record, or the sequencer's stage code. While reset is
asserted it takes up nothing (70_reset_and_hazards.md R340). -/
def State.fetch (s : State) : Option CodeWord :=
  if s.rstAsserted then none
  else
    match s.nextTurn with
    | .host => s.host.head?.map hostCodeWord
    | .engine => some (.stage s.stage)
    | .assertReset => none
    | .releaseReset => none

/-- The state in which the fetched instruction runs: the turn is taken, and the host's record if it was the host's. -/
def State.advance (s : State) : State :=
  match s.nextTurn with
  | .host => if s.rstAsserted then s.afterTurn else { s.afterTurn with host := s.hostAfter }
  | .engine => s.afterTurn
  | .assertReset => s.afterTurn
  | .releaseReset => s.afterTurn

/-- The reset input is asserted. -/
def State.assertReset (s : State) : State := { s with rstAsserted := true }

/-- The reset input is released: the hard reset takes effect (70_reset_and_hazards.md R340). Releasing an input that is
not asserted changes nothing. -/
def State.releaseReset (s : State) : State :=
  if s.rstAsserted then { s.hardReset with rstAsserted := false } else s

/-- `s` with a code word placed where the next step takes it up: the host's next operation, or the sequencer. -/
def State.placeCodeWord (s : State) (w : CodeWord) : State :=
  match w with
  | .rd off => { s with host := .rd off :: s.host, turns := .host :: s.turns, rstAsserted := false }
  | .wr off data => { s with host := .wr off data :: s.host, turns := .host :: s.turns, rstAsserted := false }
  | .cmd word => { s with host := .cmd word :: s.host, turns := .host :: s.turns, rstAsserted := false }
  | .stage code => { s with stage := code, turns := .engine :: s.turns, rstAsserted := false }

end Sys2Proof.Machine
end

