-- ==== Sys2Proof/Machine/Step.lean ====
section
/-! DEFINITION. One step of the machine: the agent whose turn it is performs its next transaction or stage
(20_memory.md R72), or the reset input changes (70_reset_and_hazards.md R340). -/

namespace Sys2Proof.Machine

/-- An agent's step: the decoded instruction, run in the state in which its turn is taken. With nothing to take up, the
turn passes. -/
def agentStep (s : State) : Host.Outcome State Fault Refusal :=
  match s.fetch with
  | some w => exec (decode s.params w) s.advance
  | none => .next s.advance

/-- One step. -/
def step (s : State) : Host.Outcome State Fault Refusal :=
  match s.nextTurn with
  | .assertReset => .next s.afterTurn.assertReset
  | .releaseReset => .next s.afterTurn.releaseReset
  | .host => agentStep s
  | .engine => agentStep s

/-- `s` with the instruction whose bits are `w` placed where `step` takes up its next instruction (log entry 20).
Where the bits are no record, `s` is unchanged. -/
def State.withFetchWord (s : State) (nbits w : Nat) : State :=
  match tableCodeWord nbits w with
  | some c => s.placeCodeWord c
  | none => s

end Sys2Proof.Machine
end

