-- ==== Sys2Proof/Machine/HostProgram.lean ====
section
/-! DEFINITION. What the lines of the host-program notation expand to (30_encoding.md R104), and the sequence that
computes a digest (70_reset_and_hazards.md R343). -/

namespace Sys2Proof.Machine

/-- `LOAD_MSG`: one write per four bytes from `off` on; the last word is filled with zero bytes (R104). -/
def loadWords (off : Offset) : List Byte → List HostOp
  | [] => []
  | [b0] => [.wr off (be32 b0 0 0 0)]
  | [b0, b1] => [.wr off (be32 b0 b1 0 0)]
  | [b0, b1, b2] => [.wr off (be32 b0 b1 b2 0)]
  | b0 :: b1 :: b2 :: b3 :: rest => .wr off (be32 b0 b1 b2 b3) :: loadWords (off + 4) rest

/-- The operations a line stands for (R104). -/
def expandLine : HostLine → List HostOp
  | .wr off data => [.wr off data]
  | .rd off => [.rd off]
  | .poll off mask value => [.poll off mask value]
  | .cmdNop => [.wr 0x010 0x00000000]
  | .cmdStart => [.wr 0x010 0x00000001]
  | .cmdAbort => [.wr 0x010 0x00000002]
  | .cmdSoftReset => [.wr 0x010 0x00000003]
  | .clearDone => [.wr 0x014 0x00000002]
  | .clearErr => [.wr 0x014 0x00000004]
  | .waitIdle => [.poll 0x014 0x00000001 0x00000000]
  | .setLen n => [.wr 0x018 n]
  | .loadMsg bytes => loadWords 0x1000 bytes
  | .readDigest => (List.range 16).map fun k => .rd (BitVec.ofNat 16 (0x040 + 4 * k))

/-- A host program as the operations of the host agent. -/
def expandProgram (lines : List HostLine) : List HostOp := lines.flatMap expandLine

/-- A line that a host may leave out. -/
def optionalLine (taken : Bool) (line : HostLine) : List HostLine := if taken then [line] else []

/-- The use sequence of 70_reset_and_hazards.md R343, with its optional steps 2 (CLEAR_ERR) and 5 taken or not. -/
def digestProgram (M : List Byte) (clearErr irq : Bool) : List HostLine :=
  List.flatten [
    [HostLine.waitIdle, HostLine.clearDone],
    optionalLine clearErr HostLine.clearErr,
    [HostLine.loadMsg M, HostLine.setLen (BitVec.ofNat 32 M.length)],
    optionalLine irq (HostLine.wr 0x00C 1),
    [HostLine.cmdStart, HostLine.waitIdle, HostLine.rd 0x014, HostLine.readDigest, HostLine.clearDone]]

end Sys2Proof.Machine
end

