-- ==== Sys2Proof/Safety.lean ====
section
/-! DEFINITION. What a safe run is, in the terms the statements use: the invariant of the reachable states, what a run
has computed at each stage, and the reset values. -/

namespace Sys2Proof.Machine

/-- Where the block index of a run stands at each stage (10_state.md R26, 44_block_mixer.md R251). -/
def State.blockInRange (s : State) : Prop :=
  if s.stage = StageCode.seed ∨ s.stage = StageCode.init then s.blk = 0
  else if s.stage = StageCode.compress then s.blk = s.nb
  else s.blk.toNat < s.nb.toNat

/-- The invariant of the reachable states. -/
structure State.Inv (s : State) : Prop where
  /-- The buffer keeps its canonical form, inside its `MSG_BUF_BYTES` bytes (20_memory.md R60). -/
  bufCanonical : Memory.wf s.params.bufBytes s.msgBuf = true
  /-- `stage` never holds a reserved code (30_encoding.md R101). -/
  stageLegal : s.stage.toNat ≤ 0xA
  /-- A recorded error has a code, and no code stands without one (60_exceptions.md R305, R306). -/
  errCoded : s.err = true ↔ s.errCode ≠ .none
  /-- `DONE = 0` throughout a run (90_conflicts.md C9). -/
  runNotDone : s.busy = true → s.done = false
  /-- A run's length is the latched `MSG_LEN` and fits the buffer (20_memory.md R64, R73). -/
  runLength : s.busy = true → s.lenL = s.msgLen ∧ s.lenL.toNat ≤ s.params.bufBytes
  /-- `NB` is the number of blocks of the padded message (10_state.md R26). -/
  runBlocks : s.busy = true → s.nb.toNat = s.lenL.toNat / 64 + 1
  /-- `BLKCNT` equals `BLK` during a run (10_state.md R41). -/
  runCount : s.busy = true → s.blkcnt = s.blk
  /-- The block index is in range (10_state.md R26). -/
  runIndex : s.busy = true → s.blockInRange
  /-- `PERM` is a bijection when PERMUTE reads it (44_block_mixer.md R242). -/
  permBijective : s.stage = StageCode.permute → Function.Injective fun i => s.perm.get i

/-- The state words a run holds between blocks: `CosHashWords` of its message after `BLK` blocks. -/
def State.wordsAtBlock (s : State) : Words := stateAfter s.params.mixConv s.message s.blk.toNat

/-- The block a run is mixing. -/
def State.currentBlock (s : State) : Block := messageBlock s.message s.blk.toNat

/-- What a run has computed when it is about to perform `stage` (40_commands.md R133): each stage's inputs are the
values the algorithm gives them for the run's message. It says nothing while the engine is idle or about to perform
SEED, so an accepted START makes it true. -/
structure State.OnTrack (s : State) : Prop where
  seedIs : 2 ≤ s.stage.toNat → s.seed = seedFold s.message
  atLoad : s.stage = StageCode.load → s.S = s.wordsAtBlock
  blockIs : 4 ≤ s.stage.toNat → s.stage.toNat ≤ 9 → s.blkr = s.currentBlock
  atParams : s.stage = StageCode.params → s.S = s.wordsAtBlock
  paramsAre : s.stage = StageCode.absorb ∨ s.stage = StageCode.nlmix →
    s.a = paramA s.currentBlock ∧ s.b = paramB s.currentBlock ∧ s.c = paramC s.currentBlock
  atAbsorb : s.stage = StageCode.absorb → s.S = s.wordsAtBlock
  atNlmix : s.stage = StageCode.nlmix → s.S = absorb s.wordsAtBlock s.currentBlock
  mixedIs : s.stage = StageCode.permgen ∨ s.stage = StageCode.permute →
    s.S = nlMix s.params.mixConv (absorb s.wordsAtBlock s.currentBlock) (paramA s.currentBlock) (paramB s.currentBlock)
      (paramC s.currentBlock)
  permIs : s.stage = StageCode.permute → s.perm = (permGen (ctrSeed s.currentBlock)).1
  permutedIs : s.stage = StageCode.diffuse →
    s.S = permute (nlMix s.params.mixConv (absorb s.wordsAtBlock s.currentBlock) (paramA s.currentBlock) (paramB s.currentBlock)
      (paramC s.currentBlock)) (permGen (ctrSeed s.currentBlock)).1
  atCompress : s.stage = StageCode.compress → s.S = s.wordsAtBlock

/-- Every host-visible register at its reset value, `stage = IDLE`, `irq = 0` (10_state.md R45). -/
def State.HostVisibleAtReset (s : State) : Prop :=
  s.readTarget .id = 0x43485348#32 ∧ s.readTarget .version = 0x00070001#32 ∧
  s.readTarget .cfg = BitVec.ofNat 32 s.params.bufBytes ∧
  s.readTarget .ctrl = 0#32 ∧ s.readTarget .status = 0#32 ∧ s.readTarget .msgLen = 0#32 ∧
  s.readTarget .seed = 0#32 ∧ s.readTarget .blkcnt = 0#32 ∧ (∀ k : Fin 16, s.readTarget (.digest k) = 0#32) ∧
  s.stage = StageCode.idle ∧ s.busy = false ∧ s.done = false ∧ s.err = false ∧ s.errCode = .none ∧
  s.irqEn = false ∧ s.irq = false

/-- Only the engine has turns left, and reset is not asserted: the run is left alone. -/
def State.EngineOnly (s : State) : Prop := s.rstAsserted = false ∧ ∀ t ∈ s.turns, t = Turn.engine

end Sys2Proof.Machine
end

