-- ==== Sys2Proof/Certificates/Slice0/Obligations.lean ====
section
/-! DEFINITION. The statements for the provers. Each docstring names the rule of spec/ it states. -/

open Sys2Proof Sys2Proof.Machine

/-! ## Decoding and encoding -/

/-- Command words, offsets and stage codes written out from 30_encoding.md R94, R95, R100, R101 and 10_state.md R31
decode to the instructions they stand for, on this hardware. -/
def Obligations.DecodeOfWrittenOutWords : Prop :=
  let dec := decode Config.thisHardware
  dec (.cmd 0x00000000) = .cmdNop ∧ dec (.cmd 0x00000001) = .cmdStart ∧ dec (.cmd 0x00000002) = .cmdAbort ∧
  dec (.cmd 0x00000003) = .cmdSoftReset ∧ dec (.cmd 0x00000004) = .cmdIllegal 0x00000004 ∧
  dec (.cmd 0x00000011) = .cmdIllegal 0x00000011 ∧
  dec (.rd 0x0000) = .rd .id ∧ dec (.rd 0x0014) = .rd .status ∧ dec (.rd 0x007C) = .rd (.digest 15) ∧
  dec (.rd 0x1004) = .rd (.buf 1) ∧ dec (.rd 0x2000) = .rd (.beyond 1024) ∧
  dec (.wr 0x000C 5) = .wrCtrl 5 ∧ dec (.wr 0x0010 5) = .wrCmd 5 ∧ dec (.wr 0x0014 5) = .wrStatus 5 ∧
  dec (.wr 0x0018 5) = .wrMsgLen 5 ∧ dec (.wr 0x1FFC 5) = .wrBuf 1023 5 ∧
  dec (.wr 0x0024 5) = .wrIgnored (.reserved 9) 5 ∧
  dec (.stage 0x0) = .stageIdle ∧ dec (.stage 0x1) = .stageSeed ∧ dec (.stage 0x6) = .stageNlmix ∧
  dec (.stage 0xA) = .stageCompress ∧ dec (.stage 0xB) = .stageReserved 0xB

/-- Decoding the encoding of a well-formed instruction gives the instruction back, with every operand, for every capacity of
the buffer. -/
def Obligations.DecodeOfEncodeIsTheInstruction : Prop :=
  ∀ (P : Params) (i : Instr), i.wf P = true → decode P (encode i) = i

/-- The same through the bytes of a record (log entry 3: the byte layout is the model's choice). -/
def Obligations.BytesOfEncodeDecodeToTheInstruction : Prop :=
  ∀ (P : Params) (i : Instr), i.wf P = true → decodeBytes P (encodeBytes i) = .ok i

/-- Every code word decodes to a well-formed instruction, and encoding that gives the code word back with the two
ignored offset bits cleared (30_encoding.md R91, 20_memory.md R69). -/
def Obligations.EncodeOfDecodeIsCanonical : Prop :=
  ∀ (P : Params) (w : CodeWord), (decode P w).wf P = true ∧ encode (decode P w) = w.canonical

/-- The whole offset map, by the number of the aligned offset (30_encoding.md R91, with the table of 10_state.md R31
and the map of 20_memory.md R70), for every capacity of the buffer. -/
def Obligations.OffsetDecodeFollowsTheMap : Prop :=
  ∀ (P : Params) (off : Offset),
    let o := off.toNat / 4 * 4
    (o = 0x000 → decodeOff P off = .id) ∧ (o = 0x004 → decodeOff P off = .version) ∧
    (o = 0x008 → decodeOff P off = .cfg) ∧ (o = 0x00C → decodeOff P off = .ctrl) ∧
    (o = 0x010 → decodeOff P off = .cmd) ∧ (o = 0x014 → decodeOff P off = .status) ∧
    (o = 0x018 → decodeOff P off = .msgLen) ∧ (o = 0x01C → decodeOff P off = .seed) ∧
    (o = 0x020 → decodeOff P off = .blkcnt) ∧
    (∀ k : Fin 16, o = 0x040 + 4 * k.val → decodeOff P off = .digest k) ∧
    ((0x024 ≤ o ∧ o ≤ 0x03C) ∨ (0x080 ≤ o ∧ o ≤ 0xFFC) → decodeOff P off = .reserved (BitVec.ofNat 10 (o / 4))) ∧
    (0x1000 ≤ o ∧ o < 0x1000 + P.bufBytes → decodeOff P off = .buf (BitVec.ofNat 14 ((o - 0x1000) / 4))) ∧
    (0x1000 + P.bufBytes ≤ o → decodeOff P off = .beyond (BitVec.ofNat 14 ((o - 0x1000) / 4)))

/-- The two low offset bits are ignored, and no access traps: every read and every write goes on (20_memory.md R69,
60_exceptions.md R308). -/
def Obligations.EveryAccessIsAnAlignedWordAndGoesOn : Prop :=
  ∀ (P : Params) (off : Offset) (data : Word) (s : State),
    decode P (.rd off) = decode P (.rd (off &&& 0xFFFC#16)) ∧
    decode P (.wr off data) = decode P (.wr (off &&& 0xFFFC#16) data) ∧
    (∃ t, exec (decode P (.rd off)) s = .next t) ∧ (∃ t, exec (decode P (.wr off data)) s = .next t)

/-- The illegal command words (30_encoding.md R95): a nonzero `RSVD`, or an `OPCODE` of 4 or more. Writing one to `CMD`
records CMD if no error stands, and has no other effect. -/
def Obligations.IllegalCommandWordsRaiseCmd : Prop :=
  ∀ (P : Params) (w : Word),
    (decode P (.cmd w) = .cmdIllegal w ↔ w.extractLsb' 4 28 ≠ 0#28 ∨ 4 ≤ (w.extractLsb' 0 4).toNat) ∧
    ((w.extractLsb' 4 28 ≠ 0#28 ∨ 4 ≤ (w.extractLsb' 0 4).toNat) → ∀ s : State,
      exec (.wrCmd w) s = .next (if s.err then s else { s with err := true, errCode := .cmd }))

/-! ## The step -/

/-- A step runs the decoded instruction: the host's next record on the host's turn, the sequencer's code on the
engine's turn; where no turn is scheduled, the engine if it is busy and otherwise the host (log entry 2). -/
def Obligations.StepRunsTheDecodedInstruction : Prop :=
  (∀ (s : State) (ts : List Turn) (op : HostOp) (ops : List HostOp),
    s.rstAsserted = false → s.turns = .host :: ts → s.host = op :: ops → (∀ o m v, op ≠ .poll o m v) →
      step s = exec (decode s.params (hostCodeWord op)) { s with turns := ts, host := ops }) ∧
  (∀ (s : State) (ts : List Turn), s.rstAsserted = false → s.turns = .engine :: ts →
      step s = exec (decode s.params (.stage s.stage)) { s with turns := ts }) ∧
  (∀ s : State, s.rstAsserted = false → s.turns = [] → s.busy = true →
      step s = exec (decode s.params (.stage s.stage)) s) ∧
  (∀ (s : State) (op : HostOp) (ops : List HostOp),
    s.rstAsserted = false → s.turns = [] → s.busy = false → s.host = op :: ops → (∀ o m v, op ≠ .poll o m v) →
      step s = exec (decode s.params (hostCodeWord op)) { s with host := ops }) ∧
  (∀ (s : State) (ts : List Turn), s.rstAsserted = false → s.turns = .host :: ts → s.host = [] →
      step s = .next { s with turns := ts })

/-- A POLL reads once a turn and stays the host's next operation until the read satisfies it (30_encoding.md R104; that
it is one operation is log entry 19), on a turn scheduled for the host and, while the engine is idle, where no turn is
scheduled (log entry 2). -/
def Obligations.PollReadsUntilSatisfied : Prop :=
  ∀ (s : State) (off : Offset) (mask value : Word) (ops : List HostOp),
    s.rstAsserted = false → s.host = .poll off mask value :: ops →
    (s.turns.head? = some .host ∨ (s.turns = [] ∧ s.busy = false)) →
      step s = exec (.rd (decodeOff s.params off)) { s with
        turns := s.turns.tail
        host := if s.readTarget (decodeOff s.params off) &&& mask = value then ops else s.host }

/-- A write to `CMD` is the command of the word written: it goes on, to the state the command row gives
(40_commands.md R125). -/
def Obligations.WriteToCmdIsTheCommand : Prop :=
  ∀ (w : Word) (s : State), ∃ t : State, exec (.wrCmd w) s = .next t ∧ exec (decode s.params (.cmd w)) s = .next t ∧
    ∀ off : Offset, off.toNat / 4 * 4 = 0x010 → exec (decode s.params (.wr off w)) s = .next t

/-! ## Reset -/

/-- Reset values (10_state.md R45): right after a hard reset (`State.resetAt`, for every setting of the parameters, where
no byte of the buffer has been written), with this hardware's `CFG` among them, and after SOFT_RESET in any state, which
leaves the parameters, the buffer and the agents' inputs as they are. -/
def Obligations.ResetAndSoftResetValues : Prop :=
  (∀ P : Params, (State.resetAt P).HostVisibleAtReset ∧ (State.resetAt P).params = P ∧
    ∀ n, (State.resetAt P).bufByte n = Config.powerOnByte 0 n) ∧
  (∃ P : Params, State.reset = State.resetAt P ∧ P.bufBytes = 4096 ∧ P.mixConv = .wrap) ∧
  State.reset.readTarget .cfg = 0x00001000#32 ∧
  ∀ s : State, ∃ t : State, exec .cmdSoftReset s = .next t ∧ t.HostVisibleAtReset ∧ t.params = s.params ∧
    t.msgBuf = s.msgBuf ∧ (∀ n, t.bufByte n = s.bufByte n) ∧
    t.host = s.host ∧ t.turns = s.turns ∧ t.responses = s.responses ∧ t.rstAsserted = s.rstAsserted

/-- The reset input (70_reset_and_hazards.md R340): while it is asserted no agent's turn does anything; its release
gives every host-visible register its reset value and leaves every byte of the buffer unspecified (a fresh draw). That
the input is moved by turns, and that asserting it keeps the registers until the release, is the model's choice (log
entry 8). -/
def Obligations.HardResetHoldsAndReleases : Prop :=
  (∀ s : State, s.rstAsserted = true → s.nextTurn = .host ∨ s.nextTurn = .engine →
    step s = .next { s with turns := s.turns.tail }) ∧
  (∀ (s : State) (ts : List Turn), s.turns = .assertReset :: ts →
    step s = .next { s with turns := ts, rstAsserted := true }) ∧
  (∀ (s : State) (ts : List Turn), s.rstAsserted = true → s.turns = .releaseReset :: ts →
    ∃ t : State, step s = .next t ∧ t.HostVisibleAtReset ∧ t.rstAsserted = false ∧ t.params = s.params ∧
      (∀ n, t.bufByte n = Config.powerOnByte (s.draws + 1) n) ∧ t.msgBuf = [] ∧
      t.host = s.host ∧ t.turns = ts ∧ t.responses = s.responses)

/-- The state after reset meets the invariant, for every setting of the parameters. That no host operation and no turn is
pending there is the model's choice (log entries 1 and 2). -/
def Obligations.ResetMeetsTheInvariant : Prop :=
  (∀ P : Params, (State.resetAt P).Inv ∧ (State.resetAt P).OnTrack) ∧ State.reset.Inv ∧ State.reset.OnTrack ∧
  State.reset.host = [] ∧ State.reset.turns = []

/-! ## Register access -/

/-- What each read returns, in every state, changing nothing of the engine (40_commands.md R120). -/
def Obligations.ReadReturnsTheRegister : Prop :=
  ∀ s : State,
    let reads := fun (t : Target) (v : Word) => exec (.rd t) s = .next { s with responses := v :: s.responses }
    reads .id 0x43485348 ∧ reads .version 0x00070001 ∧ reads .cfg (BitVec.ofNat 32 s.params.bufBytes) ∧
    reads .ctrl (if s.irqEn then 1 else 0) ∧ reads .cmd 0 ∧
    reads .status (BitVec.ofNat 32 (256 * s.errCode.code.toNat + 16 * s.stage.toNat + (if s.err then 4 else 0) +
      (if s.done then 2 else 0) + (if s.stage = 0x0 then 0 else 1))) ∧
    reads .msgLen s.msgLen ∧ reads .seed s.seed ∧ reads .blkcnt s.blkcnt ∧
    (∀ k : Fin 16, reads (.digest k) (s.digest.get k)) ∧
    (∀ n, reads (.reserved n) 0) ∧ (∀ w, reads (.beyond w) 0) ∧
    (∀ w, s.params.bufBytes / 4 ≤ w.toNat → reads (.buf w) 0) ∧
    (∀ w, w.toNat < s.params.bufBytes / 4 → reads (.buf w) (be32 (s.bufByte (4 * w.toNat)) (s.bufByte (4 * w.toNat + 1))
      (s.bufByte (4 * w.toNat + 2)) (s.bufByte (4 * w.toNat + 3))))

/-- The lanes of a buffer word, in a read at any offset of the window backed by the buffer: byte `4w + m` is bits
`[31-8m : 24-8m]` (20_memory.md R65 with the lane order of R63). -/
def Obligations.BufferReadHasBigEndianLanes : Prop :=
  ∀ (s : State) (off : Offset), 0x1000 ≤ off.toNat → off.toNat < 0x1000 + s.params.bufBytes →
    ∃ v : Word, exec (decode s.params (.rd off)) s = .next { s with responses := v :: s.responses } ∧
      ∀ m : Fin 4, v.extractLsb' (24 - 8 * m.val) 8 = s.bufByte ((off.toNat - 0x1000) / 4 * 4 + m.val)

/-- Write to `CTRL` (40_commands.md R122): bit 0 is stored in every state, nothing else changes, and the register reads
back as that bit. -/
def Obligations.WriteCtrlStoresTheEnable : Prop :=
  ∀ (data : Word) (s : State), ∃ t : State, exec (.wrCtrl data) s = .next t ∧
    t = { s with irqEn := data.getLsbD 0 } ∧ t.readTarget .ctrl = data &&& 1#32 ∧
    t.irq = (data.getLsbD 0 && (s.done || s.err))

/-- Write to `MSG_LEN` (40_commands.md R123): while idle all 32 bits are stored, any value, and read back unchanged; while
busy the write is refused. -/
def Obligations.WriteMsgLenStoresOrIsRefused : Prop :=
  ∀ (data : Word) (s : State),
    (s.busy = false → ∃ t : State, exec (.wrMsgLen data) s = .next t ∧ t = { s with msgLen := data } ∧
      t.readTarget .msgLen = data) ∧
    (s.busy = true → exec (.wrMsgLen data) s =
      .next (if s.err then s else { s with err := true, errCode := .busy }))

/-- Write to `STATUS` (40_commands.md R124): bit 1 clears `DONE`, bit 2 clears `ERR` and `ERR_CODE`; every other bit is
ignored and nothing else changes. -/
def Obligations.WriteStatusClears : Prop :=
  ∀ (data : Word) (s : State), exec (.wrStatus data) s = .next { s with
    done := s.done && !data.getLsbD 1
    err := s.err && !data.getLsbD 2
    errCode := if data.getLsbD 2 then .none else s.errCode }

/-- Write to a backed buffer word (20_memory.md R66): all four bytes in big-endian lanes and no other byte while idle,
`Error(BUSY)` with the buffer unchanged during a run; nothing else changes, and the canonical form is kept. -/
def Obligations.WriteBufferStoresFourBytes : Prop :=
  ∀ (w : BitVec 14) (data : Word) (s : State), w.toNat < s.params.bufBytes / 4 →
    (s.busy = false → ∃ t : State, exec (.wrBuf w data) s = .next t ∧
      (∀ m : Fin 4, t.bufByte (bufWordAddr w + m.val) = data.extractLsb' (24 - 8 * m.val) 8) ∧
      (∀ n, n < bufWordAddr w ∨ bufWordAddr w + 4 ≤ n → t.bufByte n = s.bufByte n) ∧
      bufWordAddr w = 4 * w.toNat ∧
      (Memory.wf s.params.bufBytes s.msgBuf = true → Memory.wf s.params.bufBytes t.msgBuf = true) ∧
      t = { s with msgBuf := t.msgBuf }) ∧
    (s.busy = true → exec (.wrBuf w data) s =
      .next (if s.err then s else { s with err := true, errCode := .busy }))

/-- What has no effect: NOP in every state (40_commands.md R126), ABORT while idle (R128), writes to read-only and
reserved offsets and to the window beyond the buffer (10_state.md R43, 20_memory.md R67), the engine's turn while idle
(R130; that such a turn passes is log entry 14). -/
def Obligations.InstructionsWithoutEffect : Prop :=
  ∀ s : State, exec .cmdNop s = .next s ∧ exec (.wrCmd 0x00000000) s = .next s ∧
    (s.busy = false → exec .cmdAbort s = .next s) ∧
    (∀ t data, exec (.wrIgnored t data) s = .next s) ∧
    (∀ (off : Offset) (data : Word), (decodeOff s.params off).writeIgnored = true →
      exec (decode s.params (.wr off data)) s = .next s) ∧
    (∀ (w : BitVec 14) (data : Word), s.params.bufBytes / 4 ≤ w.toNat → exec (.wrBuf w data) s = .next s) ∧
    exec .stageIdle s = .next s

/-- A write of the same value twice to `CTRL`, `MSG_LEN` or the buffer leaves what one write leaves (20_memory.md R71),
in every state and for every word of the window. -/
def Obligations.RepeatedWritesAreIdempotent : Prop :=
  ∀ (s t : State) (data : Word) (w : BitVec 14), Memory.wf s.params.bufBytes s.msgBuf = true →
    (exec (.wrCtrl data) s = .next t → exec (.wrCtrl data) t = .next t) ∧
    (exec (.wrMsgLen data) s = .next t → exec (.wrMsgLen data) t = .next t) ∧
    (exec (.wrBuf w data) s = .next t → exec (.wrBuf w data) t = .next t)

/-! ## Errors and commands -/

/-- An illegal command word records CMD in every state (60_exceptions.md R303); the first error is kept and nothing else
changes (R305, R307). -/
def Obligations.IllegalCommandRecordsTheFirstError : Prop :=
  ∀ (w : Word) (s : State),
    (s.err = false → exec (.cmdIllegal w) s = .next { s with err := true, errCode := .cmd }) ∧
    (s.err = true → exec (.cmdIllegal w) s = .next s)

/-- Priority of the errors of one write to `CMD` (60_exceptions.md R304), and of the writes that can raise only BUSY. -/
def Obligations.ErrorPriorityOfOneTransaction : Prop :=
  ∀ (w : Word) (s : State), s.err = false → s.errCode = .none →
    (∃ t : State, exec (.wrCmd w) s = .next t ∧
      t.errCode = (if 4 ≤ w.toNat then .cmd
        else if w = 1 ∧ s.busy = true then .busy
        else if w = 1 ∧ s.params.bufBytes < s.msgLen.toNat then .len
        else .none) ∧ (t.err = true ↔ t.errCode ≠ .none)) ∧
    (∀ t : State, exec (.wrMsgLen w) s = .next t → t.errCode = if s.busy then .busy else .none) ∧
    (∀ (b : BitVec 14) (t : State), exec (.wrBuf b w) s = .next t →
      t.errCode = if s.busy = true ∧ b.toNat < s.params.bufBytes / 4 then .busy else .none)

/-- What raises `Error(BUSY)` during a run and what does not (60_exceptions.md R302): the refused writes leave the run and
every register but `ERR` and `ERR_CODE` unchanged. -/
def Obligations.BusyErrorsLeaveTheRunAlone : Prop :=
  ∀ s : State, s.busy = true → s.err = false → s.errCode = .none →
    (∀ i : Instr, (i = .cmdStart ∨ (∃ d, i = .wrMsgLen d) ∨ (∃ w d, i = .wrBuf w d ∧ w.toNat < s.params.bufBytes / 4)) →
      exec i s = .next { s with err := true, errCode := .busy }) ∧
    (∀ (i : Instr) (t : State), (i = .cmdNop ∨ i = .cmdAbort ∨ i = .cmdSoftReset ∨ (∃ d, i = .wrCtrl d) ∨
        (∃ d, i = .wrStatus d) ∨ (∃ u d, i = .wrIgnored u d) ∨ (∃ u, i = .rd u)) →
      exec i s = .next t → t.errCode = .none ∧ t.err = false)

/-- An accepted START (40_commands.md R127). -/
def Obligations.StartBeginsARun : Prop :=
  ∀ s : State, s.busy = false → s.msgLen.toNat ≤ s.params.bufBytes →
    ∃ t : State, exec .cmdStart s = .next t ∧ t.lenL = s.msgLen ∧ t.nb.toNat = s.msgLen.toNat / 64 + 1 ∧
      t.blk = 0 ∧ t.blkcnt = 0 ∧ t.done = false ∧ t.stage = StageCode.seed ∧ t.busy = true ∧
      t = { s with lenL := t.lenL, nb := t.nb, blk := t.blk, blkcnt := t.blkcnt, done := t.done, stage := t.stage }

/-- A START that is refused (60_exceptions.md R301 and the START clause of R302): nothing but `ERR` and `ERR_CODE`
changes, and those only if no error stands. -/
def Obligations.StartIsRefused : Prop :=
  ∀ s : State,
    (s.busy = true → exec .cmdStart s = .next (if s.err then s else { s with err := true, errCode := .busy })) ∧
    (s.busy = false → s.params.bufBytes < s.msgLen.toNat →
      exec .cmdStart s = .next (if s.err then s else { s with err := true, errCode := .len }))

/-- ABORT during a run (40_commands.md R128): the run stops; flags, digest, `SEED`, `BLKCNT`, `MSG_LEN` and the buffer keep
their values, `irq` with them; only the internal datapath becomes unspecified. -/
def Obligations.AbortStopsTheRun : Prop :=
  ∀ s : State, s.busy = true → ∃ t : State, exec .cmdAbort s = .next t ∧
    t.stage = StageCode.idle ∧ t.busy = false ∧ t.irq = s.irq ∧
    t = { s with
      S := t.S, blkr := t.blkr, a := t.a, b := t.b, c := t.c, perm := t.perm, ctr := t.ctr, lenL := t.lenL
      nb := t.nb, blk := t.blk, snap := t.snap, draws := t.draws, stage := StageCode.idle }

/-- What clears a recorded error (60_exceptions.md R306): `WR STATUS` with bit 2 and SOFT_RESET, no other instruction; and
a standing error does not block START. -/
def Obligations.OnlyTheHostClearsAnError : Prop :=
  (∀ (i : Instr) (s t : State), exec i s = .next t → s.err = true → t.err = false →
    (∃ d : Word, i = .wrStatus d ∧ d.getLsbD 2 = true) ∨ i = .cmdSoftReset ∨ i = .wrCmd 3) ∧
  (∀ (d : Word) (s t : State), d.getLsbD 2 = true → exec (.wrStatus d) s = .next t →
    t.err = false ∧ t.errCode = .none) ∧
  (∀ s : State, s.busy = false → s.msgLen.toNat ≤ s.params.bufBytes →
    ∃ t : State, exec .cmdStart s = .next t ∧ t.busy = true ∧ t.err = s.err ∧ t.errCode = s.errCode)

/-- The interrupt output (10_state.md R44) in every state, and after each event that moves it (60_exceptions.md R309): a
completion, each of the three errors, an accepted START, a clear of `DONE` or `ERR` or both, a write of the enable, the
resets; ABORT does not move it, and no other instruction does. -/
def Obligations.IrqFollowsDoneAndErr : Prop :=
  ∀ s : State,
    (s.irq = true ↔ s.irqEn = true ∧ (s.done = true ∨ s.err = true)) ∧
    (∀ t, exec .stageCompress s = .next t → t.irq = s.irqEn) ∧
    (∀ w t, exec (.cmdIllegal w) s = .next t → t.irq = s.irqEn) ∧
    (s.busy = true → ∀ (i : Instr) (t : State),
      (i = .cmdStart ∨ (∃ d, i = .wrMsgLen d) ∨ (∃ w d, i = .wrBuf w d ∧ w.toNat < s.params.bufBytes / 4)) →
      exec i s = .next t → t.irq = s.irqEn) ∧
    (s.busy = false → s.params.bufBytes < s.msgLen.toNat → ∀ t, exec .cmdStart s = .next t → t.irq = s.irqEn) ∧
    (s.busy = false → s.msgLen.toNat ≤ s.params.bufBytes → ∀ t, exec .cmdStart s = .next t →
      t.irq = (s.irqEn && s.err)) ∧
    (∀ d t, exec (.wrStatus d) s = .next t →
      t.irq = (s.irqEn && ((s.done && !d.getLsbD 1) || (s.err && !d.getLsbD 2)))) ∧
    (∀ d t, exec (.wrCtrl d) s = .next t →
      t.irq = (d.getLsbD 0 && (s.done || s.err)) ∧ t.done = s.done ∧ t.err = s.err) ∧
    (∀ t, exec .cmdAbort s = .next t → t.irq = s.irq) ∧
    (∀ t, exec .cmdSoftReset s = .next t → t.irq = false) ∧
    (∀ ts t, s.rstAsserted = true → s.turns = .releaseReset :: ts → step s = .next t → t.irq = false) ∧
    (∀ (i : Instr) (t : State), exec i s = .next t → t.irq ≠ s.irq →
      i = .stageCompress ∨ i = .cmdStart ∨ i = .cmdSoftReset ∨ (∃ w, i = .cmdIllegal w) ∨ (∃ d, i = .wrCmd d) ∨
      (∃ d, i = .wrMsgLen d) ∨ (∃ w d, i = .wrBuf w d) ∨ (∃ d, i = .wrStatus d) ∨ (∃ d, i = .wrCtrl d))

/-! ## The stages -/

/-- SEED (42_seed.md R180, R181): the left fold of the seed step over `MSG_BUF[0 .. LEN_L-1]`, from the length. -/
def Obligations.SeedFoldsTheMessage : Prop :=
  ∀ s : State, s.lenL.toNat ≤ s.params.bufBytes → ∃ t : State, exec .stageSeed s = .next t ∧
    t.seed = (List.range s.lenL.toNat).foldl (fun (x : Word) (n : Nat) =>
      x ^^^ ((s.bufByte n).setWidth 32 + 0x9e3779b9#32 + (x <<< 6) + (x >>> 2))) s.lenL ∧
    t.stage = StageCode.init ∧ t = { s with seed := t.seed, stage := t.stage }

/-- INIT (43_state_init.md R200, R201): each word is the three-round finalizer of `SEED` and its index. -/
def Obligations.InitExpandsTheSeed : Prop :=
  ∀ s : State, ∃ t : State, exec .stageInit s = .next t ∧
    (∀ i : Fin 16,
      let v0 := s.seed ^^^ (BitVec.ofNat 32 i.val * 0x85ebca6b#32)
      let v1 := (v0 ^^^ (v0 >>> 16)) * 0x85ebca6b#32
      let v2 := (v1 ^^^ (v1 >>> 13)) * 0xc2b2ae35#32
      t.S.get i = v2 ^^^ (v2 >>> 16)) ∧
    t.stage = StageCode.load ∧ t = { s with S := t.S, stage := t.stage }

/-- `InitialMix(seed, i)` is a bijection of the seed for each index (43_state_init.md R202). -/
def Obligations.InitialMixIsABijection : Prop :=
  ∀ i : Fin 16, Function.Bijective fun seed : Word => initialMix seed i

/-- LOAD (41_padder.md R162 with the byte function of R161): message bytes, the sentinel at `LEN_L`, zeros after it up
to the padded length `64 * (LEN_L / 64 + 1)`. LOAD goes on for every `BLK`; of a byte number at or above the padded
length, where R161 defines no byte and the model has a free value (log entry 26), and whether `64 * BLK + m` wraps (log
entry 22), nothing is said: no run has such a `BLK`. -/
def Obligations.LoadCopiesAPaddedBlock : Prop :=
  ∀ s : State, s.lenL.toNat ≤ s.params.bufBytes → ∃ t : State, exec .stageLoad s = .next t ∧
    (∀ m : Fin 64,
      let n := 64 * s.blk.toNat + m.val
      n < 64 * (s.lenL.toNat / 64 + 1) →
        t.blkr.get m = if n < s.lenL.toNat then s.bufByte n else if n = s.lenL.toNat then 0x80#8 else 0x00#8) ∧
    t.stage = StageCode.params ∧ t = { s with blkr := t.blkr, stage := t.stage }

/-- The padded length is the least multiple of 64 that is at least `L + 1`, and it is at most `L + 64`
(41_padder.md R160, R165). -/
def Obligations.PaddedLengthIsTheLeast : Prop :=
  ∀ L : Nat, paddedLength L % 64 = 0 ∧ L + 1 ≤ paddedLength L ∧ paddedLength L ≤ L + 64 ∧
    (∀ m, m % 64 = 0 → L + 1 ≤ m → paddedLength L ≤ m) ∧ paddedLength L = 64 * (L / 64 + 1)

/-- PARAMS (44_block_mixer.md R221): `A`, `B`, `C` are the big-endian words of the block's bytes 0-3, 4-7, 8-11. -/
def Obligations.ParamsAreTheFirstThreeWords : Prop :=
  ∀ s : State, ∃ t : State, exec .stageParams s = .next t ∧
    t.a = be32 (s.blkr.get 0) (s.blkr.get 1) (s.blkr.get 2) (s.blkr.get 3) ∧
    t.b = be32 (s.blkr.get 4) (s.blkr.get 5) (s.blkr.get 6) (s.blkr.get 7) ∧
    t.c = be32 (s.blkr.get 8) (s.blkr.get 9) (s.blkr.get 10) (s.blkr.get 11) ∧
    t.stage = StageCode.absorb ∧ t = { s with a := t.a, b := t.b, c := t.c, stage := t.stage }

/-- ABSORB (44_block_mixer.md R223): each word plus its block word, modulo 2^32, by the numbers of the four bytes. -/
def Obligations.AbsorbAddsTheBlockWords : Prop :=
  ∀ s : State, ∃ t : State, exec .stageAbsorb s = .next t ∧
    (∀ (i : Fin 16) (b0 b1 b2 b3 : Fin 64), b0.val = 4 * i.val → b1.val = b0.val + 1 → b2.val = b0.val + 2 →
      b3.val = b0.val + 3 →
      (t.S.get i).toNat = ((s.S.get i).toNat + ((s.blkr.get b0).toNat * 2 ^ 24 + (s.blkr.get b1).toNat * 2 ^ 16 +
        (s.blkr.get b2).toNat * 2 ^ 8 + (s.blkr.get b3).toNat)) % 2 ^ 32) ∧
    t.stage = StageCode.nlmix ∧ t = { s with S := t.S, stage := t.stage }

/-- NLMIX (44_block_mixer.md R230 with the lane of R231): every lane, in binary64 arithmetic, for every setting of
`MIX_CONV`. -/
def Obligations.NlmixAddsTheSineMix : Prop :=
  ∀ s : State, ∃ t : State, exec .stageNlmix s = .next t ∧
    (∀ i : Fin 16,
      let arg := F64.mul (F64.ofWord s.a) (F64.ofWord (s.S.get i ^^^ s.b))
      let p := F64.mul (sin64 arg) (F64.ofWord s.c)
      t.S.get i = s.S.get i + conv32 s.params.mixConv p.floor) ∧
    t.stage = StageCode.permgen ∧ t = { s with S := t.S, stage := t.stage }

/-- PERMGEN (44_block_mixer.md R240, R241): from the identity, for `i = 15` down to 1, a swap of `PERM[i]` with `PERM[j]`,
`j` the remainder of the advanced counter by `i + 1`. That `CTR` keeps its last value is the model's (log entry 21). -/
def Obligations.PermgenShuffles : Prop :=
  ∀ s : State,
    let ctrAfter : Nat → Word := fun n =>
      (fun c : Word => c * 1664525#32 + 1013904223#32)^[n]
        (be32 (s.blkr.get 0) (s.blkr.get 1) (s.blkr.get 2) (s.blkr.get 3))
    ∃ t : State, exec .stagePermgen s = .next t ∧
      t.perm = [15, 14, 13, 12, 11, 10, 9, 8, 7, 6, 5, 4, 3, 2, 1].foldl (fun (P : Perm) (i : Nat) =>
          let x := Fin.ofNat 16 i
          let y := Fin.ofNat 16 ((ctrAfter (16 - i)).toNat % (i + 1))
          Vector.ofFn fun k => if k = x then P.get y else if k = y then P.get x else P.get k)
        (Vector.ofFn fun k => k) ∧
      t.ctr = ctrAfter 15 ∧
      t.stage = StageCode.permute ∧ t = { s with perm := t.perm, ctr := t.ctr, stage := t.stage }

/-- After PERMGEN, from any state, `PERM` is a bijection on `0..15` (44_block_mixer.md R242). -/
def Obligations.PermgenLeavesABijection : Prop :=
  ∀ s t : State, exec .stagePermgen s = .next t → Function.Bijective fun i : Fin 16 => t.perm.get i

/-- PERMUTE (44_block_mixer.md R243): every word comes from the state before the stage, which `SNAP` takes. -/
def Obligations.PermuteMovesTheWords : Prop :=
  ∀ s : State, ∃ t : State, exec .stagePermute s = .next t ∧ t.snap = s.S ∧
    (∀ i : Fin 16, t.S.get i = s.S.get (s.perm.get i)) ∧
    t.stage = StageCode.diffuse ∧ t = { s with snap := t.snap, S := t.S, stage := t.stage }

/-- DIFFUSE and the end of the block (44_block_mixer.md R250, R251). -/
def Obligations.DiffuseRotatesAndCounts : Prop :=
  ∀ s : State, ∃ t : State, exec .stageDiffuse s = .next t ∧ t.snap = s.S ∧
    (∀ i : Fin 16, t.S.get i =
      s.S.get i ^^^ (s.S.get (i + 1)).rotateLeft ((s.S.get i).toNat % 32)) ∧
    t.blk = s.blk + 1 ∧ t.blkcnt = t.blk ∧
    t.stage = (if t.blk.toNat < s.nb.toNat then StageCode.load else StageCode.compress) ∧
    t = { s with snap := t.snap, S := t.S, blk := t.blk, blkcnt := t.blkcnt, stage := t.stage }

/-- COMPRESS (45_compressor.md R280): the digest registers take the state, `DONE` is set and the run ends. That the
internal datapath is unspecified from then on is 10_state.md R30. -/
def Obligations.CompressEndsTheRun : Prop :=
  ∀ s : State, ∃ t : State, exec .stageCompress s = .next t ∧
    (∀ k : Fin 16, t.digest.get k = s.S.get k) ∧ t.done = true ∧ t.stage = StageCode.idle ∧ t.busy = false ∧
    t.irq = s.irqEn ∧
    t = { s with
      S := t.S, blkr := t.blkr, a := t.a, b := t.b, c := t.c, perm := t.perm, ctr := t.ctr, lenL := t.lenL
      nb := t.nb, blk := t.blk, snap := t.snap, draws := t.draws, digest := t.digest, done := t.done
      stage := t.stage }

/-- A reserved stage code: the model faults (30_encoding.md R101), when the engine's turn finds one. -/
def Obligations.ReservedStageFaults : Prop :=
  ∀ (s : State) (ts : List Turn), 0xB ≤ s.stage.toNat → s.rstAsserted = false → s.turns = .engine :: ts →
    decode s.params (.stage s.stage) = .stageReserved s.stage ∧ step s = .fault (.reservedStage s.stage) ∧
    exec (.stageReserved s.stage) s = .fault (.reservedStage s.stage)

/-- A `LEN_L` that no accepted START latches makes SEED and LOAD stop where they would read a byte that does not exist
(20_memory.md R64; log entry 16). -/
def Obligations.ReadsOutsideTheBufferStop : Prop :=
  ∀ s : State, s.params.bufBytes < s.lenL.toNat →
    exec .stageSeed s = .fault (.bufferRange s.params.bufBytes) ∧
    (∀ m : Fin 64, 64 * s.blk.toNat + m.val < s.lenL.toNat → s.params.bufBytes ≤ 64 * s.blk.toNat + m.val →
      exec .stageLoad s = .fault (.bufferRange (max s.params.bufBytes (64 * s.blk.toNat)))) ∧
    ((∀ m : Fin 64, 64 * s.blk.toNat + m.val < s.lenL.toNat → 64 * s.blk.toNat + m.val < s.params.bufBytes) →
      ∃ t : State, exec .stageLoad s = .next t)

/-- The digest as bytes (45_compressor.md R281, R282): 64 of them, byte `4k + m` is bits `[31-8m : 24-8m]` of `DIGEST<k>`. -/
def Obligations.DigestIsSixtyFourBytes : Prop :=
  ∀ D : Words, (serialize D).length = 64 ∧
    ∀ (k : Fin 16) (m : Fin 4),
      (serialize D)[4 * k.val + m.val]? = some ((D.get k).extractLsb' (24 - 8 * m.val) 8)

/-! ## Binary64 arithmetic and the sine -/

/-- `f64` is exact and `fmul` is the correctly rounded product, for products below 2^1023 (00_scope.md R11). -/
def Obligations.ProductIsCorrectlyRounded : Prop :=
  (∀ x : Word, (F64.ofWord x).wf = true ∧ (F64.ofWord x).value = (x.toNat : ℚ)) ∧
  (∀ p q : F64, p.wf = true → q.wf = true → |p.value * q.value| ≤ 2 ^ 1023 →
    (F64.mul p q).IsNearest ((p.value * q.value : ℚ) : ℝ))

/-- `floor64` is the floor and keeps the sign of a zero (00_scope.md R11); `conv32` of an integral value is its two's
complement in the signed 32-bit range for every setting of `MIX_CONV`, and outside it what WRAP, SAT and INDEF say
(44_block_mixer.md R233). -/
def Obligations.FloorAndConversionAreExact : Prop :=
  (∀ p : F64, p.wf = true →
    (F64.floor p).wf = true ∧ (F64.floor p).value = ((⌊p.value⌋ : Int) : ℚ) ∧ (p.man = 0 → F64.floor p = p)) ∧
  (∀ (v : F64) (n : Int), v.value = (n : ℚ) →
    (-2 ^ 31 ≤ n → n ≤ 2 ^ 31 - 1 → ∀ conv, conv32 conv v = BitVec.ofInt 32 n) ∧
    conv32 .wrap v = BitVec.ofInt 32 n ∧
    (2 ^ 31 ≤ n → conv32 .sat v = 0x7FFFFFFF#32 ∧ conv32 .indef v = 0x80000000#32) ∧
    (n < -2 ^ 31 → conv32 .sat v = 0x80000000#32 ∧ conv32 .indef v = 0x80000000#32))

/-- `SIN64` has the properties P1 and P2 of 00_scope.md R3: the sine of zero is zero, and every result is a binary64 value
of magnitude at most 1. -/
def Obligations.SineIsBoundedAndFixesZero : Prop :=
  sin64 F64.zero = F64.zero ∧
  ∀ x : F64, x.wf = true → (sin64 x).wf = true ∧ -1 ≤ (sin64 x).value ∧ (sin64 x).value ≤ 1

/-- `SIN64` is the correctly rounded sine (00_scope.md R3, 44_block_mixer.md R232), for every binary64 argument; how the
model computes it is log entry 9. -/
def Obligations.SineIsCorrectlyRounded : Prop :=
  ∀ x : F64, x.wf = true → (sin64 x).IsNearest (Real.sin (x.value : ℝ))

/-- The ranges of 44_block_mixer.md R231, for every sine with P2: the argument is a binary64 value in `[0, 2^64)`, and
the product is one of magnitude at most `c`. -/
def Obligations.LaneValuesStayInRange : Prop :=
  (∀ a t : Word, (F64.mul (F64.ofWord a) (F64.ofWord t)).wf = true ∧
    0 ≤ (F64.mul (F64.ofWord a) (F64.ofWord t)).value ∧
    (F64.mul (F64.ofWord a) (F64.ofWord t)).value < 2 ^ 64) ∧
  (∀ (s : F64) (c : Word), s.wf = true → |s.value| ≤ 1 →
    (F64.mul s (F64.ofWord c)).wf = true ∧ |(F64.mul s (F64.ofWord c)).value| ≤ (c.toNat : ℚ))

/-- Lanes that NLMIX leaves unchanged, for every sine with P1 and P2 and every setting of `MIX_CONV`
(44_block_mixer.md R234 (1), (2)). -/
def Obligations.LaneUnchangedWhenAFactorIsZero : Prop :=
  ∀ (sine : F64 → F64) (conv : MixConv) (x a b c : Word),
    (∀ p : F64, p.wf = true → (sine p).wf = true ∧ |(sine p).value| ≤ 1) → sine F64.zero = F64.zero →
    (c = 0 ∨ a = 0 ∨ x = b) → nlLane sine conv x a b c = x

/-- For every block with `C < 2^31` the three settings of `MIX_CONV` agree, for every sine with P2
(44_block_mixer.md R233). -/
def Obligations.MixConvSettingsAgreeForSmallC : Prop :=
  ∀ (sine : F64 → F64) (conv : MixConv) (x a b c : Word),
    (∀ p : F64, p.wf = true → (sine p).wf = true ∧ |(sine p).value| ≤ 1) → c.toNat < 2 ^ 31 →
    nlLane sine conv x a b c = nlLane sine .wrap x a b c

/-! ## The whole machine -/

/-- Which instructions write each host-visible register, field by field, and the buffer (10_state.md R33-R36, R38-R42;
20_memory.md R61). -/
def Obligations.OnlyTheseWriteTheRegisters : Prop :=
  ∀ (i : Instr) (s t : State), exec i s = .next t →
    let start := i = .cmdStart ∨ i = .wrCmd 1
    let softReset := i = .cmdSoftReset ∨ i = .wrCmd 3
    let fits := s.msgLen.toNat ≤ s.params.bufBytes
    t.params = s.params ∧
    t.readTarget .id = s.readTarget .id ∧ t.readTarget .version = s.readTarget .version ∧
    t.readTarget .cfg = s.readTarget .cfg ∧
    (t.digest ≠ s.digest → i = .stageCompress ∨ softReset) ∧
    (t.msgBuf ≠ s.msgBuf → s.busy = false ∧ ∃ w d, i = .wrBuf w d ∧ w.toNat < s.params.bufBytes / 4) ∧
    (t.msgLen ≠ s.msgLen → (s.busy = false ∧ ∃ d, i = .wrMsgLen d) ∨ softReset) ∧
    (t.irqEn ≠ s.irqEn → (∃ d, i = .wrCtrl d) ∨ softReset) ∧
    (t.seed ≠ s.seed → i = .stageSeed ∨ softReset) ∧
    (t.blkcnt ≠ s.blkcnt → i = .stageDiffuse ∨ (s.busy = false ∧ fits ∧ start) ∨ softReset) ∧
    (t.stage ≠ s.stage → (∃ c, i = decodeStage c) ∨ (s.busy = false ∧ fits ∧ start) ∨
      (s.busy = true ∧ (i = .cmdAbort ∨ i = .wrCmd 2)) ∨ softReset) ∧
    (t.done = true → s.done = false → i = .stageCompress) ∧
    (t.done = false → s.done = true →
      (∃ d, i = .wrStatus d ∧ d.getLsbD 1 = true) ∨ (s.busy = false ∧ fits ∧ start) ∨ softReset) ∧
    (t.err = true → s.err = false →
      (∃ w, i = .cmdIllegal w) ∨ (∃ w, i = .wrCmd w ∧ 4 ≤ w.toNat) ∨ (s.busy = false ∧ ¬fits ∧ start) ∨
      (s.busy = true ∧ (start ∨ (∃ d, i = .wrMsgLen d) ∨ ∃ w d, i = .wrBuf w d ∧ w.toNat < s.params.bufBytes / 4))) ∧
    (t.err = false → s.err = true → (∃ d, i = .wrStatus d ∧ d.getLsbD 2 = true) ∨ softReset) ∧
    (t.errCode ≠ s.errCode →
      (s.err = false ∧ t.err = true) ∨ (∃ d, i = .wrStatus d ∧ d.getLsbD 2 = true) ∨ softReset)

/-- The sequencer's successor relation (40_commands.md R131, 10_state.md R28): a stage leaves its successor in `stage`, and
apart from stages only START, ABORT and SOFT_RESET change it. -/
def Obligations.StageOrder : Prop :=
  (∀ s t : State, exec (decodeStage s.stage) s = .next t →
    t.stage = (if s.stage = StageCode.idle ∨ s.stage = StageCode.compress then StageCode.idle
      else if s.stage = StageCode.diffuse then
        (if t.blk < s.nb then StageCode.load else StageCode.compress)
      else s.stage + 1)) ∧
  (∀ (w : CodeWord) (i : Instr) (s t : State), (∀ code, w ≠ .stage code) → i = decode s.params w →
    exec i s = .next t → t.stage ≠ s.stage →
    (t.stage = StageCode.seed ∧ s.stage = StageCode.idle ∧ (i = .cmdStart ∨ i = .wrCmd 1)) ∨
    (t.stage = StageCode.idle ∧ (i = .cmdAbort ∨ i = .wrCmd 2 ∨ i = .cmdSoftReset ∨ i = .wrCmd 3)))

/-- Every step keeps the invariant, from every state that meets it, whoever moves, and no step changes the parameters
(00_scope.md R2, R4). -/
def Obligations.EveryStepKeepsTheInvariant : Prop :=
  ∀ s t : State, step s = .next t → t.params = s.params ∧ (s.Inv → t.Inv)

/-- From a state that meets the invariant every step goes on: no stage raises an error, no transaction is answered with
one that stops the machine (60_exceptions.md R300, R308). -/
def Obligations.NoStepStopsUnderTheInvariant : Prop :=
  ∀ s : State, s.Inv → ∃ t : State, step s = .next t

/-- Every step keeps a run on the values the algorithm gives it, whatever the host does meanwhile (40_commands.md R133,
20_memory.md R73). -/
def Obligations.EveryStepKeepsTheRunOnTrack : Prop :=
  ∀ s t : State, s.Inv → s.OnTrack → step s = .next t → t.OnTrack

/-- The digest of a completed run is `CosHashWords` of the message at its START, in every interleaving and whatever the
host issues meanwhile (40_commands.md R133, 20_memory.md R73). -/
def Obligations.EveryInterleavingGivesTheDigest : Prop :=
  ∀ (s t : State) (k : Nat), s.Inv → s.stage = StageCode.seed →
    (∀ (j : Nat) (u : State), j ≤ k → Host.Core.run Sys2Proof.core j s = .next u → u.busy = true) →
    Host.Core.run Sys2Proof.core (k + 1) s = .next t → t.busy = false → t.done = true →
    t.digest = cosHashWords s.params.mixConv s.message ∧ t.seed = seedFold s.message ∧
      t.blkcnt.toNat = s.message.length / 64 + 1

/-- A run that is left alone performs exactly `3 + 7 * NB` engine steps and leaves the digest, `SEED` and `BLKCNT` of its
message (40_commands.md R133, R134). Where `turns` runs out it is the engine's turn while it is busy, which is the model's
choice (log entry 2). -/
def Obligations.RunTakesThreePlusSevenPerBlock : Prop :=
  ∀ s : State, s.Inv → s.stage = StageCode.seed → s.EngineOnly →
    ∃ t : State, Host.Core.run Sys2Proof.core (3 + 7 * s.nb.toNat) s = .next t ∧
      t.busy = false ∧ t.done = true ∧ t.digest = cosHashWords s.params.mixConv s.message ∧
      t.seed = seedFold s.message ∧ t.blkcnt = s.nb ∧ t.msgBuf = s.msgBuf ∧ t.msgLen = s.msgLen ∧ t.err = s.err ∧ t.errCode = s.errCode ∧
      t.irqEn = s.irqEn ∧ t.host = s.host ∧ t.responses = s.responses ∧
      ∀ j : Nat, j < 3 + 7 * s.nb.toNat →
        ∃ u : State, Host.Core.run Sys2Proof.core j s = .next u ∧ u.busy = true

/-- Bytes beyond the message never reach the digest or the seed (70_reset_and_hazards.md R347): two runs whose buffers
agree on `MSG_BUF[0 .. LEN_L-1]` end with the same digest and the same `SEED`, in every interleaving of each, whatever
the hosts issue. Two such runs that are left alone do complete; there, where `turns` runs out, it is the engine's turn,
which is the model's choice (log entry 2). -/
def Obligations.BytesBeyondTheMessageDoNotMatter : Prop :=
  (∀ (s u t v : State) (k l : Nat), s.Inv → u.Inv → s.stage = StageCode.seed → u.stage = StageCode.seed →
    u.params = s.params → u.lenL = s.lenL → (∀ n, n < s.lenL.toNat → u.bufByte n = s.bufByte n) →
    (∀ (j : Nat) (x : State), j ≤ k → Host.Core.run Sys2Proof.core j s = .next x → x.busy = true) →
    (∀ (j : Nat) (x : State), j ≤ l → Host.Core.run Sys2Proof.core j u = .next x → x.busy = true) →
    Host.Core.run Sys2Proof.core (k + 1) s = .next t → t.busy = false → t.done = true →
    Host.Core.run Sys2Proof.core (l + 1) u = .next v → v.busy = false → v.done = true →
    t.digest = v.digest ∧ t.seed = v.seed) ∧
  (∀ (s : State) (m : Memory) (d : Nat), s.Inv → s.stage = StageCode.seed → s.EngineOnly →
    Memory.wf s.params.bufBytes m = true → (∀ n, n < s.lenL.toNat → Memory.read m d n = s.bufByte n) →
    ∃ t u : State, Host.Core.run Sys2Proof.core (3 + 7 * s.nb.toNat) s = .next t ∧
      Host.Core.run Sys2Proof.core (3 + 7 * s.nb.toNat) { s with msgBuf := m, bufDraw := d } = .next u ∧
      t.digest = u.digest ∧ t.seed = u.seed)
end

