-- ==== Sys2Proof/Laws/Vectors.lean ====
section
/-! SUPPORT. Reading the elements of the fixed-length arrays. -/

namespace Sys2Proof.Machine

@[simp] theorem get_ofFn {α : Type} {n : Nat} (f : Fin n → α) (i : Fin n) : (Vector.ofFn f).get i = f i := by
  simp [Vector.get_eq_getElem]

theorem words_ext {α : Type} {n : Nat} {v w : Vector α n} (h : ∀ i, v.get i = w.get i) : v = w := by
  ext i hi
  simpa [Vector.get_eq_getElem] using h ⟨i, hi⟩

@[simp] theorem get_replicate {α : Type} {n : Nat} (a : α) (i : Fin n) : (Vector.replicate n a).get i = a := by
  simp [Vector.get_eq_getElem]

theorem blockByte_of_lt (blk : Block) {n : Nat} (h : n < 64) : blockByte blk n = blk.get ⟨n, h⟩ := by
  simp [blockByte, Vector.get_eq_getElem, h]

end Sys2Proof.Machine
end

