-- ==== Sys2Proof/Laws/Digest.lean ====
section
/-! SUPPORT. What the functions of Machine/Digest.lean and Machine/Operands.lean compute, in the forms statements use. -/

namespace Sys2Proof.Machine

/-! ## Bytes and words -/

/-- The four lanes of a big-endian word. -/
theorem be32_lane (b0 b1 b2 b3 : Byte) : 
   (be32 b0 b1 b2 b3).extractLsb' 24 8 = b0 ∧ (be32 b0 b1 b2 b3).extractLsb' 16 8 = b1 ∧ (be32 b0 b1 b2 b3).extractLsb' 8 8 = b2 ∧ (be32 b0 b1 b2 b3).extractLsb' 0 8 = b3 := by
  unfold be32
  refine ⟨?_, ?_, ?_, ?_⟩ <;> ext i hi <;> interval_cases i <;> simp

/-- The number of a big-endian word. -/
theorem be32_toNat (b0 b1 b2 b3 : Byte) : (be32 b0 b1 b2 b3).toNat = b0.toNat * 2^24 + b1.toNat * 2^16 + b2.toNat*2^8 + b3.toNat := by
  obtain ⟨h0, h1, h2, h3⟩ := be32_lane b0 b1 b2 b3
  generalize be32 b0 b1 b2 b3 = w at *
  have e0 := congrArg BitVec.toNat h0
  have e1 := congrArg BitVec.toNat h1
  have e2 := congrArg BitVec.toNat h2
  have e3 := congrArg BitVec.toNat h3
  simp only [BitVec.extractLsb'_toNat, Nat.shiftRight_eq_div_pow] at e0 e1 e2 e3
  have := w.isLt
  omega

/-- The rotation of 00_scope.md R9 is the rotation of bit vectors. -/
theorem rotl32_eq (x : Word) (r : Nat) (hr : r < 32) : rotl32 x r = x.rotateLeft r := by
  unfold rotl32 BitVec.rotateLeft BitVec.rotateLeftAux
  rw [Nat.mod_eq_of_lt hr]
  split
  · subst_vars; ext i hi; simp
  · rfl

/-- The low five bits are the remainder by 32. -/
theorem rotAmount_eq (x : Word) : rotAmount x = x.toNat % 32 := by
  unfold rotAmount
  rw [BitVec.toNat_and]; exact Nat.and_two_pow_sub_one_eq_mod x.toNat 5

/-! ## The seed's finalizer -/

/-- The xor-shift by 16 is its own inverse. -/
theorem xorShift_16_inv (x : Word) : xorShift 16 (xorShift 16 x) = x := by
  unfold xorShift; ext i hi; 
  interval_cases i <;> simp

/-- The inverse of the xor-shift by 13. -/
theorem xorShift_13_inv (x : Word) : xorShift 26 (xorShift 13 (xorShift 13 x)) = x := by
  unfold xorShift; ext i hi; 
  interval_cases i <;> simp

/-! ## The permutation -/

/-- The indices PERMGEN visits: `n` down to 1. -/
def descend : Nat → List Nat
  | 0 => []
  | n + 1 => (n + 1) :: descend n

/-- The swaps as one fold over the indices, each with its own value of the counter. -/
theorem permSteps_fold (c0 : Word) : ∀ (n k : Nat) (P : Perm), n + k = 15 →
    permSteps n (P, lcg^[k] c0) = ((descend n).foldl (fun P i => permSwap P (Fin.ofNat 16 i) (Fin.ofNat 16 ((lcg^[16 - i] c0).toNat % (i + 1)))) P, lcg^[15] c0)
  | 0, k, P, h => by
    have : k = 15 := by omega
    subst this; rfl
  | n + 1, k, P, h => by
    have e : lcg (lcg^[k] c0) = lcg^[k+1] c0 := (Function.iterate_succ_apply' lcg k c0).symm
    have e2 : 16 - (n + 1) = k + 1 := by omega
    rw [permSteps, e, permSteps_fold c0 n (k+1) _ (by omega), descend, List.foldl_cons, e2]

/-- A swap keeps an array injective. -/
theorem permSwap_inj (P : Perm) (x y : Fin 16) (h : Function.Injective fun i => P.get i) : Function.Injective fun i => (permSwap P x y).get i := by
  have : (fun i => (permSwap P x y).get i) = (fun i => P.get i) ∘ (Equiv.swap x y) := by
    funext i; simp only [permSwap, get_ofFn, Function.comp, Equiv.swap_apply_def]
    split; · rfl
    split <;> rfl
  rw [this]; exact h.comp (Equiv.swap x y).injective

theorem permSteps_inj : ∀ (n : Nat) (q : Perm × Word), (Function.Injective fun i => q.1.get i) → Function.Injective fun i => (permSteps n q).1.get i
  | 0, _, h => h
  | n+1, (P, _), h => permSteps_inj n _ (permSwap_inj P _ _ h)

/-- PERMGEN's array is injective, for every seed. -/
theorem permGen_inj (c : Word) : Function.Injective fun i => (permGen c).1.get i := by
  apply permSteps_inj
  intro i j h; simpa [identityPerm] using h

/-! ## The message -/

theorem message_length (s : State) : s.message.length = s.lenL.toNat := by simp [State.message]

/-- `PADBYTE` inside the padded sequence. -/
theorem padByte_of_lt (read : Nat → Byte) {L n : Nat} (h : n < paddedLength L) :
    padByte read L n = if n < L then read n else if n = L then 0x80 else 0x00 := by
  unfold padByte
  rw [if_pos h]

/-- A byte of a padded block. -/
@[simp] theorem padBlock_get (read : Nat → Byte) (L base : Nat) (m : Fin 64) :
    (padBlock read L base).get m = padByte read L (base + m.val) := by
  simp [padBlock]

/-- `PADBYTE` is a function of the message's bytes. -/
theorem padByte_congr {read read' : Nat → Byte} {L : Nat} (h : ∀ n, n < L → read n = read' n) (n : Nat) :
    padByte read L n = padByte read' L n := by
  have hM : (List.range L).map read = (List.range L).map read' :=
    List.map_congr_left fun k hk => h k (List.mem_range.1 hk)
  unfold padByte
  rw [hM]
  exact ite_congr rfl (h n) fun _ => rfl

/-- LOAD's block is the block of the run's message. -/
theorem padBlock_message (s : State) (base : Nat) :
    padBlock s.bufByte s.lenL.toNat base = padBlock (fun n => s.message.getD n 0) s.message.length base := by
  have h : ∀ n, n < s.lenL.toNat → s.bufByte n = s.message.getD n 0 := fun n h => by
    simp [State.message, List.getD, h]
  rw [message_length]
  exact congrArg Vector.ofFn (funext fun m => padByte_congr h (base + m.val))

end Sys2Proof.Machine
end

