-- ==== Sys2Proof/Laws/Params.lean ====
section
/-! SUPPORT. The capacities a machine can have are the legal values of `MSG_BUF_BYTES`. -/

namespace Sys2Proof

theorem bufBytes_div (P : Params) : P.bufBytes / 4 = 16 * (P.bufUnits.val + 1) := by
  unfold Params.bufBytes
  omega

theorem bufBytes_le (P : Params) : P.bufBytes ≤ 61440 := by
  unfold Params.bufBytes
  omega

/-- Exactly the legal values (00_scope.md R2). -/
theorem legalBufBytes_iff (n : Nat) : Config.legalBufBytes n = true ↔ ∃ P : Params, P.bufBytes = n := by
  simp only [Config.legalBufBytes, Bool.and_eq_true, beq_iff_eq, decide_eq_true_eq]
  constructor
  · rintro ⟨⟨h1, h2⟩, h3⟩
    refine ⟨⟨⟨n / 64 - 1, by omega⟩, .wrap⟩, ?_⟩
    show 64 * (n / 64 - 1 + 1) = n
    omega
  · rintro ⟨P, rfl⟩
    unfold Params.bufBytes
    omega

end Sys2Proof
end

