-- ==== Sys2Proof/Laws/Encoding.lean ====
section
/-! SUPPORT. The parts of the round trip: offsets, command words and stage codes. -/

namespace Sys2Proof

theorem bufWordBacked_iff (P : Params) (w : BitVec 14) : bufWordBacked P w = true ↔ w.toNat < P.bufBytes / 4 := by
  unfold bufWordBacked; exact decide_eq_true_iff

/-- A backed word lies in the window. -/
theorem lt_of_backed {P : Params} {w : BitVec 14} (h : bufWordBacked P w = true) : w.toNat < 15360 := by
  have h1 := (bufWordBacked_iff P w).1 h
  have h2 := bufBytes_le P
  omega

/-- The register block's offsets have `off[15:12] = 0` and give their word index back. -/
theorem regOffset_fields (n : BitVec 10) :
    (regOffset n).extractLsb' 12 4 = 0#4 ∧ (regOffset n).extractLsb' 2 10 = n := by
  have ht : (regOffset n).toNat = 4 * n.toNat := by
    simp only [regOffset, BitVec.toNat_shiftLeft, BitVec.toNat_setWidth, Nat.shiftLeft_eq]
    omega
  constructor <;> apply BitVec.eq_of_toNat_eq <;>
    simp only [BitVec.extractLsb'_toNat, ht, BitVec.toNat_ofNat, Nat.shiftRight_eq_div_pow] <;> omega

theorem windowOffset_toNat (w : BitVec 14) (h : w.toNat < 15360) : (windowOffset w).toNat = 4 * w.toNat + 0x1000 := by
  unfold windowOffset
  simp only [BitVec.toNat_shiftLeft, BitVec.toNat_setWidth, BitVec.toNat_add, BitVec.toNat_ofNat, Nat.shiftLeft_eq]
  omega

/-- The window's offsets have `off[15:12] ≠ 0` and give their word index back. -/
theorem windowOffset_fields (w : BitVec 14) (h : w.toNat < 15360) :
    (windowOffset w).extractLsb' 12 4 ≠ 0#4 ∧ (windowOffset w).extractLsb' 2 14 - 0x400#14 = w := by
  have ht := windowOffset_toNat w h
  constructor
  · intro hc
    have := congrArg BitVec.toNat hc
    simp only [BitVec.extractLsb'_toNat, ht, BitVec.toNat_ofNat, Nat.shiftRight_eq_div_pow] at this
    omega
  · apply BitVec.eq_of_toNat_eq
    simp only [BitVec.toNat_sub, BitVec.extractLsb'_toNat, ht, BitVec.toNat_ofNat, Nat.shiftRight_eq_div_pow]
    omega

theorem decodeOff_regOffset (P : Params) (n : BitVec 10) : decodeOff P (regOffset n) = decodeRegIndex n := by
  simp [decodeOff, regOffset_fields n]

theorem decodeOff_windowOffset (P : Params) (w : BitVec 14) (h : w.toNat < 15360) :
    decodeOff P (windowOffset w) = decodeWindowIndex P w := by
  simp [decodeOff, windowOffset_fields w h]

theorem decodeRegIndex_reserved (n : BitVec 10) (h : regIndexReserved n = true) : decodeRegIndex n = .reserved n := by
  simp only [regIndexReserved, Bool.or_eq_true, Bool.and_eq_true, decide_eq_true_eq] at h
  unfold decodeRegIndex
  split
  case h_10 => rw [if_neg (by omega)]
  all_goals omega

theorem encodeOff_digest_table (P : Params) : ∀ k : Fin 16, decodeOff P (encodeOff (.digest k)) = .digest k := by
  intro k
  fin_cases k <;> rfl

/-- Decoding the offset of a well-formed target gives the target back. -/
theorem decodeOff_encodeOff (P : Params) (t : Target) (h : t.wf P = true) : decodeOff P (encodeOff t) = t := by
  cases t with
  | digest k => exact encodeOff_digest_table P k
  | reserved n => exact (decodeOff_regOffset P n).trans (decodeRegIndex_reserved n h)
  | buf w =>
    exact (decodeOff_windowOffset P w (lt_of_backed h)).trans (if_pos h)
  | beyond w =>
    simp only [Target.wf, windowWordBeyond, Bool.and_eq_true, decide_eq_true_eq, Bool.not_eq_true'] at h
    exact (decodeOff_windowOffset P w h.2).trans (by simp [decodeWindowIndex, h.1])
  | _ => rfl

/-- The two ignored offset bits. -/
theorem alignOff_toNat (off : Offset) : (off &&& 0xFFFC#16).toNat = off.toNat / 4 * 4 := by
  have : off &&& 0xFFFC#16 = (off >>> 2) <<< 2 := by ext i hi; interval_cases i <;> simp
  rw [this]; simp only [BitVec.toNat_shiftLeft, BitVec.toNat_ushiftRight, Nat.shiftRight_eq_div_pow, Nat.shiftLeft_eq]
  have := off.isLt
  omega

/-- Decoding ignores them. -/
theorem decodeOff_align (P : Params) (off : Offset) : decodeOff P (off &&& 0xFFFC#16) = decodeOff P off := by
  have e1 : (off &&& 0xFFFC#16).extractLsb' 12 4 = off.extractLsb' 12 4 := by ext i hi; interval_cases i <;> simp
  have e2 : (off &&& 0xFFFC#16).extractLsb' 2 10 = off.extractLsb' 2 10 := by ext i hi; interval_cases i <;> simp
  have e3 : (off &&& 0xFFFC#16).extractLsb' 2 14 = off.extractLsb' 2 14 := by ext i hi; interval_cases i <;> simp
  simp only [decodeOff, e1, e2, e3]

theorem decodeCommand_illegal (w : Word) (h : commandWordLegal w = false) : decodeCommand w = .illegal w := by
  simp only [commandWordLegal, decide_eq_false_iff_not, Nat.not_lt] at h
  unfold decodeCommand
  repeat (rw [if_neg (by rintro rfl; revert h; decide)])

theorem decodeStage_reserved (code : BitVec 4) (h : 0xB ≤ code.toNat) : decodeStage code = .stageReserved code := by
  unfold decodeStage
  split <;> first | rfl | omega

/-- A record's bytes spell the record again. -/
theorem recordOfBytes_toBytes (w : CodeWord) : recordOfBytes w.toBytes = .ok w := by
  have off_rt : ∀ o : Offset, offsetOfBytes (byteOf o 0) (byteOf o 1) = o := by
    intro o; unfold offsetOfBytes byteOf; ext i hi; interval_cases i <;> simp
  have word_rt : ∀ o : Word, wordOfBytes (byteOf o 0) (byteOf o 1) (byteOf o 2) (byteOf o 3) = o := by
    intro o; unfold wordOfBytes byteOf; ext i hi; interval_cases i <;> simp
  cases w with
  | rd o => simp [CodeWord.toBytes, recordOfBytes, off_rt, wordOfBytes]
  | wr o d => simp [CodeWord.toBytes, recordOfBytes, off_rt, word_rt]
  | cmd d => simp [CodeWord.toBytes, recordOfBytes, word_rt]
  | stage c => revert c; decide

end Sys2Proof
end

