-- ==== Sys2Proof/Laws/State.lean ====
section
/-! SUPPORT. The fields of a state after each shared update: one lemma per field per update. -/

namespace Sys2Proof.Machine

/-! ## clearErr -/

@[simp] theorem clearErr_params (s : State) : s.clearErr.params = s.params := rfl
@[simp] theorem clearErr_S (s : State) : s.clearErr.S = s.S := rfl
@[simp] theorem clearErr_blkr (s : State) : s.clearErr.blkr = s.blkr := rfl
@[simp] theorem clearErr_a (s : State) : s.clearErr.a = s.a := rfl
@[simp] theorem clearErr_b (s : State) : s.clearErr.b = s.b := rfl
@[simp] theorem clearErr_c (s : State) : s.clearErr.c = s.c := rfl
@[simp] theorem clearErr_perm (s : State) : s.clearErr.perm = s.perm := rfl
@[simp] theorem clearErr_ctr (s : State) : s.clearErr.ctr = s.ctr := rfl
@[simp] theorem clearErr_lenL (s : State) : s.clearErr.lenL = s.lenL := rfl
@[simp] theorem clearErr_nb (s : State) : s.clearErr.nb = s.nb := rfl
@[simp] theorem clearErr_blk (s : State) : s.clearErr.blk = s.blk := rfl
@[simp] theorem clearErr_snap (s : State) : s.clearErr.snap = s.snap := rfl
@[simp] theorem clearErr_stage (s : State) : s.clearErr.stage = s.stage := rfl
@[simp] theorem clearErr_irqEn (s : State) : s.clearErr.irqEn = s.irqEn := rfl
@[simp] theorem clearErr_done (s : State) : s.clearErr.done = s.done := rfl
@[simp] theorem clearErr_err (s : State) : s.clearErr.err = false := rfl
@[simp] theorem clearErr_errCode (s : State) : s.clearErr.errCode = .none := rfl
@[simp] theorem clearErr_msgLen (s : State) : s.clearErr.msgLen = s.msgLen := rfl
@[simp] theorem clearErr_seed (s : State) : s.clearErr.seed = s.seed := rfl
@[simp] theorem clearErr_blkcnt (s : State) : s.clearErr.blkcnt = s.blkcnt := rfl
@[simp] theorem clearErr_digest (s : State) : s.clearErr.digest = s.digest := rfl
@[simp] theorem clearErr_msgBuf (s : State) : s.clearErr.msgBuf = s.msgBuf := rfl
@[simp] theorem clearErr_rstAsserted (s : State) : s.clearErr.rstAsserted = s.rstAsserted := rfl
@[simp] theorem clearErr_host (s : State) : s.clearErr.host = s.host := rfl
@[simp] theorem clearErr_turns (s : State) : s.clearErr.turns = s.turns := rfl
@[simp] theorem clearErr_responses (s : State) : s.clearErr.responses = s.responses := rfl
@[simp] theorem clearErr_draws (s : State) : s.clearErr.draws = s.draws := rfl
@[simp] theorem clearErr_bufDraw (s : State) : s.clearErr.bufDraw = s.bufDraw := rfl

/-! ## clearDone -/

@[simp] theorem clearDone_params (s : State) : s.clearDone.params = s.params := rfl
@[simp] theorem clearDone_S (s : State) : s.clearDone.S = s.S := rfl
@[simp] theorem clearDone_blkr (s : State) : s.clearDone.blkr = s.blkr := rfl
@[simp] theorem clearDone_a (s : State) : s.clearDone.a = s.a := rfl
@[simp] theorem clearDone_b (s : State) : s.clearDone.b = s.b := rfl
@[simp] theorem clearDone_c (s : State) : s.clearDone.c = s.c := rfl
@[simp] theorem clearDone_perm (s : State) : s.clearDone.perm = s.perm := rfl
@[simp] theorem clearDone_ctr (s : State) : s.clearDone.ctr = s.ctr := rfl
@[simp] theorem clearDone_lenL (s : State) : s.clearDone.lenL = s.lenL := rfl
@[simp] theorem clearDone_nb (s : State) : s.clearDone.nb = s.nb := rfl
@[simp] theorem clearDone_blk (s : State) : s.clearDone.blk = s.blk := rfl
@[simp] theorem clearDone_snap (s : State) : s.clearDone.snap = s.snap := rfl
@[simp] theorem clearDone_stage (s : State) : s.clearDone.stage = s.stage := rfl
@[simp] theorem clearDone_irqEn (s : State) : s.clearDone.irqEn = s.irqEn := rfl
@[simp] theorem clearDone_done (s : State) : s.clearDone.done = false := rfl
@[simp] theorem clearDone_err (s : State) : s.clearDone.err = s.err := rfl
@[simp] theorem clearDone_errCode (s : State) : s.clearDone.errCode = s.errCode := rfl
@[simp] theorem clearDone_msgLen (s : State) : s.clearDone.msgLen = s.msgLen := rfl
@[simp] theorem clearDone_seed (s : State) : s.clearDone.seed = s.seed := rfl
@[simp] theorem clearDone_blkcnt (s : State) : s.clearDone.blkcnt = s.blkcnt := rfl
@[simp] theorem clearDone_digest (s : State) : s.clearDone.digest = s.digest := rfl
@[simp] theorem clearDone_msgBuf (s : State) : s.clearDone.msgBuf = s.msgBuf := rfl
@[simp] theorem clearDone_rstAsserted (s : State) : s.clearDone.rstAsserted = s.rstAsserted := rfl
@[simp] theorem clearDone_host (s : State) : s.clearDone.host = s.host := rfl
@[simp] theorem clearDone_turns (s : State) : s.clearDone.turns = s.turns := rfl
@[simp] theorem clearDone_responses (s : State) : s.clearDone.responses = s.responses := rfl
@[simp] theorem clearDone_draws (s : State) : s.clearDone.draws = s.draws := rfl
@[simp] theorem clearDone_bufDraw (s : State) : s.clearDone.bufDraw = s.bufDraw := rfl

/-! ## startRun -/

@[simp] theorem startRun_params (s : State) : s.startRun.params = s.params := rfl
@[simp] theorem startRun_S (s : State) : s.startRun.S = s.S := rfl
@[simp] theorem startRun_blkr (s : State) : s.startRun.blkr = s.blkr := rfl
@[simp] theorem startRun_a (s : State) : s.startRun.a = s.a := rfl
@[simp] theorem startRun_b (s : State) : s.startRun.b = s.b := rfl
@[simp] theorem startRun_c (s : State) : s.startRun.c = s.c := rfl
@[simp] theorem startRun_perm (s : State) : s.startRun.perm = s.perm := rfl
@[simp] theorem startRun_ctr (s : State) : s.startRun.ctr = s.ctr := rfl
@[simp] theorem startRun_lenL (s : State) : s.startRun.lenL = s.msgLen := rfl
@[simp] theorem startRun_nb (s : State) : s.startRun.nb = (s.msgLen >>> 6) + 1 := rfl
@[simp] theorem startRun_blk (s : State) : s.startRun.blk = 0 := rfl
@[simp] theorem startRun_snap (s : State) : s.startRun.snap = s.snap := rfl
@[simp] theorem startRun_stage (s : State) : s.startRun.stage = StageCode.seed := rfl
@[simp] theorem startRun_irqEn (s : State) : s.startRun.irqEn = s.irqEn := rfl
@[simp] theorem startRun_done (s : State) : s.startRun.done = false := rfl
@[simp] theorem startRun_err (s : State) : s.startRun.err = s.err := rfl
@[simp] theorem startRun_errCode (s : State) : s.startRun.errCode = s.errCode := rfl
@[simp] theorem startRun_msgLen (s : State) : s.startRun.msgLen = s.msgLen := rfl
@[simp] theorem startRun_seed (s : State) : s.startRun.seed = s.seed := rfl
@[simp] theorem startRun_blkcnt (s : State) : s.startRun.blkcnt = 0 := rfl
@[simp] theorem startRun_digest (s : State) : s.startRun.digest = s.digest := rfl
@[simp] theorem startRun_msgBuf (s : State) : s.startRun.msgBuf = s.msgBuf := rfl
@[simp] theorem startRun_rstAsserted (s : State) : s.startRun.rstAsserted = s.rstAsserted := rfl
@[simp] theorem startRun_host (s : State) : s.startRun.host = s.host := rfl
@[simp] theorem startRun_turns (s : State) : s.startRun.turns = s.turns := rfl
@[simp] theorem startRun_responses (s : State) : s.startRun.responses = s.responses := rfl
@[simp] theorem startRun_draws (s : State) : s.startRun.draws = s.draws := rfl
@[simp] theorem startRun_bufDraw (s : State) : s.startRun.bufDraw = s.bufDraw := rfl

/-! ## forgetDatapath -/

@[simp] theorem forgetDatapath_params (s : State) : s.forgetDatapath.params = s.params := rfl
@[simp] theorem forgetDatapath_S (s : State) : s.forgetDatapath.S = Config.unspecifiedWords s.draws 0 := rfl
@[simp] theorem forgetDatapath_blkr (s : State) : s.forgetDatapath.blkr = Config.unspecifiedBlock s.draws := rfl
@[simp] theorem forgetDatapath_a (s : State) : s.forgetDatapath.a = Config.unspecifiedWord s.draws 0 := rfl
@[simp] theorem forgetDatapath_b (s : State) : s.forgetDatapath.b = Config.unspecifiedWord s.draws 1 := rfl
@[simp] theorem forgetDatapath_c (s : State) : s.forgetDatapath.c = Config.unspecifiedWord s.draws 2 := rfl
@[simp] theorem forgetDatapath_perm (s : State) : s.forgetDatapath.perm = Config.unspecifiedPerm s.draws := rfl
@[simp] theorem forgetDatapath_ctr (s : State) : s.forgetDatapath.ctr = Config.unspecifiedWord s.draws 3 := rfl
@[simp] theorem forgetDatapath_lenL (s : State) : s.forgetDatapath.lenL = Config.unspecifiedWord s.draws 4 := rfl
@[simp] theorem forgetDatapath_nb (s : State) : s.forgetDatapath.nb = Config.unspecifiedWord s.draws 5 := rfl
@[simp] theorem forgetDatapath_blk (s : State) : s.forgetDatapath.blk = Config.unspecifiedWord s.draws 6 := rfl
@[simp] theorem forgetDatapath_snap (s : State) : s.forgetDatapath.snap = Config.unspecifiedWords s.draws 1 := rfl
@[simp] theorem forgetDatapath_stage (s : State) : s.forgetDatapath.stage = s.stage := rfl
@[simp] theorem forgetDatapath_irqEn (s : State) : s.forgetDatapath.irqEn = s.irqEn := rfl
@[simp] theorem forgetDatapath_done (s : State) : s.forgetDatapath.done = s.done := rfl
@[simp] theorem forgetDatapath_err (s : State) : s.forgetDatapath.err = s.err := rfl
@[simp] theorem forgetDatapath_errCode (s : State) : s.forgetDatapath.errCode = s.errCode := rfl
@[simp] theorem forgetDatapath_msgLen (s : State) : s.forgetDatapath.msgLen = s.msgLen := rfl
@[simp] theorem forgetDatapath_seed (s : State) : s.forgetDatapath.seed = s.seed := rfl
@[simp] theorem forgetDatapath_blkcnt (s : State) : s.forgetDatapath.blkcnt = s.blkcnt := rfl
@[simp] theorem forgetDatapath_digest (s : State) : s.forgetDatapath.digest = s.digest := rfl
@[simp] theorem forgetDatapath_msgBuf (s : State) : s.forgetDatapath.msgBuf = s.msgBuf := rfl
@[simp] theorem forgetDatapath_rstAsserted (s : State) : s.forgetDatapath.rstAsserted = s.rstAsserted := rfl
@[simp] theorem forgetDatapath_host (s : State) : s.forgetDatapath.host = s.host := rfl
@[simp] theorem forgetDatapath_turns (s : State) : s.forgetDatapath.turns = s.turns := rfl
@[simp] theorem forgetDatapath_responses (s : State) : s.forgetDatapath.responses = s.responses := rfl
@[simp] theorem forgetDatapath_draws (s : State) : s.forgetDatapath.draws = s.draws + 1 := rfl
@[simp] theorem forgetDatapath_bufDraw (s : State) : s.forgetDatapath.bufDraw = s.bufDraw := rfl

/-! ## softReset -/

@[simp] theorem softReset_params (s : State) : s.softReset.params = s.params := rfl
@[simp] theorem softReset_S (s : State) : s.softReset.S = s.forgetDatapath.S := rfl
@[simp] theorem softReset_blkr (s : State) : s.softReset.blkr = s.forgetDatapath.blkr := rfl
@[simp] theorem softReset_a (s : State) : s.softReset.a = s.forgetDatapath.a := rfl
@[simp] theorem softReset_b (s : State) : s.softReset.b = s.forgetDatapath.b := rfl
@[simp] theorem softReset_c (s : State) : s.softReset.c = s.forgetDatapath.c := rfl
@[simp] theorem softReset_perm (s : State) : s.softReset.perm = s.forgetDatapath.perm := rfl
@[simp] theorem softReset_ctr (s : State) : s.softReset.ctr = s.forgetDatapath.ctr := rfl
@[simp] theorem softReset_lenL (s : State) : s.softReset.lenL = s.forgetDatapath.lenL := rfl
@[simp] theorem softReset_nb (s : State) : s.softReset.nb = s.forgetDatapath.nb := rfl
@[simp] theorem softReset_blk (s : State) : s.softReset.blk = s.forgetDatapath.blk := rfl
@[simp] theorem softReset_snap (s : State) : s.softReset.snap = s.forgetDatapath.snap := rfl
@[simp] theorem softReset_stage (s : State) : s.softReset.stage = StageCode.idle := rfl
@[simp] theorem softReset_irqEn (s : State) : s.softReset.irqEn = false := rfl
@[simp] theorem softReset_done (s : State) : s.softReset.done = false := rfl
@[simp] theorem softReset_err (s : State) : s.softReset.err = false := rfl
@[simp] theorem softReset_errCode (s : State) : s.softReset.errCode = .none := rfl
@[simp] theorem softReset_msgLen (s : State) : s.softReset.msgLen = 0 := rfl
@[simp] theorem softReset_seed (s : State) : s.softReset.seed = 0 := rfl
@[simp] theorem softReset_blkcnt (s : State) : s.softReset.blkcnt = 0 := rfl
@[simp] theorem softReset_digest (s : State) : s.softReset.digest = Vector.replicate 16 0 := rfl
@[simp] theorem softReset_msgBuf (s : State) : s.softReset.msgBuf = s.msgBuf := rfl
@[simp] theorem softReset_rstAsserted (s : State) : s.softReset.rstAsserted = s.rstAsserted := rfl
@[simp] theorem softReset_host (s : State) : s.softReset.host = s.host := rfl
@[simp] theorem softReset_turns (s : State) : s.softReset.turns = s.turns := rfl
@[simp] theorem softReset_responses (s : State) : s.softReset.responses = s.responses := rfl
@[simp] theorem softReset_draws (s : State) : s.softReset.draws = s.forgetDatapath.draws := rfl
@[simp] theorem softReset_bufDraw (s : State) : s.softReset.bufDraw = s.bufDraw := rfl

/-! ## hardReset -/

@[simp] theorem hardReset_params (s : State) : s.hardReset.params = s.softReset.params := rfl
@[simp] theorem hardReset_S (s : State) : s.hardReset.S = s.softReset.S := rfl
@[simp] theorem hardReset_blkr (s : State) : s.hardReset.blkr = s.softReset.blkr := rfl
@[simp] theorem hardReset_a (s : State) : s.hardReset.a = s.softReset.a := rfl
@[simp] theorem hardReset_b (s : State) : s.hardReset.b = s.softReset.b := rfl
@[simp] theorem hardReset_c (s : State) : s.hardReset.c = s.softReset.c := rfl
@[simp] theorem hardReset_perm (s : State) : s.hardReset.perm = s.softReset.perm := rfl
@[simp] theorem hardReset_ctr (s : State) : s.hardReset.ctr = s.softReset.ctr := rfl
@[simp] theorem hardReset_lenL (s : State) : s.hardReset.lenL = s.softReset.lenL := rfl
@[simp] theorem hardReset_nb (s : State) : s.hardReset.nb = s.softReset.nb := rfl
@[simp] theorem hardReset_blk (s : State) : s.hardReset.blk = s.softReset.blk := rfl
@[simp] theorem hardReset_snap (s : State) : s.hardReset.snap = s.softReset.snap := rfl
@[simp] theorem hardReset_stage (s : State) : s.hardReset.stage = s.softReset.stage := rfl
@[simp] theorem hardReset_irqEn (s : State) : s.hardReset.irqEn = s.softReset.irqEn := rfl
@[simp] theorem hardReset_done (s : State) : s.hardReset.done = s.softReset.done := rfl
@[simp] theorem hardReset_err (s : State) : s.hardReset.err = s.softReset.err := rfl
@[simp] theorem hardReset_errCode (s : State) : s.hardReset.errCode = s.softReset.errCode := rfl
@[simp] theorem hardReset_msgLen (s : State) : s.hardReset.msgLen = s.softReset.msgLen := rfl
@[simp] theorem hardReset_seed (s : State) : s.hardReset.seed = s.softReset.seed := rfl
@[simp] theorem hardReset_blkcnt (s : State) : s.hardReset.blkcnt = s.softReset.blkcnt := rfl
@[simp] theorem hardReset_digest (s : State) : s.hardReset.digest = s.softReset.digest := rfl
@[simp] theorem hardReset_msgBuf (s : State) : s.hardReset.msgBuf = [] := rfl
@[simp] theorem hardReset_rstAsserted (s : State) : s.hardReset.rstAsserted = s.softReset.rstAsserted := rfl
@[simp] theorem hardReset_host (s : State) : s.hardReset.host = s.softReset.host := rfl
@[simp] theorem hardReset_turns (s : State) : s.hardReset.turns = s.softReset.turns := rfl
@[simp] theorem hardReset_responses (s : State) : s.hardReset.responses = s.softReset.responses := rfl
@[simp] theorem hardReset_draws (s : State) : s.hardReset.draws = s.draws + 2 := rfl
@[simp] theorem hardReset_bufDraw (s : State) : s.hardReset.bufDraw = s.draws + 1 := rfl

/-! ## afterTurn -/

@[simp] theorem afterTurn_params (s : State) : s.afterTurn.params = s.params := rfl
@[simp] theorem afterTurn_S (s : State) : s.afterTurn.S = s.S := rfl
@[simp] theorem afterTurn_blkr (s : State) : s.afterTurn.blkr = s.blkr := rfl
@[simp] theorem afterTurn_a (s : State) : s.afterTurn.a = s.a := rfl
@[simp] theorem afterTurn_b (s : State) : s.afterTurn.b = s.b := rfl
@[simp] theorem afterTurn_c (s : State) : s.afterTurn.c = s.c := rfl
@[simp] theorem afterTurn_perm (s : State) : s.afterTurn.perm = s.perm := rfl
@[simp] theorem afterTurn_ctr (s : State) : s.afterTurn.ctr = s.ctr := rfl
@[simp] theorem afterTurn_lenL (s : State) : s.afterTurn.lenL = s.lenL := rfl
@[simp] theorem afterTurn_nb (s : State) : s.afterTurn.nb = s.nb := rfl
@[simp] theorem afterTurn_blk (s : State) : s.afterTurn.blk = s.blk := rfl
@[simp] theorem afterTurn_snap (s : State) : s.afterTurn.snap = s.snap := rfl
@[simp] theorem afterTurn_stage (s : State) : s.afterTurn.stage = s.stage := rfl
@[simp] theorem afterTurn_irqEn (s : State) : s.afterTurn.irqEn = s.irqEn := rfl
@[simp] theorem afterTurn_done (s : State) : s.afterTurn.done = s.done := rfl
@[simp] theorem afterTurn_err (s : State) : s.afterTurn.err = s.err := rfl
@[simp] theorem afterTurn_errCode (s : State) : s.afterTurn.errCode = s.errCode := rfl
@[simp] theorem afterTurn_msgLen (s : State) : s.afterTurn.msgLen = s.msgLen := rfl
@[simp] theorem afterTurn_seed (s : State) : s.afterTurn.seed = s.seed := rfl
@[simp] theorem afterTurn_blkcnt (s : State) : s.afterTurn.blkcnt = s.blkcnt := rfl
@[simp] theorem afterTurn_digest (s : State) : s.afterTurn.digest = s.digest := rfl
@[simp] theorem afterTurn_msgBuf (s : State) : s.afterTurn.msgBuf = s.msgBuf := rfl
@[simp] theorem afterTurn_rstAsserted (s : State) : s.afterTurn.rstAsserted = s.rstAsserted := rfl
@[simp] theorem afterTurn_host (s : State) : s.afterTurn.host = s.host := rfl
@[simp] theorem afterTurn_turns (s : State) : s.afterTurn.turns = s.turns.tail := rfl
@[simp] theorem afterTurn_responses (s : State) : s.afterTurn.responses = s.responses := rfl
@[simp] theorem afterTurn_draws (s : State) : s.afterTurn.draws = s.draws := rfl
@[simp] theorem afterTurn_bufDraw (s : State) : s.afterTurn.bufDraw = s.bufDraw := rfl

/-! ## assertReset -/

@[simp] theorem assertReset_params (s : State) : s.assertReset.params = s.params := rfl
@[simp] theorem assertReset_S (s : State) : s.assertReset.S = s.S := rfl
@[simp] theorem assertReset_blkr (s : State) : s.assertReset.blkr = s.blkr := rfl
@[simp] theorem assertReset_a (s : State) : s.assertReset.a = s.a := rfl
@[simp] theorem assertReset_b (s : State) : s.assertReset.b = s.b := rfl
@[simp] theorem assertReset_c (s : State) : s.assertReset.c = s.c := rfl
@[simp] theorem assertReset_perm (s : State) : s.assertReset.perm = s.perm := rfl
@[simp] theorem assertReset_ctr (s : State) : s.assertReset.ctr = s.ctr := rfl
@[simp] theorem assertReset_lenL (s : State) : s.assertReset.lenL = s.lenL := rfl
@[simp] theorem assertReset_nb (s : State) : s.assertReset.nb = s.nb := rfl
@[simp] theorem assertReset_blk (s : State) : s.assertReset.blk = s.blk := rfl
@[simp] theorem assertReset_snap (s : State) : s.assertReset.snap = s.snap := rfl
@[simp] theorem assertReset_stage (s : State) : s.assertReset.stage = s.stage := rfl
@[simp] theorem assertReset_irqEn (s : State) : s.assertReset.irqEn = s.irqEn := rfl
@[simp] theorem assertReset_done (s : State) : s.assertReset.done = s.done := rfl
@[simp] theorem assertReset_err (s : State) : s.assertReset.err = s.err := rfl
@[simp] theorem assertReset_errCode (s : State) : s.assertReset.errCode = s.errCode := rfl
@[simp] theorem assertReset_msgLen (s : State) : s.assertReset.msgLen = s.msgLen := rfl
@[simp] theorem assertReset_seed (s : State) : s.assertReset.seed = s.seed := rfl
@[simp] theorem assertReset_blkcnt (s : State) : s.assertReset.blkcnt = s.blkcnt := rfl
@[simp] theorem assertReset_digest (s : State) : s.assertReset.digest = s.digest := rfl
@[simp] theorem assertReset_msgBuf (s : State) : s.assertReset.msgBuf = s.msgBuf := rfl
@[simp] theorem assertReset_rstAsserted (s : State) : s.assertReset.rstAsserted = true := rfl
@[simp] theorem assertReset_host (s : State) : s.assertReset.host = s.host := rfl
@[simp] theorem assertReset_turns (s : State) : s.assertReset.turns = s.turns := rfl
@[simp] theorem assertReset_responses (s : State) : s.assertReset.responses = s.responses := rfl
@[simp] theorem assertReset_draws (s : State) : s.assertReset.draws = s.draws := rfl
@[simp] theorem assertReset_bufDraw (s : State) : s.assertReset.bufDraw = s.bufDraw := rfl

/-! ## raiseError -/

@[simp] theorem raiseError_params (s : State) (e : ErrCode) : (s.raiseError e).params = s.params := by
  unfold State.raiseError; split <;> rfl
@[simp] theorem raiseError_S (s : State) (e : ErrCode) : (s.raiseError e).S = s.S := by
  unfold State.raiseError; split <;> rfl
@[simp] theorem raiseError_blkr (s : State) (e : ErrCode) : (s.raiseError e).blkr = s.blkr := by
  unfold State.raiseError; split <;> rfl
@[simp] theorem raiseError_a (s : State) (e : ErrCode) : (s.raiseError e).a = s.a := by
  unfold State.raiseError; split <;> rfl
@[simp] theorem raiseError_b (s : State) (e : ErrCode) : (s.raiseError e).b = s.b := by
  unfold State.raiseError; split <;> rfl
@[simp] theorem raiseError_c (s : State) (e : ErrCode) : (s.raiseError e).c = s.c := by
  unfold State.raiseError; split <;> rfl
@[simp] theorem raiseError_perm (s : State) (e : ErrCode) : (s.raiseError e).perm = s.perm := by
  unfold State.raiseError; split <;> rfl
@[simp] theorem raiseError_ctr (s : State) (e : ErrCode) : (s.raiseError e).ctr = s.ctr := by
  unfold State.raiseError; split <;> rfl
@[simp] theorem raiseError_lenL (s : State) (e : ErrCode) : (s.raiseError e).lenL = s.lenL := by
  unfold State.raiseError; split <;> rfl
@[simp] theorem raiseError_nb (s : State) (e : ErrCode) : (s.raiseError e).nb = s.nb := by
  unfold State.raiseError; split <;> rfl
@[simp] theorem raiseError_blk (s : State) (e : ErrCode) : (s.raiseError e).blk = s.blk := by
  unfold State.raiseError; split <;> rfl
@[simp] theorem raiseError_snap (s : State) (e : ErrCode) : (s.raiseError e).snap = s.snap := by
  unfold State.raiseError; split <;> rfl
@[simp] theorem raiseError_stage (s : State) (e : ErrCode) : (s.raiseError e).stage = s.stage := by
  unfold State.raiseError; split <;> rfl
@[simp] theorem raiseError_irqEn (s : State) (e : ErrCode) : (s.raiseError e).irqEn = s.irqEn := by
  unfold State.raiseError; split <;> rfl
@[simp] theorem raiseError_done (s : State) (e : ErrCode) : (s.raiseError e).done = s.done := by
  unfold State.raiseError; split <;> rfl
@[simp] theorem raiseError_msgLen (s : State) (e : ErrCode) : (s.raiseError e).msgLen = s.msgLen := by
  unfold State.raiseError; split <;> rfl
@[simp] theorem raiseError_seed (s : State) (e : ErrCode) : (s.raiseError e).seed = s.seed := by
  unfold State.raiseError; split <;> rfl
@[simp] theorem raiseError_blkcnt (s : State) (e : ErrCode) : (s.raiseError e).blkcnt = s.blkcnt := by
  unfold State.raiseError; split <;> rfl
@[simp] theorem raiseError_digest (s : State) (e : ErrCode) : (s.raiseError e).digest = s.digest := by
  unfold State.raiseError; split <;> rfl
@[simp] theorem raiseError_msgBuf (s : State) (e : ErrCode) : (s.raiseError e).msgBuf = s.msgBuf := by
  unfold State.raiseError; split <;> rfl
@[simp] theorem raiseError_rstAsserted (s : State) (e : ErrCode) : (s.raiseError e).rstAsserted = s.rstAsserted := by
  unfold State.raiseError; split <;> rfl
@[simp] theorem raiseError_host (s : State) (e : ErrCode) : (s.raiseError e).host = s.host := by
  unfold State.raiseError; split <;> rfl
@[simp] theorem raiseError_turns (s : State) (e : ErrCode) : (s.raiseError e).turns = s.turns := by
  unfold State.raiseError; split <;> rfl
@[simp] theorem raiseError_responses (s : State) (e : ErrCode) : (s.raiseError e).responses = s.responses := by
  unfold State.raiseError; split <;> rfl
@[simp] theorem raiseError_draws (s : State) (e : ErrCode) : (s.raiseError e).draws = s.draws := by
  unfold State.raiseError; split <;> rfl
@[simp] theorem raiseError_bufDraw (s : State) (e : ErrCode) : (s.raiseError e).bufDraw = s.bufDraw := by
  unfold State.raiseError; split <;> rfl

@[simp] theorem raiseError_err (s : State) (e : ErrCode) : (s.raiseError e).err = true := by
  unfold State.raiseError; split <;> simp_all

@[simp] theorem raiseError_errCode (s : State) (e : ErrCode) :
    (s.raiseError e).errCode = if s.err then s.errCode else e := by
  unfold State.raiseError; split <;> rfl

/-! ## The computed views -/

theorem busy_iff (s : State) : s.busy = true ↔ s.stage ≠ StageCode.idle := by simp [State.busy]

theorem not_busy_iff (s : State) : s.busy = false ↔ s.stage = StageCode.idle := by simp [State.busy]

@[simp] theorem raiseError_busy (s : State) (e : ErrCode) : (s.raiseError e).busy = s.busy := by simp [State.busy]

@[simp] theorem clearErr_busy (s : State) : s.clearErr.busy = s.busy := rfl

@[simp] theorem clearDone_busy (s : State) : s.clearDone.busy = s.busy := rfl

@[simp] theorem startRun_busy (s : State) : s.startRun.busy = true := rfl

@[simp] theorem softReset_busy (s : State) : s.softReset.busy = false := rfl

@[simp] theorem hardReset_busy (s : State) : s.hardReset.busy = false := rfl

end Sys2Proof.Machine
end

