-- ==== Sys2Proof/Laws/Exec.lean ====
section
/-! SUPPORT. Everything one instruction can do, once: where it answers `next t`, what `t` is. The proofs about steps cite
these instead of unfolding a meaning. -/

namespace Sys2Proof.Machine

variable {s t : State}

/-! ## The command rows -/

theorem exec_cmdNop (h : exec .cmdNop s = .next t) : t = s := (Host.Outcome.next.inj h).symm

/-- START is refused with BUSY, refused with LEN, or begins a run. -/
theorem exec_cmdStart (h : exec .cmdStart s = .next t) :
    (s.busy = true ∧ t = s.raiseError .busy) ∨
    (s.busy = false ∧ s.params.bufBytes < s.msgLen.toNat ∧ t = s.raiseError .len) ∨
    (s.busy = false ∧ s.msgLen.toNat ≤ s.params.bufBytes ∧ t = s.startRun) := by
  simp only [exec, execCmdStart] at h
  cases hb : s.busy <;> simp only [hb, if_true, if_false, Bool.false_eq_true] at h
  · split at h
    · exact .inr (.inl ⟨rfl, ‹_›, (Host.Outcome.next.inj h).symm⟩)
    · exact .inr (.inr ⟨rfl, by omega, (Host.Outcome.next.inj h).symm⟩)
  · exact .inl ⟨rfl, (Host.Outcome.next.inj h).symm⟩

/-- ABORT stops a run, or has no effect. -/
theorem exec_cmdAbort (h : exec .cmdAbort s = .next t) :
    (s.busy = true ∧ t = { s.forgetDatapath with stage := StageCode.idle }) ∨ (s.busy = false ∧ t = s) := by
  simp only [exec, execCmdAbort] at h
  cases hb : s.busy <;> simp only [hb, if_true, if_false, Bool.false_eq_true] at h
  · exact .inr ⟨rfl, (Host.Outcome.next.inj h).symm⟩
  · exact .inl ⟨rfl, (Host.Outcome.next.inj h).symm⟩

theorem exec_cmdSoftReset (h : exec .cmdSoftReset s = .next t) : t = s.softReset := (Host.Outcome.next.inj h).symm

theorem exec_cmdIllegal {w : Word} (h : exec (.cmdIllegal w) s = .next t) : t = s.raiseError .cmd :=
  (Host.Outcome.next.inj h).symm

/-! ## The transaction rows -/

theorem exec_rd {u : Target} (h : exec (.rd u) s = .next t) :
    t = { s with responses := s.readTarget u :: s.responses } := (Host.Outcome.next.inj h).symm

theorem exec_wrCtrl {d : Word} (h : exec (.wrCtrl d) s = .next t) : t = { s with irqEn := d.getLsbD 0 } :=
  (Host.Outcome.next.inj h).symm

/-- The five kinds of command word. -/
theorem decodeCommand_cases (w : Word) :
    (w = 0#32 ∧ decodeCommand w = .nop) ∨ (w = 1#32 ∧ decodeCommand w = .start) ∨
    (w = 2#32 ∧ decodeCommand w = .abort) ∨ (w = 3#32 ∧ decodeCommand w = .softReset) ∨
    (4 ≤ w.toNat ∧ decodeCommand w = .illegal w) := by
  by_cases h : 4 ≤ w.toNat
  · exact .inr (.inr (.inr (.inr ⟨h, decodeCommand_illegal w (decide_eq_false (by omega))⟩)))
  · obtain h | h | h | h : w.toNat = 0 ∨ w.toNat = 1 ∨ w.toNat = 2 ∨ w.toNat = 3 := by omega
    · obtain rfl : w = 0#32 := BitVec.eq_of_toNat_eq h
      exact .inl ⟨rfl, rfl⟩
    · obtain rfl : w = 1#32 := BitVec.eq_of_toNat_eq h
      exact .inr (.inl ⟨rfl, rfl⟩)
    · obtain rfl : w = 2#32 := BitVec.eq_of_toNat_eq h
      exact .inr (.inr (.inl ⟨rfl, rfl⟩))
    · obtain rfl : w = 3#32 := BitVec.eq_of_toNat_eq h
      exact .inr (.inr (.inr (.inl ⟨rfl, rfl⟩)))

/-- A write to `CMD` is one of the five command rows. -/
theorem exec_wrCmd {w : Word} (h : exec (.wrCmd w) s = .next t) :
    (w = 0#32 ∧ exec .cmdNop s = .next t) ∨ (w = 1#32 ∧ exec .cmdStart s = .next t) ∨
    (w = 2#32 ∧ exec .cmdAbort s = .next t) ∨ (w = 3#32 ∧ exec .cmdSoftReset s = .next t) ∨
    (4 ≤ w.toNat ∧ exec (.cmdIllegal w) s = .next t) := by
  simp only [exec, execWrCmd] at h
  obtain ⟨hw, hd⟩ | ⟨hw, hd⟩ | ⟨hw, hd⟩ | ⟨hw, hd⟩ | ⟨hw, hd⟩ := decodeCommand_cases w <;> rw [hd] at h
  · exact .inl ⟨hw, h⟩
  · exact .inr (.inl ⟨hw, h⟩)
  · exact .inr (.inr (.inl ⟨hw, h⟩))
  · exact .inr (.inr (.inr (.inl ⟨hw, h⟩)))
  · exact .inr (.inr (.inr (.inr ⟨hw, h⟩)))

theorem exec_wrStatus {d : Word} (h : exec (.wrStatus d) s = .next t) :
    t = { s with
      done := s.done && !d.getLsbD 1
      err := s.err && !d.getLsbD 2
      errCode := if d.getLsbD 2 then .none else s.errCode } := by
  rw [← Host.Outcome.next.inj h]
  cases d.getLsbD 1 <;> cases d.getLsbD 2 <;> simp [State.clearDone, State.clearErr]

theorem exec_wrMsgLen {d : Word} (h : exec (.wrMsgLen d) s = .next t) :
    (s.busy = true ∧ t = s.raiseError .busy) ∨ (s.busy = false ∧ t = { s with msgLen := d }) := by
  simp only [exec, execWrMsgLen] at h
  cases hb : s.busy <;> simp only [hb, if_true, if_false, Bool.false_eq_true] at h
  · exact .inr ⟨rfl, (Host.Outcome.next.inj h).symm⟩
  · exact .inl ⟨rfl, (Host.Outcome.next.inj h).symm⟩

theorem exec_wrBuf {w : BitVec 14} {d : Word} (h : exec (.wrBuf w d) s = .next t) :
    (bufWordBacked s.params w = false ∧ t = s) ∨ (bufWordBacked s.params w = true ∧ s.busy = true ∧ t = s.raiseError .busy) ∨
    (bufWordBacked s.params w = true ∧ s.busy = false ∧
      t = { s with msgBuf := Memory.writeWord s.msgBuf (bufWordAddr w) d }) := by
  simp only [exec, execWrBuf] at h
  cases hw : bufWordBacked s.params w <;> cases hb : s.busy <;>
    simp only [hw, hb, if_true, if_false, Bool.false_eq_true] at h
  · exact .inl ⟨rfl, (Host.Outcome.next.inj h).symm⟩
  · exact .inl ⟨rfl, (Host.Outcome.next.inj h).symm⟩
  · exact .inr (.inr ⟨rfl, rfl, (Host.Outcome.next.inj h).symm⟩)
  · exact .inr (.inl ⟨rfl, rfl, (Host.Outcome.next.inj h).symm⟩)

theorem exec_wrIgnored {u : Target} {d : Word} (h : exec (.wrIgnored u d) s = .next t) : t = s :=
  (Host.Outcome.next.inj h).symm

/-! ## The stage rows -/

theorem exec_stageIdle (h : exec .stageIdle s = .next t) : t = s := (Host.Outcome.next.inj h).symm

theorem exec_stageSeed (h : exec .stageSeed s = .next t) :
    s.seedReadable = true ∧ t = { s with seed := seedFold s.message, stage := StageCode.init } := by
  simp only [exec, execStageSeed] at h
  cases hr : s.seedReadable <;> simp only [hr, if_true, if_false, Bool.false_eq_true] at h
  · cases h
  · exact ⟨rfl, (Host.Outcome.next.inj h).symm⟩

theorem exec_stageInit (h : exec .stageInit s = .next t) :
    t = { s with S := initialState s.seed, stage := StageCode.load } := (Host.Outcome.next.inj h).symm

theorem exec_stageLoad (h : exec .stageLoad s = .next t) :
    s.loadReadable = true ∧
    t = { s with blkr := padBlock s.bufByte s.lenL.toNat (64 * s.blk.toNat), stage := StageCode.params } := by
  simp only [exec, execStageLoad] at h
  cases hr : s.loadReadable <;> simp only [hr, if_true, if_false, Bool.false_eq_true] at h
  · cases h
  · exact ⟨rfl, (Host.Outcome.next.inj h).symm⟩

theorem exec_stageParams (h : exec .stageParams s = .next t) :
    t = { s with a := paramA s.blkr, b := paramB s.blkr, c := paramC s.blkr, stage := StageCode.absorb } :=
  (Host.Outcome.next.inj h).symm

theorem exec_stageAbsorb (h : exec .stageAbsorb s = .next t) :
    t = { s with S := absorb s.S s.blkr, stage := StageCode.nlmix } := (Host.Outcome.next.inj h).symm

theorem exec_stageNlmix (h : exec .stageNlmix s = .next t) :
    t = { s with S := nlMix s.params.mixConv s.S s.a s.b s.c, stage := StageCode.permgen } := (Host.Outcome.next.inj h).symm

theorem exec_stagePermgen (h : exec .stagePermgen s = .next t) :
    t = { s with
      perm := (permGen (ctrSeed s.blkr)).1, ctr := (permGen (ctrSeed s.blkr)).2, stage := StageCode.permute } :=
  (Host.Outcome.next.inj h).symm

theorem exec_stagePermute (h : exec .stagePermute s = .next t) :
    t = { s with snap := s.S, S := permute s.S s.perm, stage := StageCode.diffuse } :=
  (Host.Outcome.next.inj h).symm

theorem exec_stageDiffuse (h : exec .stageDiffuse s = .next t) :
    t = { s with
      snap := s.S, S := diffuse s.S, blk := s.blk + 1, blkcnt := s.blk + 1
      stage := if s.blk + 1 < s.nb then StageCode.load else StageCode.compress } :=
  (Host.Outcome.next.inj h).symm

theorem exec_stageCompress (h : exec .stageCompress s = .next t) :
    t = { s.forgetDatapath with digest := s.S, done := true, stage := StageCode.idle } :=
  (Host.Outcome.next.inj h).symm

theorem exec_stageReserved {c : BitVec 4} (h : exec (.stageReserved c) s = .next t) : False := by cases h

/-- The block count that an accepted START latches. -/
theorem nb_toNat (x : Word) (h : x.toNat ≤ 61440) : ((x >>> 6) + 1).toNat = x.toNat / 64 + 1 := by
  simp only [BitVec.toNat_add, BitVec.toNat_ushiftRight, Nat.shiftRight_eq_div_pow]
  show (x.toNat / 64 + 1) % 2^32 = _
  omega

/-- Within the buffer's length every byte SEED and LOAD read exists. -/
theorem readable {s : State} (h : s.lenL.toNat ≤ s.params.bufBytes) : s.seedReadable = true ∧ s.loadReadable = true := by
  refine ⟨decide_eq_true h, ?_⟩
  unfold State.loadReadable State.loadEnd; simp only [Bool.or_eq_true, decide_eq_true_eq]
  omega

/-- The twelve kinds of stage code. -/
theorem stage_cases (c : BitVec 4) : c = 0#4 ∨ c = 1#4 ∨ c = 2#4 ∨ c = 3#4 ∨ c = 4#4 ∨ c = 5#4 ∨ c = 6#4 ∨ c = 7#4 ∨ c = 8#4 ∨ c = 9#4 ∨ c = 10#4 ∨ 11 ≤ c.toNat := by revert c; decide

/-- A stage leaves everything but the datapath, `SEED` and `BLKCNT` unchanged; COMPRESS alone ends the run. -/
theorem stage_frame {s t : State} (he : exec (decodeStage s.stage) s = .next t) :
    (t = { s with S := t.S, blkr := t.blkr, a := t.a, b := t.b, c := t.c, perm := t.perm, ctr := t.ctr, snap := t.snap, blk := t.blk, blkcnt := t.blkcnt, seed := t.seed, stage := t.stage }
      ∧ s.stage ≠ StageCode.compress)
    ∨ (s.stage = StageCode.compress ∧ t = { s.forgetDatapath with digest := s.S, done := true, stage := StageCode.idle }) := by
  generalize hc : s.stage = c at he
  obtain h0|h0|h0|h0|h0|h0|h0|h0|h0|h0|h0|h0 := stage_cases c <;> try subst h0
  · have h : exec .stageIdle s = _ := he; rw [exec_stageIdle h]; exact .inl ⟨rfl, by decide⟩
  · have h : exec .stageSeed s = _ := he; rw [(exec_stageSeed h).2]; exact .inl ⟨rfl, by decide⟩
  · have h : exec .stageInit s = _ := he; rw [exec_stageInit h]; exact .inl ⟨rfl, by decide⟩
  · have h : exec .stageLoad s = _ := he; rw [(exec_stageLoad h).2]; exact .inl ⟨rfl, by decide⟩
  · have h : exec .stageParams s = _ := he; rw [exec_stageParams h]; exact .inl ⟨rfl, by decide⟩
  · have h : exec .stageAbsorb s = _ := he; rw [exec_stageAbsorb h]; exact .inl ⟨rfl, by decide⟩
  · have h : exec .stageNlmix s = _ := he; rw [exec_stageNlmix h]; exact .inl ⟨rfl, by decide⟩
  · have h : exec .stagePermgen s = _ := he; rw [exec_stagePermgen h]; exact .inl ⟨rfl, by decide⟩
  · have h : exec .stagePermute s = _ := he; rw [exec_stagePermute h]; exact .inl ⟨rfl, by decide⟩
  · have h : exec .stageDiffuse s = _ := he; rw [exec_stageDiffuse h]; exact .inl ⟨rfl, by decide⟩
  · have h : exec .stageCompress s = _ := he; rw [exec_stageCompress h]; exact .inr ⟨rfl, rfl⟩
  · rw [decodeStage_reserved c h0] at he; exact (exec_stageReserved he).elim

/-- The host's instructions, and the commands among them, go on in every state. -/
theorem exec_wrCmd_next (w : Word) (s : State) : ∃ t, exec (.wrCmd w) s = .next t := by
  simp only [exec, execWrCmd, execCmdNop, execCmdStart, execCmdAbort, execCmdSoftReset, execCmdIllegal]
  repeat' split
  all_goals exact ⟨_, rfl⟩

theorem exec_wr_next (P : Params) (off : Offset) (data : Word) (s : State) : ∃ t, exec (decode P (.wr off data)) s = .next t := by
  simp only [decode, decodeWrite]
  split
  · exact ⟨_, rfl⟩
  · exact exec_wrCmd_next data s
  · exact ⟨_, rfl⟩
  · simp only [exec, execWrMsgLen]; split <;> exact ⟨_, rfl⟩
  · simp only [exec, execWrBuf]; repeat' split
    all_goals exact ⟨_, rfl⟩
  · exact ⟨_, rfl⟩

end Sys2Proof.Machine
end

