-- ==== Sys2Proof/Laws/Memory.lean ====
section
/-! SUPPORT. The message buffer: what reading after writing gives, and that writing keeps the canonical form. -/

namespace Sys2Proof.Machine

theorem find?_eq_none_of_above {n : Nat} :
    ∀ {m : Memory}, Memory.above n m = true → ∀ {k : Nat}, k ≤ n → Memory.find? m k = none
  | [], _, _, _ => rfl
  | (j, v) :: rest, h, k, hk => by
    simp only [Memory.above, Bool.and_eq_true, decide_eq_true_eq] at h
    have hj : j ≠ k := by omega
    simp [Memory.find?, hj, find?_eq_none_of_above h.2 hk]

theorem find?_write (m : Memory) (n : Nat) (v : Byte) (k : Nat) :
    Memory.find? (Memory.write m n v) k = if n = k then some v else Memory.find? m k := by
  induction m with
  | nil => simp [Memory.write, Memory.find?]
  | cons c rest ih =>
    obtain ⟨j, w⟩ := c
    simp only [Memory.write]
    split
    · simp [Memory.find?]
    · split
      · subst_vars; by_cases h : j = k <;> simp [Memory.find?, h]
      · by_cases h : j = k
        · have : n ≠ k := by omega
          simp [Memory.find?, h, this]
        · simp [Memory.find?, h, ih]

theorem read_write (m : Memory) (d n : Nat) (v : Byte) (k : Nat) :
    Memory.read (Memory.write m n v) d k = if n = k then v else Memory.read m d k := by
  simp only [Memory.read, find?_write]; split <;> rfl

@[simp] theorem read_write_same (m : Memory) (d n : Nat) (v : Byte) : Memory.read (Memory.write m n v) d n = v := by
  simp [read_write]

theorem read_write_other (m : Memory) (d : Nat) {n k : Nat} (v : Byte) (h : n ≠ k) :
    Memory.read (Memory.write m n v) d k = Memory.read m d k := by
  simp [read_write, h]

theorem above_write (m : Memory) {a n : Nat} (v : Byte) (hn : a < n) (h : Memory.above a m = true) :
    Memory.above a (Memory.write m n v) = true := by
  induction m with
  | nil => simp [Memory.write, Memory.above, hn]
  | cons c rest ih =>
    obtain ⟨j, w⟩ := c
    simp only [Memory.above, Bool.and_eq_true, decide_eq_true_eq] at h
    simp only [Memory.write]
    split
    · simp [Memory.above, hn, h]
    · split <;> simp [Memory.above, hn, h, ih]

theorem above_trans {a b : Nat} (hab : a ≤ b) : ∀ {m : Memory}, Memory.above b m = true → Memory.above a m = true
  | [], _ => rfl
  | (j, _) :: rest, h => by
    simp only [Memory.above, Bool.and_eq_true, decide_eq_true_eq] at h ⊢
    exact ⟨by omega, above_trans hab h.2⟩

theorem rising_write (m : Memory) (n : Nat) (v : Byte) (h : Memory.rising m = true) :
    Memory.rising (Memory.write m n v) = true := by
  induction m with
  | nil => rfl
  | cons c rest ih =>
    obtain ⟨j, w⟩ := c
    simp only [Memory.rising, Bool.and_eq_true] at h
    simp only [Memory.write]
    split
    · rename_i hlt
      simp only [Memory.rising, Memory.above, Bool.and_eq_true, decide_eq_true_eq]
      exact ⟨⟨hlt, above_trans (Nat.le_of_lt hlt) h.1⟩, h.1, h.2⟩
    · split
      · subst_vars; simp [Memory.rising, h]
      · simp only [Memory.rising, Bool.and_eq_true]
        exact ⟨above_write rest v (by omega) h.1, ih h.2⟩

theorem inBuffer_write (m : Memory) {cap n : Nat} (v : Byte) (hn : n < cap)
    (h : Memory.inBuffer cap m = true) : Memory.inBuffer cap (Memory.write m n v) = true := by
  induction m with
  | nil => simp [Memory.write, Memory.inBuffer, hn]
  | cons c rest ih =>
    obtain ⟨j, w⟩ := c
    simp only [Memory.inBuffer, Bool.and_eq_true, decide_eq_true_eq] at h
    simp only [Memory.write]
    split
    · simp [Memory.inBuffer, hn, h]
    · split <;> simp [Memory.inBuffer, hn, h, ih]

/-- Writing a byte of the buffer keeps the canonical form. -/
theorem wf_write (m : Memory) {cap n : Nat} (v : Byte) (hn : n < cap) (h : Memory.wf cap m = true) :
    Memory.wf cap (Memory.write m n v) = true := by
  simp only [Memory.wf, Bool.and_eq_true] at h ⊢
  exact ⟨rising_write m n v h.1, inBuffer_write m v hn h.2⟩

theorem wf_nil (cap : Nat) : Memory.wf cap [] = true := rfl

/-- Writing a word of the buffer keeps the canonical form. -/
theorem wf_writeWord (m : Memory) {cap n : Nat} (d : Word) (hn : n + 3 < cap) (h : Memory.wf cap m = true) :
    Memory.wf cap (Memory.writeWord m n d) = true := by
  unfold Memory.writeWord
  refine wf_write _ _ hn (wf_write _ _ (by omega) (wf_write _ _ (by omega) (wf_write _ _ (by omega) h)))

/-- What a byte reads as after a word is written. -/
theorem read_writeWord (m : Memory) (d n : Nat) (w : Word) (k : Nat) :
    Memory.read (Memory.writeWord m n w) d k =
      if n + 3 = k then laneByte w 3 else if n + 2 = k then laneByte w 2
      else if n + 1 = k then laneByte w 1 else if n = k then laneByte w 0 else Memory.read m d k := by
  simp only [Memory.writeWord, read_write]

theorem read_writeWord_lane (m : Memory) (d n : Nat) (w : Word) (i : Fin 4) :
    Memory.read (Memory.writeWord m n w) d (n + i.val) = laneByte w i := by
  rw [read_writeWord]
  fin_cases i <;> simp

theorem read_writeWord_other (m : Memory) (d : Nat) {n k : Nat} (w : Word) (h : k < n ∨ n + 3 < k) :
    Memory.read (Memory.writeWord m n w) d k = Memory.read m d k := by
  rw [read_writeWord]
  repeat (rw [if_neg (by omega)])

theorem write_write_same (m : Memory) (n : Nat) (v w : Byte) :
    Memory.write (Memory.write m n v) n w = Memory.write m n w := by
  induction m with
  | nil => simp [Memory.write]
  | cons c rest ih =>
    obtain ⟨j, u⟩ := c
    simp only [Memory.write]
    split
    · simp [Memory.write]
    · split
      · simp [Memory.write]
      · rename_i h1 h2; simp [Memory.write, h1, h2, ih]

/-- Two canonical buffers in which every address holds the same written byte are the same list. -/
theorem memory_ext : ∀ {m m' : Memory}, Memory.rising m = true → Memory.rising m' = true →
    (∀ k, Memory.find? m k = Memory.find? m' k) → m = m'
  | [], [], _, _, _ => rfl
  | [], (k, v) :: rest, _, _, h => by simpa [Memory.find?] using h k
  | (k, v) :: rest, [], _, _, h => by simpa [Memory.find?] using h k
  | (j, v) :: rest, (k, w) :: rest', h1, h2, h => by
    simp only [Memory.rising, Bool.and_eq_true] at h1 h2
    have hjk : j = k := by
      rcases Nat.lt_trichotomy j k with hlt | heq | hgt
      · have hj := h j
        have hn := find?_eq_none_of_above h2.1 (Nat.le_of_lt hlt)
        simp [Memory.find?, Nat.ne_of_gt hlt, hn] at hj
      · exact heq
      · have hk := h k
        have hn := find?_eq_none_of_above h1.1 (Nat.le_of_lt hgt)
        simp [Memory.find?, Nat.ne_of_gt hgt, hn] at hk
    subst hjk
    have hv : v = w := by simpa [Memory.find?] using h j
    subst hv
    congr 1
    refine memory_ext h1.2 h2.2 fun n => ?_
    by_cases hn : j = n
    · subst hn
      rw [find?_eq_none_of_above h1.1 (Nat.le_refl _), find?_eq_none_of_above h2.1 (Nat.le_refl _)]
    · simpa [Memory.find?, hn] using h n

end Sys2Proof.Machine
end

