-- ==== Sys2Proof/Laws/PerInstr.lean ====
section
/-! SUPPORT. Per instruction: the encoding of a well-formed instruction of this hardware carries its row's match value under its row's
mask (spec/opcode_table.json). -/

namespace Sys2Proof.Laws.TableRow

/-- The encoding of `i`, in the table's bit numbering, matches the row of `i` and decodes to `i`'s row again. -/
def Statement (i : Instr) : Prop :=
  i.wf Config.thisHardware = true → (encode i).tableBits &&& i.tableRow.mask = i.tableRow.value

theorem and_high_nibble (x : Offset) : x &&& 0xF000#16 = (x.extractLsb' 12 4).setWidth 16 <<< 12 := by
  ext i hi
  interval_cases i <;> simp

theorem cmdNop : Statement (.cmdNop) := fun _ => rfl

theorem cmdStart : Statement (.cmdStart) := fun _ => rfl

theorem cmdAbort : Statement (.cmdAbort) := fun _ => rfl

theorem cmdSoftReset : Statement (.cmdSoftReset) := fun _ => rfl

theorem cmdIllegal (word : Word) : Statement (.cmdIllegal word) := fun _ => Nat.and_zero _

theorem rd (t : Target) : Statement (.rd t) := fun _ => Nat.and_zero _

theorem wrCtrl (data : Word) : Statement (.wrCtrl data) := fun _ => by simp [encode, CodeWord.tableBits, Instr.tableRow]

theorem wrCmd (data : Word) : Statement (.wrCmd data) := fun _ => by simp [encode, CodeWord.tableBits, Instr.tableRow]

theorem wrStatus (data : Word) : Statement (.wrStatus data) := fun _ => by simp [encode, CodeWord.tableBits, Instr.tableRow]

theorem wrMsgLen (data : Word) : Statement (.wrMsgLen data) := fun _ => by simp [encode, CodeWord.tableBits, Instr.tableRow]

theorem wrBuf (w : BitVec 14) (data : Word) : Statement (.wrBuf w data) := by
  intro h
  have hw : w.toNat < 1024 := (bufWordBacked_iff _ w).1 h
  have hq : (windowOffset w).extractLsb' 12 4 = 1#4 := by
    apply BitVec.eq_of_toNat_eq
    simp only [BitVec.extractLsb'_toNat, windowOffset_toNat w (by omega), BitVec.toNat_ofNat,
      Nat.shiftRight_eq_div_pow]
    omega
  have hm := congrArg BitVec.toNat (and_high_nibble (windowOffset w))
  rw [hq] at hm
  exact hm

theorem wrIgnored (t : Target) (data : Word) : Statement (.wrIgnored t data) := fun _ => Nat.and_zero _

theorem stageIdle : Statement (.stageIdle) := fun _ => rfl

theorem stageSeed : Statement (.stageSeed) := fun _ => rfl

theorem stageInit : Statement (.stageInit) := fun _ => rfl

theorem stageLoad : Statement (.stageLoad) := fun _ => rfl

theorem stageParams : Statement (.stageParams) := fun _ => rfl

theorem stageAbsorb : Statement (.stageAbsorb) := fun _ => rfl

theorem stageNlmix : Statement (.stageNlmix) := fun _ => rfl

theorem stagePermgen : Statement (.stagePermgen) := fun _ => rfl

theorem stagePermute : Statement (.stagePermute) := fun _ => rfl

theorem stageDiffuse : Statement (.stageDiffuse) := fun _ => rfl

theorem stageCompress : Statement (.stageCompress) := fun _ => rfl

theorem stageReserved (code : BitVec 4) : Statement (.stageReserved code) := by
  intro _
  revert code; decide

end Sys2Proof.Laws.TableRow
end

