-- ==== Sys2Proof/Laws/Run.lean ====
section
/-! SUPPORT. A run of many steps, taken apart at its first and at its last step. -/

namespace Sys2Proof.Machine

theorem run_of_step {s v : State} (n : Nat) (h : step s = .next v) :
    Host.Core.run Sys2Proof.core (n + 1) s = Host.Core.run Sys2Proof.core n v := by
  have h' : Sys2Proof.core.step s = .next v := h
  simp only [Host.Core.run, h']

/-- The first step of a run. -/
theorem run_left (n : Nat) (s t : State) : Host.Core.run Sys2Proof.core (n+1) s = .next t ↔ ∃ v : State, step s = .next v ∧ Host.Core.run Sys2Proof.core n v = .next t := by
  constructor
  · intro h
    cases hs : step s with
    | next v => exact ⟨v, rfl, (run_of_step n hs).symm.trans h⟩
    | fault r => have h' : Sys2Proof.core.step s = .fault r := hs; simp only [Host.Core.run, h'] at h; cases h
    | refused r => have h' : Sys2Proof.core.step s = .refused r := hs; simp only [Host.Core.run, h'] at h; cases h
  · rintro ⟨v, h1, h2⟩; rw [run_of_step n h1]; exact h2

/-- The last step of a run. -/
theorem run_succ (k : Nat) : ∀ (s t : State), Host.Core.run Sys2Proof.core (k + 1) s = .next t ↔
    ∃ u : State, Host.Core.run Sys2Proof.core k s = .next u ∧ step u = .next t := by
  induction k with
  | zero =>
    intro s t
    rw [run_left]
    constructor
    · rintro ⟨v, h1, h2⟩; cases h2; exact ⟨s, rfl, h1⟩
    · rintro ⟨u, h1, h2⟩; cases h1; exact ⟨t, h2, rfl⟩
  | succ k ih =>
    intro s t
    rw [run_left]
    constructor
    · rintro ⟨v, h1, h2⟩
      obtain ⟨u, h2, h3⟩ := (ih v t).1 h2
      exact ⟨u, (run_left _ _ _).2 ⟨v, h1, h2⟩, h3⟩
    · rintro ⟨u, h2, h3⟩; obtain ⟨v, h1, h2⟩ := (run_left _ _ _).1 h2; exact ⟨v, h1, (ih v t).2 ⟨u, h2, h3⟩⟩

end Sys2Proof.Machine
end

