-- ==== Sys2Proof/Laws/Sine.lean ====
section
/-! SUPPORT. `SIN64` is the correctly rounded sine, for every binary64 argument. -/

namespace Sys2Proof.Machine

/-- The sine of a magnitude is both rounded ends of one enclosure. -/
theorem sineOfMag_settled (x : Nat) (hx : x ≠ 0) :
    ∃ t, sineOfMag x hx = (sineBox x t).lower ∧ sineOfMag x hx = (sineBox x t).upper := by
  unfold sineOfMag
  cases h : sineSettled x sineLadder with
  | some y => exact sineSettled_some x _ y h
  | none => exact ⟨_, rfl, Nat.find_spec (sineBox_settles x hx)⟩

/-- The sine of a magnitude is the binary64 value nearest to it. -/
theorem sineOfMag_isNearest (x : Nat) (hx : x ≠ 0) : (sineOfMag x hx).IsNearest (Real.sin (angleOf x)) := by
  obtain ⟨t, h1, h2⟩ := sineOfMag_settled x hx
  have hl := lower_near x t
  have hu := upper_near x t
  rw [← h1] at hl
  rw [← h2] at hu
  have hP : (0 : ℝ) < 2 ^ (sineBox x t).prec := by positivity
  obtain ⟨e1, e2⟩ := sineBox_encloses x t
  refine isNearest_between hl hu ?_ ?_
  · rw [div_le_iff₀ hP]; linarith
  · rw [le_div_iff₀ hP]; linarith

end Sys2Proof.Machine
end

