-- ==== Sys2Proof/Laws/Step.lean ====
section
/-! SUPPORT. Everything one step can do, once: who moves, what is taken up, and the four things a host's instruction can
do to a run. -/

namespace Sys2Proof.Machine

/-! ## Taking the turn -/

/-- Taking a turn consumes it, and the host's record with it if it was the host's turn. -/
theorem advance_cases (s : State) : s.advance = s.afterTurn ∨ s.advance = { s.afterTurn with host := s.hostAfter } := by
  unfold State.advance
  cases s.nextTurn
  · by_cases hr : s.rstAsserted = true
    · exact .inl (if_pos hr)
    · exact .inr (if_neg hr)
  · exact .inl rfl
  · exact .inl rfl
  · exact .inl rfl

/-- Taking a turn touches only the agents' inputs. -/
theorem advance_eq (s : State) : s.advance = { s with host := s.advance.host, turns := s.turns.tail } := by
  obtain h | h := advance_cases s <;> rw [h] <;> rfl

theorem advance_host_of_engine {s : State} (h : s.nextTurn = .engine) : s.advance.host = s.host := by
  simp [State.advance, h]

/-- What a fetch takes up: the host's next record or the sequencer's code, and nothing while reset is asserted. -/
theorem fetch_cases {s : State} {w : CodeWord} (h : s.fetch = some w) :
    s.rstAsserted = false ∧
    ((s.nextTurn = .engine ∧ w = .stage s.stage) ∨
     (s.nextTurn = .host ∧ ∃ op ops, s.host = op :: ops ∧ w = hostCodeWord op)) := by
  unfold State.fetch at h
  split at h
  · cases h
  · rename_i hr
    refine ⟨by simpa using hr, ?_⟩
    split at h
    · rename_i hn
      cases hh : s.host with
      | nil => simp [hh] at h
      | cons op ops => exact .inr ⟨hn, op, ops, rfl, by simpa [hh] using h.symm⟩
    · rename_i hn
      exact .inl ⟨hn, by simpa using h.symm⟩
    · cases h
    · cases h

/-- The cases of a step that goes on. -/
theorem step_cases {s t : State} (h : step s = .next t) :
    (∃ w, s.fetch = some w ∧ exec (decode s.params w) s.advance = .next t) ∨
    (s.fetch = none ∧ t = s.advance) ∨
    (s.nextTurn = .assertReset ∧ t = s.afterTurn.assertReset) ∨
    (s.nextTurn = .releaseReset ∧ t = s.afterTurn.releaseReset) := by
  have agent : agentStep s = .next t →
      (∃ w, s.fetch = some w ∧ exec (decode s.params w) s.advance = .next t) ∨ (s.fetch = none ∧ t = s.advance) := by
    intro ha
    unfold agentStep at ha
    cases hf : s.fetch with
    | none => rw [hf] at ha; exact .inr ⟨rfl, (Host.Outcome.next.inj ha).symm⟩
    | some w => rw [hf] at ha; exact .inl ⟨w, rfl, ha⟩
  unfold step at h
  cases hn : s.nextTurn <;> rw [hn] at h
  · exact (agent h).elim .inl (fun h => .inr (.inl h))
  · exact (agent h).elim .inl (fun h => .inr (.inl h))
  · exact .inr (.inr (.inl ⟨rfl, (Host.Outcome.next.inj h).symm⟩))
  · exact .inr (.inr (.inr ⟨rfl, (Host.Outcome.next.inj h).symm⟩))

/-- Releasing the reset input: the hard reset if it was asserted, otherwise nothing. -/
theorem releaseReset_cases (s : State) :
    (s.rstAsserted = true ∧ s.releaseReset = { s.hardReset with rstAsserted := false }) ∨
    (s.rstAsserted = false ∧ s.releaseReset = s) := by
  unfold State.releaseReset
  cases s.rstAsserted
  · exact .inr ⟨rfl, rfl⟩
  · exact .inl ⟨rfl, rfl⟩

/-! ## What a host's instruction does to a run -/

/-- A host's instruction that neither starts nor stops a run: it may change the host-visible control bits, and, while
the engine is idle, `MSG_LEN` and the buffer. -/
structure SideEffect (s t : State) : Prop where
  eq : t = { s with
    irqEn := t.irqEn, done := t.done, err := t.err, errCode := t.errCode, msgLen := t.msgLen
    msgBuf := t.msgBuf, responses := t.responses }
  done : t.done = true → s.done = true
  coded : (s.err = true ↔ s.errCode ≠ .none) → (t.err = true ↔ t.errCode ≠ .none)
  msgLen : s.busy = true → t.msgLen = s.msgLen
  msgBuf : s.busy = true → t.msgBuf = s.msgBuf
  bufWf : Memory.wf s.params.bufBytes s.msgBuf = true → Memory.wf s.params.bufBytes t.msgBuf = true

theorem SideEffect.refl (s : State) : SideEffect s s :=
  ⟨rfl, id, id, fun _ => rfl, fun _ => rfl, id⟩

theorem SideEffect.raise (s : State) (e : ErrCode) (he : e ≠ .none) : SideEffect s (s.raiseError e) := by
  refine ⟨?_, by simp, ?_, by simp, by simp, by simp⟩
  · unfold State.raiseError; split <;> rfl
  · intro h
    cases hs : s.err <;> simp_all

theorem command_cases {s t : State} {i : Instr}
    (hi : i = .cmdNop ∨ i = .cmdStart ∨ i = .cmdAbort ∨ i = .cmdSoftReset ∨ ∃ w, i = .cmdIllegal w)
    (h : exec i s = .next t) :
    SideEffect s t ∨ (s.busy = false ∧ s.msgLen.toNat ≤ s.params.bufBytes ∧ t = s.startRun) ∨
    (s.busy = true ∧ t = { s.forgetDatapath with stage := StageCode.idle }) ∨ t = s.softReset := by
  obtain rfl | rfl | rfl | rfl | ⟨w, rfl⟩ := hi
  · rw [exec_cmdNop h]; exact .inl (.refl s)
  · obtain ⟨_, rfl⟩ | ⟨_, _, rfl⟩ | ⟨h1, h2, rfl⟩ := exec_cmdStart h
    · exact .inl (.raise s _ (by decide))
    · exact .inl (.raise s _ (by decide))
    · exact .inr (.inl ⟨h1, h2, rfl⟩)
  · obtain ⟨h1, rfl⟩ | ⟨_, rfl⟩ := exec_cmdAbort h
    · exact .inr (.inr (.inl ⟨h1, rfl⟩))
    · exact .inl (.refl t)
  · exact .inr (.inr (.inr (exec_cmdSoftReset h)))
  · rw [exec_cmdIllegal h]; exact .inl (.raise s _ (by decide))

/-- The four things a host's instruction can do: a side effect, an accepted START, an ABORT of a run, a SOFT_RESET. -/
theorem host_cases {P : Params} {s t : State} {w : CodeWord} (hw : ∀ c, w ≠ .stage c) (h : exec (decode P w) s = .next t) :
    SideEffect s t ∨ (s.busy = false ∧ s.msgLen.toNat ≤ s.params.bufBytes ∧ t = s.startRun) ∨
    (s.busy = true ∧ t = { s.forgetDatapath with stage := StageCode.idle }) ∨ t = s.softReset := by
  cases w with
  | stage c => exact absurd rfl (hw c)
  | rd off => rw [exec_rd h]; exact .inl ⟨rfl, id, id, fun _ => rfl, fun _ => rfl, id⟩
  | cmd w =>
    refine command_cases ?_ h
    obtain ⟨_, hd⟩ | ⟨_, hd⟩ | ⟨_, hd⟩ | ⟨_, hd⟩ | ⟨_, hd⟩ := decodeCommand_cases w <;>
      simp [decode, hd, Command.instr]
  | wr off data =>
    simp only [decode, decodeWrite] at h
    split at h
    · rw [exec_wrCtrl h]; exact .inl ⟨rfl, id, id, fun _ => rfl, fun _ => rfl, id⟩
    · obtain ⟨_, h⟩ | ⟨_, h⟩ | ⟨_, h⟩ | ⟨_, h⟩ | ⟨_, h⟩ := exec_wrCmd h <;>
        exact command_cases (by simp) h
    · have ht := exec_wrStatus h
      subst ht
      refine .inl ⟨rfl, by simp +contextual, ?_, fun _ => rfl, fun _ => rfl, id⟩
      intro hc
      cases hd : data.getLsbD 2 <;> simp_all
    · obtain ⟨_, rfl⟩ | ⟨hb, rfl⟩ := exec_wrMsgLen h
      · exact .inl (.raise s _ (by decide))
      · exact .inl ⟨rfl, id, id, by simp [hb], by simp [hb], id⟩
    · obtain ⟨_, rfl⟩ | ⟨_, _, rfl⟩ | ⟨hw, hb, rfl⟩ := exec_wrBuf h
      · exact .inl (.refl t)
      · exact .inl (.raise s _ (by decide))
      · refine .inl ⟨rfl, id, id, by simp [hb], by simp [hb], fun hwf => wf_writeWord _ _ ?_ hwf⟩
        have := (bufWordBacked_iff _ _).1 hw
        simp only [bufWordAddr]
        omega
    · rw [exec_wrIgnored h]; exact .inl (.refl s)

theorem hostCodeWord_ne_stage (op : HostOp) (c : BitVec 4) : hostCodeWord op ≠ .stage c := by
  cases op <;> simp [hostCodeWord]

/-- A host's instruction goes on in every state. -/
theorem exec_host_next (P : Params) (op : HostOp) (s : State) : ∃ t, exec (decode P (hostCodeWord op)) s = .next t := by
  cases op with
  | rd off => exact ⟨_, rfl⟩
  | wr off data => exact exec_wr_next P off data s
  | poll _ _ _ => exact ⟨_, rfl⟩
  | cmd w => 
    obtain ⟨t, ht⟩ := exec_wrCmd_next w s
    refine ⟨t, ?_⟩
    rw [← ht]
    rcases decodeCommand_cases w with ⟨rfl, h⟩|⟨rfl, h⟩|⟨rfl, h⟩|⟨rfl, h⟩|⟨h0, h⟩ <;>
    simp only [exec, execWrCmd, h, decode, Command.instr, hostCodeWord]

end Sys2Proof.Machine
end

