-- ==== Sys2Proof/Tests/Slice0.lean ====
section
/-! SUPPORT. The model's own tests: the refusals of WellFormed, decoding of words written out from the spec's encodings,
one step per instruction against the vectors of 95_test_vectors.md (named in each comment), and a witness for the
hypotheses of each statement of Certificates/Slice0/Obligations.lean. -/

/- One theorem at a time: as one text with the rest of the package, many at once ask for too many threads. -/
set_option Elab.async false

namespace Sys2Proof.Tests

open Sys2Proof Sys2Proof.Machine

/-! ## Helpers -/

/-- The parameters of this hardware. -/
abbrev hw : Params := Config.thisHardware

/-- This hardware's decoder. -/
abbrev dec : CodeWord → Instr := decode hw

/-- A hardware with the least legal buffer, 64 bytes, and `MIX_CONV = SAT` (00_scope.md R2, R4). -/
def least : Params := ⟨0, .sat⟩

/-- A field of the next state; none where the machine stops. -/
def got {α : Type} (o : Outcome) (f : State → α) : Option α :=
  match o with
  | .next t => some (f t)
  | _ => none

/-- Why the machine stops; none where it goes on. -/
def stops : Outcome → Option Fault
  | .fault r => some r
  | _ => none

/-- The sixteen words of a vector of the spec. -/
def words (l : List Word) : Words := Vector.ofFn fun i => l.getD i.val 0

/-- A block that starts with the bytes given. -/
def block (l : List Byte) : Block := Vector.ofFn fun i => l.getD i.val 0

/-- After reset, with the sequencer about to perform a stage. -/
def at_ (code : BitVec 4) : State := { State.reset with stage := code }

/-- After reset, with a length. -/
def withLen (n : Word) : State := { State.reset with msgLen := n }

/-- The state words at a stage. -/
def atWith (code : BitVec 4) (S : Words) : State := { State.reset with stage := code, S := S }

/-- After reset, with the bytes of "abc" in the buffer. -/
def abc : State := { State.reset with msgBuf := [(0, 0x61), (1, 0x62), (2, 0x63)], lenL := 3, nb := 1 }

/-- `DONE`, `ERR` and the code `LEN` standing: `STATUS` reads 0x106. -/
def doneAndErr : State := { State.reset with done := true, err := true, errCode := .len }

/-! ## WellFormed refuses -/

theorem test_wf_capacity : hw.bufBytes = 4096 ∧ hw.mixConv = .wrap ∧ least.bufBytes = 64 ∧
    (⟨959, .wrap⟩ : Params).bufBytes = 61440 := by decide

/-- 00_scope.md R2: a multiple of 64 from 64 to 61440. -/
theorem test_wf_refuses_illegal_capacity : Config.legalBufBytes 0 = false ∧ Config.legalBufBytes 100 = false ∧
    Config.legalBufBytes 61504 = false ∧ Config.legalBufBytes 4096 = true := by decide

theorem test_wf_refuses_word_past_a_smaller_buffer : (Instr.wrBuf 16 0).wf least = false := by decide

theorem test_wf_refuses_register_that_is_not_reserved : (Instr.rd (.reserved 8)).wf hw = false := by decide

theorem test_wf_refuses_digest_index_as_reserved : (Instr.rd (.reserved 31)).wf hw = false := by decide

theorem test_wf_refuses_unbacked_buffer_word : (Instr.rd (.buf 1024)).wf hw = false := by decide

theorem test_wf_refuses_backed_word_as_beyond : (Instr.rd (.beyond 1023)).wf hw = false := by decide

theorem test_wf_refuses_word_past_the_window : (Instr.rd (.beyond 15360)).wf hw = false := by decide

theorem test_wf_refuses_legal_word_as_illegal : (Instr.cmdIllegal 3).wf hw = false := by decide

theorem test_wf_refuses_write_to_unbacked_word : (Instr.wrBuf 1024 0).wf hw = false := by decide

theorem test_wf_refuses_ctrl_as_ignored : (Instr.wrIgnored .ctrl 0).wf hw = false := by decide

theorem test_wf_refuses_buffer_as_ignored : (Instr.wrIgnored (.buf 0) 0).wf hw = false := by decide

theorem test_wf_refuses_ignored_target_that_is_no_offset : (Instr.wrIgnored (.reserved 8) 0).wf hw = false := by decide

theorem test_wf_refuses_stage_code_in_use : (Instr.stageReserved 0xA).wf hw = false := by decide

/-! ## Decoding: words written out bit by bit from the spec

A command word is `RSVD[31:4]`, `OPCODE[3:0]` (30_encoding.md R94); an offset is `off[15:2]` and two ignored bits (R91);
a stage code is the four bits of R100. -/

theorem test_decode_commands :
    dec (.cmd 0b00000000000000000000000000000000) = .cmdNop ∧
    dec (.cmd 0b00000000000000000000000000000001) = .cmdStart ∧
    dec (.cmd 0b00000000000000000000000000000010) = .cmdAbort ∧
    dec (.cmd 0b00000000000000000000000000000011) = .cmdSoftReset ∧
    dec (.cmd 0b00000000000000000000000000000100) = .cmdIllegal 4 ∧
    dec (.cmd 0b00000000000000000000000000010001) = .cmdIllegal 17 ∧
    dec (.cmd 0b10000000000000000000000000000000) = .cmdIllegal 0x80000000 := by decide

theorem test_decode_reads :
    dec (.rd 0b0000000000000100) = .rd .version ∧ dec (.rd 0b0000000000001011) = .rd .cfg ∧
    dec (.rd 0b0000000000011000) = .rd .msgLen ∧ dec (.rd 0b0000000000011100) = .rd .seed ∧
    dec (.rd 0b0000000000100000) = .rd .blkcnt ∧ dec (.rd 0b0000000000100100) = .rd (.reserved 9) ∧
    dec (.rd 0b0000000001000000) = .rd (.digest 0) ∧ dec (.rd 0b0000000010000000) = .rd (.reserved 32) ∧
    dec (.rd 0b0001000000000000) = .rd (.buf 0) ∧ dec (.rd 0b0001111111111111) = .rd (.buf 1023) ∧
    dec (.rd 0b1111111111111111) = .rd (.beyond 15359) := by decide

theorem test_decode_writes (d : Word) :
    dec (.wr 0b0000000000001100 d) = .wrCtrl d ∧ dec (.wr 0b0000000000010000 d) = .wrCmd d ∧
    dec (.wr 0b0000000000010100 d) = .wrStatus d ∧ dec (.wr 0b0000000000011000 d) = .wrMsgLen d ∧
    dec (.wr 0b0001000000000100 d) = .wrBuf 1 d ∧ dec (.wr 0b0000000000000000 d) = .wrIgnored .id d ∧
    dec (.wr 0b0010000000000000 d) = .wrIgnored (.beyond 1024) d := ⟨rfl, rfl, rfl, rfl, rfl, rfl, rfl⟩

theorem test_decode_stages :
    dec (.stage 0b0000) = .stageIdle ∧ dec (.stage 0b0001) = .stageSeed ∧
    dec (.stage 0b0010) = .stageInit ∧ dec (.stage 0b0011) = .stageLoad ∧
    dec (.stage 0b0100) = .stageParams ∧ dec (.stage 0b0101) = .stageAbsorb ∧
    dec (.stage 0b0110) = .stageNlmix ∧ dec (.stage 0b0111) = .stagePermgen ∧
    dec (.stage 0b1000) = .stagePermute ∧ dec (.stage 0b1001) = .stageDiffuse ∧
    dec (.stage 0b1010) = .stageCompress ∧ dec (.stage 0b1011) = .stageReserved 0xB ∧
    dec (.stage 0b1111) = .stageReserved 0xF := by decide

/-- The numbers of the opcode table: a command row has 32 bits, a write row 16, a stage row 8 (bits 7:4). -/
theorem test_table_words :
    decodeTableWord 32 0x1 = some .cmdStart ∧ decodeTableWord 32 0x11 = some (.cmdIllegal 0x11) ∧
    decodeTableWord 16 0x000C = some (.wrCtrl 0) ∧ decodeTableWord 16 0x0010 = some (.wrCmd 0) ∧
    decodeTableWord 16 0x0014 = some (.wrStatus 0) ∧ decodeTableWord 16 0x0018 = some (.wrMsgLen 0) ∧
    decodeTableWord 16 0x1000 = some (.wrBuf 0 0) ∧ decodeTableWord 16 0x0000 = some (.wrIgnored .id 0) ∧
    decodeTableWord 56 0x1000000000014 = some (.rd .status) ∧ decodeTableWord 8 0x30 = some .stageLoad ∧
    decodeTableWord 8 0xB0 = some (.stageReserved 0xB) ∧ decodeTableWord 24 0 = none := by decide +kernel

theorem test_bytes_rejected_by_name :
    decodeBytes hw [] = .error (.recordLength 0) ∧
    decodeBytes hw [0x14, 0, 0, 0, 0, 0, 2] = .error (.direction 2) ∧
    decodeBytes hw [0x14, 0, 1, 0, 0, 0, 1] = .error (.readWithData 1) := by decide

theorem test_step_runs_the_word_placed :
    got (step (State.reset.withFetchWord 16 0x1000)) (·.bufByte 3) = some 0 ∧
    got (step (State.reset.withFetchWord 32 0x11)) (·.errCode) = some .cmd ∧
    stops (step (State.reset.withFetchWord 8 0xB0)) = some (.reservedStage 0xB) := by decide +kernel

/-! ## Commands (95_test_vectors.md section 12) -/

/-- V-CMD-14. -/
theorem test_nop : got (exec .cmdNop (at_ 6)) (·.statusWord) = some 0x61 := by decide +kernel

/-- V-CMD-8. -/
theorem test_start : got (exec .cmdStart (withLen 3)) (fun t => (t.statusWord, t.lenL, t.nb, t.blk)) =
    some (0x11, 3, 1, 0) := by decide +kernel

/-- V-ERR-1, and V-CMD-10: 4096 is legal and 4097 is not. -/
theorem test_start_length :
    got (exec .cmdStart (withLen 4097)) (·.statusWord) = some 0x104 ∧
    got (exec .cmdStart (withLen 4096)) (fun t => (t.statusWord, t.nb)) = some (0x11, 65) := by decide +kernel

/-- 60_exceptions.md R301 with `MSG_BUF_BYTES = 64`, where 64 is legal and 65 is not. -/
theorem test_start_length_of_a_smaller_buffer :
    got (exec .cmdStart { State.resetAt least with msgLen := 65 }) (·.statusWord) = some 0x104 ∧
    got (exec .cmdStart { State.resetAt least with msgLen := 64 }) (fun t => (t.statusWord, t.nb)) =
      some (0x11, 2) := by decide +kernel

/-- V-CMD-16. -/
theorem test_abort : got (exec .cmdAbort (at_ 3)) (·.statusWord) = some 0 := by decide +kernel

/-- V-CMD-17: every register cleared, `MSG_BUF` kept. -/
theorem test_soft_reset :
    got (exec .cmdSoftReset { abc with done := true, seed := 5, blkcnt := 1, irqEn := true, msgLen := 3 })
      (fun t => (t.statusWord, t.ctrlWord, t.msgLen, t.seed, t.bufByte 2)) = some (0, 0, 0, 0, 0x63) := by
  decide +kernel

/-- V-ERR-4. -/
theorem test_illegal : got (exec (dec (.wr 0x010 0x11)) State.reset) (·.statusWord) = some 0x304 := by
  decide +kernel

/-- V-ERR-10, V-ERR-11. -/
theorem test_illegal_priority :
    got (exec (.wrCmd 5) (at_ 1)) (·.statusWord) = some 0x315 ∧
    got (exec (.wrCmd 7) { State.reset with err := true, errCode := .len }) (·.statusWord) = some 0x104 := by
  decide +kernel

/-! ## Transactions -/

/-- V-CMD-1, V-CMD-2, V-CMD-3, V-CMD-6, V-CMD-7. -/
theorem test_read_identity :
    got (exec (dec (.rd 0x000)) State.reset) (·.responses) = some [0x43485348] ∧
    got (exec (dec (.rd 0x004)) State.reset) (·.responses) = some [0x00070001] ∧
    got (exec (dec (.rd 0x008)) State.reset) (·.responses) = some [0x00001000] ∧
    got (exec (dec (.rd 0x010)) State.reset) (·.responses) = some [0] ∧
    got (exec (dec (.rd 0x024)) State.reset) (·.responses) = some [0] ∧
    got (exec (dec (.rd 0x2000)) State.reset) (·.responses) = some [0] := by decide +kernel

/-- 10_state.md R35 and 20_memory.md R67 with `MSG_BUF_BYTES = 64`: `CFG`, the last byte's word, the first word beyond. -/
theorem test_smaller_buffer :
    (State.resetAt least).readTarget .cfg = 0x00000040 ∧ decode least (.rd 0x103F) = .rd (.buf 15) ∧
    decode least (.rd 0x1040) = .rd (.beyond 16) := by decide +kernel

/-- V-CMD-18, with the buffer of P2. -/
theorem test_read_buffer_busy :
    got (exec (dec (.rd 0x1000)) { abc with msgBuf := abc.msgBuf ++ [(3, 0)], stage := 3 })
      (fun t => (t.responses, t.statusWord)) = some ([0x61626300], 0x31) := by decide +kernel

/-- V-CMD-4. -/
theorem test_write_ctrl : got (exec (.wrCtrl 0xffffffff) State.reset) (·.ctrlWord) = some 1 := by decide +kernel

/-- V-ERR-13: a standing error does not block START. -/
theorem test_write_cmd :
    got (exec (.wrCmd 1) { withLen 3 with err := true, errCode := .len }) (·.statusWord) = some 0x115 := by
  decide +kernel

/-- V-CMD-11, V-CMD-12. -/
theorem test_write_status :
    got (exec (.wrStatus 2) doneAndErr) (·.statusWord) = some 0x104 ∧
    got (exec (.wrStatus 6) doneAndErr) (·.statusWord) = some 0 := by decide +kernel

/-- V-CMD-13: bit 0 is read-only. -/
theorem test_write_status_busy_bit :
    got (exec (.wrStatus 1) { State.reset with done := true }) (·.statusWord) = some 2 := by decide +kernel

/-- V-ERR-7. -/
theorem test_write_msg_len_busy :
    got (exec (.wrMsgLen 5) { at_ 6 with msgLen := 3 }) (fun t => (t.statusWord, t.msgLen)) = some (0x265, 3) := by
  decide +kernel

/-- V-ERR-8. -/
theorem test_write_buffer_busy :
    got (exec (dec (.wr 0x1000 0)) { abc with stage := 3 }) (fun t => (t.statusWord, t.bufByte 0)) =
      some (0x235, 0x61) := by decide +kernel

/-- P2 line 1: `LOAD_MSG "abc"`. -/
theorem test_write_buffer :
    got (exec (dec (.wr 0x1000 0x61626300)) State.reset) (·.msgBuf) =
      some [(0, 0x61), (1, 0x62), (2, 0x63), (3, 0x00)] := by decide +kernel

/-- V-CMD-5. -/
theorem test_write_ignored :
    got (exec (dec (.wr 0x000 0x12345678)) State.reset) (·.readTarget .id) = some 0x43485348 := by decide +kernel

/-! ## Stages -/

/-- 40_commands.md R130: while idle the engine has no step. -/
theorem test_idle : got (exec .stageIdle (withLen 3)) (·.statusWord) = some 0 := by decide +kernel

/-- V-SEED-2. -/
theorem test_seed_one_byte :
    got (exec .stageSeed { State.reset with msgBuf := [(0, 0)], lenL := 1, stage := 1 })
      (fun t => (t.seed, t.stage)) = some (0x9e3779f8, 2) := by decide +kernel

/-- V-SEED-7. -/
theorem test_seed_abc : got (exec .stageSeed { abc with stage := 1 }) (·.seed) = some 0xfbeabc46 := by decide +kernel

/-- V-INIT-3. -/
theorem test_init :
    got (exec .stageInit { at_ 2 with seed := 0xfbeabc46 }) (fun t => (t.S, t.stage)) =
      some (words [0x970582d8, 0xc20c1ffd, 0xc71ee4ad, 0xa6b5405e, 0xf8b89362, 0x2f92132f, 0x50b44487, 0x371fd9d9,
        0x006f64c1, 0x1a30480e, 0x433bbaf6, 0xb81341fb, 0xb7bddd07, 0x14445dbf, 0x1a08704e, 0xe0c8b027], 3) := by
  decide +kernel

/-- V-PAD, L = 3. -/
theorem test_load_abc :
    got (exec .stageLoad { abc with stage := 3 }) (fun t => (t.blkr, t.stage)) =
      some (block [0x61, 0x62, 0x63, 0x80], 4) := by decide +kernel

/-- V-PAD, L = 64, block 1: the sentinel, and no buffer byte is read. -/
theorem test_load_sentinel_block :
    got (exec .stageLoad { at_ 3 with lenL := 64, nb := 2, blk := 1 }) (·.blkr) = some (block [0x80]) := by
  decide +kernel

/-- V-PARAMS, "The quick br". -/
theorem test_params :
    got (exec .stageParams { at_ 4 with
      blkr := block [0x54, 0x68, 0x65, 0x20, 0x71, 0x75, 0x69, 0x63, 0x6b, 0x20, 0x62, 0x72] })
      (fun t => (t.a, t.b, t.c, t.stage)) = some (0x54686520, 0x71756963, 0x6b206272, 5) := by decide +kernel

/-- V-ABSORB-2. -/
theorem test_absorb :
    got (exec .stageAbsorb { atWith 5 (words [0x970582d8, 0xc20c1ffd]) with blkr := block [0x61, 0x62, 0x63, 0x80] })
      (fun t => (t.S, t.stage)) = some (words [0xf867e658, 0xc20c1ffd], 6) := by decide +kernel

/-- V-ABSORB-1: the sum wraps, in the last word. -/
theorem test_absorb_wraps :
    got (exec .stageAbsorb { atWith 5 (Vector.replicate 16 0xffffffff) with
      blkr := Vector.ofFn fun i => if i.val = 63 then 2 else 0 }) (·.S.get 15) = some 1 := by decide +kernel

/-- V-NLMIX-1, the whole stage. -/
theorem test_nlmix :
    got (exec .stageNlmix { atWith 6 (words [0x59f253a1, 0x53b0c6cb, 0x580f7322, 0xf2f9bac2, 0x5136d726, 0xa9f699db,
        0x647f579e, 0xf9f7642f, 0x714fd324, 0x018b5f53, 0x171174bb, 0x18494efd, 0xe885b492, 0xf223318b, 0x8f37a62d,
        0x90041364]) with a := 0x54686520, b := 0x71756963, c := 0x6b206272 }) (fun t => (t.S, t.stage)) =
      some (words [0xc5088029, 0x0bdc6d3d, 0x7d214166, 0xeee7c3eb, 0x724fdf76, 0x08fbef60, 0x9bd802e2, 0xc12e18fb,
        0xd9b4a24e, 0x540f4105, 0x7e356164, 0x7df12232, 0xb223aece, 0x41c6ab4d, 0x29c1d533, 0x3e33ff96], 7) := by
  decide +kernel

/-- V-NL-3, V-NL-4, V-NL-5, V-NL-8, V-NL-9, V-NL-10, V-NL-11 as one stage would not fit: lanes. -/
theorem test_nlmix_lanes :
    nlLane sin64 .wrap 4 1 0 0x64 = 0xffffffb8#32 ∧ nlLane sin64 .wrap 1 1 0 0xffffffff = 0xd76aa478#32 ∧
    nlLane sin64 .sat 4 1 0 0xffffffff = 0x80000004#32 ∧ nlLane sin64 .indef 1 1 0 0xffffffff = 0x80000001#32 ∧
    nlLane sin64 .wrap 0x12345678 0x61626380 0 0x6b206272 = 0x4fb8cb12#32 ∧
    nlLane sin64 .wrap 2 0xffffffff 0 0xffffffff = 0x2348ff9d#32 ∧
    nlLane sin64 .wrap 0xffffffff 0xffffffff 0 0x7fffffff = 0x6a97c548#32 ∧
    nlLane sin64 .wrap 0x80000000 0x80000000 0 0 = 0x80000000#32 := by decide +kernel

/-- V-NL-4 in the stage, with each setting of `MIX_CONV` that the state can hold (00_scope.md R4). -/
theorem test_nlmix_settings :
    let run := fun conv => got (exec .stageNlmix { State.resetAt ⟨63, conv⟩ with
      S := words [1], a := 1, c := 0xffffffff, stage := 6 }) (·.S.get 0)
    run .wrap = some 0xd76aa478 ∧ run .sat = some 0x80000000 ∧ run .indef = some 0x80000001 := by decide +kernel

/-- V-PERM-1. -/
theorem test_permgen_zero :
    got (exec .stagePermgen (at_ 7)) (fun t => (t.perm.toList, t.stage)) =
      some ([12, 10, 14, 6, 4, 5, 3, 8, 11, 9, 1, 13, 0, 7, 2, 15], 8) := by decide +kernel

/-- V-PERM-4. -/
theorem test_permgen_abc :
    got (exec .stagePermgen { at_ 7 with blkr := block [0x61, 0x62, 0x63, 0x80] }) (·.perm.toList) =
      some [4, 14, 0, 3, 12, 10, 2, 7, 8, 1, 9, 11, 6, 5, 13, 15] := by decide +kernel

/-- V-PERMUTE-2. -/
theorem test_permute :
    got (exec .stagePermute { atWith 8 (words [0xf867e658, 0xc20c1ffd, 0xc71ee4ad, 0xa6b5405e, 0xf8b89362, 0x2f92132f,
        0x50b44487, 0x371fd9d9, 0x006f64c1, 0x1a30480e, 0x433bbaf6, 0xb81341fb, 0xb7bddd07, 0x14445dbf, 0x1a08704e,
        0xe0c8b027]) with
        perm := Vector.ofFn fun i => [4, 14, 0, 3, 12, 10, 2, 7, 8, 1, 9, 11, 6, 5, 13, 15].getD i.val 0 })
      (fun t => (t.S, t.stage)) =
      some (words [0xf8b89362, 0x1a08704e, 0xf867e658, 0xa6b5405e, 0xb7bddd07, 0x433bbaf6, 0xc71ee4ad, 0x371fd9d9,
        0x006f64c1, 0xc20c1ffd, 0x1a30480e, 0xb81341fb, 0x50b44487, 0x2f92132f, 0x14445dbf, 0xe0c8b027], 9) := by
  decide +kernel

/-- V-DIFF-3, the last block of a run. -/
theorem test_diffuse :
    got (exec .stageDiffuse { atWith 9 (Vector.ofFn fun i => BitVec.ofNat 32 i.val) with nb := 1 })
      (fun t => (t.S, t.blkcnt, t.stage)) =
      some (words [0x00000001, 0x00000005, 0x0000000e, 0x00000023, 0x00000054, 0x000000c5, 0x000001c6, 0x00000407,
        0x00000908, 0x00001409, 0x00002c0a, 0x0000600b, 0x0000d00c, 0x0001c00d, 0x0003c00e, 0x0000000f], 1, 0xA) := by
  decide +kernel

/-- V-DIFF-2: rotations by 31 and by 0. P3: after block 0 of two, the next stage is LOAD. -/
theorem test_diffuse_more_blocks :
    got (exec .stageDiffuse { atWith 9 ((words [0x1f, 3]).set 15 0x21) with nb := 2 })
      (fun t => (t.S.get 0, t.S.get 14, t.S.get 15, t.stage)) = some (0x8000001e, 0x21, 0x1f, 3) := by decide +kernel

/-- P1 E10: `STATUS` after COMPRESS. -/
theorem test_compress :
    got (exec .stageCompress (atWith 0xA (words [0xe45a4c8d]))) (fun t => (t.digest.get 0, t.statusWord)) =
      some (0xe45a4c8d, 2) := by decide +kernel

/-- V-COMP-1. -/
theorem test_serialize :
    (serialize (Vector.replicate 16 0xe45a4c8d)).take 4 = [0xe4, 0x5a, 0x4c, 0x8d] ∧
    (serialize (Vector.replicate 16 0xc5cbc834)).drop 60 = [0xc5, 0xcb, 0xc8, 0x34] := by decide +kernel

/-- 30_encoding.md R101: the model faults. -/
theorem test_reserved_stage : stops (exec (.stageReserved 0xF) (at_ 0xF)) = some (.reservedStage 0xF) := by
  decide +kernel

/-- 70_reset_and_hazards.md R340: released after it was asserted. -/
theorem test_reset_release :
    got (step { withLen 3 with turns := [.releaseReset], rstAsserted := true, blkcnt := 7 })
      (fun t => (t.msgLen, t.blkcnt, t.rstAsserted)) = some (0, 0, false) := by decide +kernel

/-- 30_encoding.md R104: the expansion of `LOAD_MSG`, as P2 and P3 write it. -/
theorem test_load_msg :
    expandLine (.loadMsg [0x61, 0x62, 0x63]) = [.wr 0x1000 0x61626300] ∧
    expandLine (.loadMsg [0, 1, 2, 3, 4, 5, 6, 7]) = [.wr 0x1000 0x00010203, .wr 0x1004 0x04050607] := by decide

/-! ## Witnesses: a state and operands that meet the hypotheses of each statement, clause by clause -/

/-- A run of the empty message, accepted right after reset. -/
def started : State := State.reset.startRun

theorem started_inv : started.Inv where
  bufCanonical := by decide
  stageLegal := by decide
  errCoded := by decide
  runNotDone := by decide
  runLength := by decide
  runBlocks := by decide
  runCount := by decide
  runIndex := fun _ => by unfold State.blockInRange; decide
  permBijective := fun h => absurd h (by decide)

theorem next_of_got {o : Outcome} (h : got o (fun _ => ()) = some ()) : ∃ t, o = .next t := by
  cases o with
  | next t => exact ⟨t, rfl⟩
  | fault r => cases h
  | refused r => cases h

theorem witness_DecodeOfEncode :
    ∀ i ∈ [Instr.cmdNop, .cmdIllegal 4, .cmdIllegal 0xffffffff, .rd .id, .rd (.digest 15), .rd (.reserved 9),
        .rd (.reserved 15), .rd (.reserved 32), .rd (.reserved 1023), .rd (.buf 0), .rd (.buf 1023),
        .rd (.beyond 1024), .rd (.beyond 15359), .wrCtrl 1, .wrCmd 0xffffffff, .wrStatus 6, .wrMsgLen 4097],
      i.wf hw = true := by decide

theorem witness_DecodeOfEncode_writes_and_stages :
    ∀ i ∈ [Instr.wrBuf 0 0, .wrBuf 1023 0xffffffff, .wrIgnored .id 0, .wrIgnored (.digest 0) 5,
        .wrIgnored (.reserved 9) 5, .wrIgnored (.beyond 15359) 5, .stageIdle, .stageCompress, .stageReserved 0xB,
        .stageReserved 0xF],
      i.wf hw = true := by decide

/-- One offset at each end of each clause of OffsetDecodeFollowsTheMap, unaligned ones among them. -/
theorem witness_OffsetDecode :
    ((0x0003 : Offset).toNat / 4 * 4 = 0x000 ∧ (0x0007 : Offset).toNat / 4 * 4 = 0x004 ∧
      (0x000B : Offset).toNat / 4 * 4 = 0x008 ∧ (0x000F : Offset).toNat / 4 * 4 = 0x00C ∧
      (0x0013 : Offset).toNat / 4 * 4 = 0x010 ∧ (0x0017 : Offset).toNat / 4 * 4 = 0x014 ∧
      (0x001B : Offset).toNat / 4 * 4 = 0x018 ∧ (0x001F : Offset).toNat / 4 * 4 = 0x01C ∧
      (0x0023 : Offset).toNat / 4 * 4 = 0x020) ∧
    ((0x0040 : Offset).toNat / 4 * 4 = 0x040 + 4 * (0 : Fin 16).val ∧
      (0x007F : Offset).toNat / 4 * 4 = 0x040 + 4 * (15 : Fin 16).val) ∧
    (∀ off ∈ [(0x0024 : Offset), 0x003F], 0x024 ≤ off.toNat / 4 * 4 ∧ off.toNat / 4 * 4 ≤ 0x03C) ∧
    (∀ off ∈ [(0x0080 : Offset), 0x0FFF], 0x080 ≤ off.toNat / 4 * 4 ∧ off.toNat / 4 * 4 ≤ 0xFFC) ∧
    (∀ off ∈ [(0x1000 : Offset), 0x1FFF], 0x1000 ≤ off.toNat / 4 * 4 ∧ off.toNat / 4 * 4 < 0x1000 + 4096) ∧
    (∀ off ∈ [(0x2000 : Offset), 0xFFFF], 0x1000 + 4096 ≤ off.toNat / 4 * 4) ∧
    (∀ off ∈ [(0x1040 : Offset), 0xFFFF], 0x1000 + 64 ≤ off.toNat / 4 * 4) := by simp

/-- The capacities that the witnesses write as numbers. -/
theorem witness_capacity : hw.bufBytes = 4096 ∧ State.reset.params = hw ∧ least.bufBytes = 64 := ⟨rfl, rfl, rfl⟩

theorem witness_IllegalCommandWords :
    ((0x00000010 : Word).extractLsb' 4 28 ≠ 0#28) ∧ 4 ≤ ((0x00000004 : Word).extractLsb' 0 4).toNat ∧
    4 ≤ ((0x0000000F : Word).extractLsb' 0 4).toNat ∧ (0x80000003 : Word).extractLsb' 4 28 ≠ 0#28 := by decide

/-- A state for each clause of StepRunsTheDecodedInstruction. -/
theorem witness_StepRuns :
    (∃ s : State, s.rstAsserted = false ∧ s.turns = [.host] ∧ s.host = [.rd 0x014] ∧
      ∀ o m v, HostOp.rd 0x014 ≠ .poll o m v) ∧
    (∃ s : State, s.rstAsserted = false ∧ s.turns = [.engine, .host]) ∧
    (∃ s : State, s.rstAsserted = false ∧ s.turns = [] ∧ s.busy = true) ∧
    (∃ s : State, s.rstAsserted = false ∧ s.turns = [] ∧ s.busy = false ∧ s.host = [.cmd 1] ∧
      ∀ o m v, HostOp.cmd 1 ≠ .poll o m v) ∧
    (∃ s : State, s.rstAsserted = false ∧ s.turns = [.host] ∧ s.host = []) :=
  ⟨⟨{ State.reset with turns := [.host], host := [.rd 0x014] }, rfl, rfl, rfl, by simp⟩,
    ⟨{ State.reset with turns := [.engine, .host] }, rfl, rfl⟩, ⟨at_ 6, rfl, rfl, by decide⟩,
    ⟨{ State.reset with host := [.cmd 1] }, rfl, rfl, by decide, rfl, by simp⟩,
    ⟨{ State.reset with turns := [.host] }, rfl, rfl, rfl⟩⟩

/-- WAIT_IDLE (30_encoding.md R104) on a scheduled turn while busy and while idle, and with no turn scheduled: satisfied,
and a POLL for BUSY that is not. -/
theorem witness_Poll :
    (∃ s : State, s.rstAsserted = false ∧ s.turns.head? = some .host ∧ s.host = [.poll 0x014 1 0] ∧
      s.readTarget (decodeOff s.params 0x014) &&& 1 ≠ 0) ∧
    (∃ s : State, s.rstAsserted = false ∧ s.turns.head? = some .host ∧ s.host = [.poll 0x014 1 0] ∧
      s.readTarget (decodeOff s.params 0x014) &&& 1 = 0) ∧
    (∃ s : State, s.rstAsserted = false ∧ (s.turns = [] ∧ s.busy = false) ∧ s.host = [.poll 0x014 1 0] ∧
      s.readTarget (decodeOff s.params 0x014) &&& 1 = 0) ∧
    (∃ s : State, s.rstAsserted = false ∧ (s.turns = [] ∧ s.busy = false) ∧ s.host = [.poll 0x014 1 1] ∧
      s.readTarget (decodeOff s.params 0x014) &&& 1 ≠ 1) :=
  ⟨⟨{ at_ 3 with turns := [.host], host := [.poll 0x014 1 0] }, rfl, rfl, rfl, by decide⟩,
    ⟨{ State.reset with turns := [.host], host := [.poll 0x014 1 0] }, rfl, rfl, rfl, by decide⟩,
    ⟨{ State.reset with host := [.poll 0x014 1 0] }, rfl, ⟨rfl, by decide⟩, rfl, by decide⟩,
    ⟨{ State.reset with host := [.poll 0x014 1 1] }, rfl, ⟨rfl, by decide⟩, rfl, by decide⟩⟩

theorem witness_WriteToCmd :
    (0x0010 : Offset).toNat / 4 * 4 = 0x010 ∧ (0x0013 : Offset).toNat / 4 * 4 = 0x010 := by decide

theorem witness_HardReset :
    (∃ s : State, s.rstAsserted = true ∧ s.nextTurn = .host) ∧
    (∃ s : State, s.rstAsserted = true ∧ s.nextTurn = .engine) ∧
    (∃ s : State, s.turns = [.assertReset]) ∧
    (∃ s : State, s.rstAsserted = true ∧ s.turns = [.releaseReset]) :=
  ⟨⟨{ State.reset with rstAsserted := true }, rfl, by decide⟩, ⟨{ at_ 6 with rstAsserted := true }, rfl, by decide⟩,
    ⟨{ State.reset with turns := [.assertReset] }, rfl⟩,
    ⟨{ at_ 6 with rstAsserted := true, turns := [.releaseReset] }, rfl, rfl⟩⟩

theorem witness_BufferRead :
    (0x1000 ≤ (0x1000 : Offset).toNat ∧ (0x1000 : Offset).toNat < 0x1000 + 4096) ∧
    (0x1000 ≤ (0x1FFF : Offset).toNat ∧ (0x1FFF : Offset).toNat < 0x1000 + 4096) := by decide

/-- An idle and a busy state: WriteMsgLenStoresOrIsRefused, WriteBufferStoresFourBytes, InstructionsWithoutEffect. -/
theorem witness_idle_and_busy : State.reset.busy = false ∧ started.busy = true := by decide

theorem witness_WriteBuffer :
    (0 : BitVec 14).toNat < 4096 / 4 ∧ (1023 : BitVec 14).toNat < 4096 / 4 ∧
    Memory.wf 4096 abc.msgBuf = true ∧ Memory.wf 4096 [(4095, 1)] = true := by decide +kernel

theorem witness_WithoutEffect :
    (decodeOff hw 0x0000).writeIgnored = true ∧ (decodeOff hw 0x0023).writeIgnored = true ∧
    (decodeOff hw 0x0024).writeIgnored = true ∧ (decodeOff hw 0x007F).writeIgnored = true ∧
    (decodeOff hw 0x0FFF).writeIgnored = true ∧ (decodeOff hw 0x2000).writeIgnored = true ∧
    (decodeOff hw 0xFFFF).writeIgnored = true ∧ 4096 / 4 ≤ (1024 : BitVec 14).toNat := by decide

/-- While idle the write is stored, while busy it is refused: both go on. -/
theorem witness_Repeated :
    Memory.wf 4096 State.reset.msgBuf = true ∧ (∃ t, exec (.wrCtrl 1) started = .next t) ∧
    (∃ t, exec (.wrMsgLen 5) State.reset = .next t) ∧ (∃ t, exec (.wrMsgLen 5) started = .next t) ∧
    (∃ t, exec (.wrBuf 1023 5) State.reset = .next t) ∧ (∃ t, exec (.wrBuf 1023 5) started = .next t) :=
  ⟨by decide, next_of_got (by decide +kernel), next_of_got (by decide +kernel), next_of_got (by decide +kernel),
    next_of_got (by decide +kernel), next_of_got (by decide +kernel)⟩

theorem witness_error_and_none : State.reset.err = false ∧ State.reset.errCode = .none ∧ doneAndErr.err = true :=
  ⟨rfl, rfl, rfl⟩

/-- ErrorPriorityOfOneTransaction at the edges of its cases. -/
theorem witness_ErrorPriority :
    started.err = false ∧ started.errCode = .none ∧
    got (exec (.wrCmd 4) started) (·.errCode) = some .cmd ∧ got (exec (.wrCmd 1) started) (·.errCode) = some .busy ∧
    got (exec (.wrCmd 1) (withLen 4097)) (·.errCode) = some .len ∧
    got (exec (.wrCmd 1) (withLen 4096)) (·.errCode) = some .none ∧
    got (exec (.wrCmd 3) started) (·.errCode) = some .none ∧
    got (exec (.wrMsgLen 4097) State.reset) (·.errCode) = some .none ∧
    got (exec (.wrBuf 1023 0) started) (·.errCode) = some .busy ∧
    got (exec (.wrBuf 1024 0) started) (·.errCode) = some .none := by decide +kernel

theorem witness_BusyErrors :
    started.busy = true ∧ started.err = false ∧ started.errCode = .none ∧
    (∃ t, exec (.rd .status) started = .next t) ∧ (∃ t, exec .cmdAbort started = .next t) ∧
    (∃ t, exec (.wrStatus 6) started = .next t) :=
  ⟨by decide, rfl, rfl, next_of_got (by decide +kernel), next_of_got (by decide +kernel), next_of_got (by decide +kernel)⟩

theorem witness_Start :
    (withLen 0).busy = false ∧ (withLen 0).msgLen.toNat ≤ 4096 ∧ (withLen 4096).busy = false ∧
    (withLen 4096).msgLen.toNat ≤ 4096 ∧ 4096 < (withLen 4097).msgLen.toNat ∧ (withLen 4097).busy = false := by decide

/-- Each clause of OnlyTheHostClearsAnError. -/
theorem witness_OnlyTheHostClears :
    (doneAndErr.err = true ∧ got (exec (.wrStatus 4) doneAndErr) (·.err) = some false ∧
      (4 : Word).getLsbD 2 = true) ∧
    got (exec .cmdSoftReset doneAndErr) (·.err) = some false ∧
    got (exec (.wrCmd 3) doneAndErr) (·.err) = some false ∧
    doneAndErr.busy = false ∧ doneAndErr.msgLen.toNat ≤ 4096 := by decide +kernel

/-- The level of `irq` after an instruction, on the machine given with the enable set. -/
def irqAfter (i : Instr) (s : State) : Option Bool := got (exec i { s with irqEn := true }) State.irq

/-- The events that raise `irq` in IrqFollowsDoneAndErr: a completion, CMD, BUSY by its three instructions, LEN. -/
theorem witness_Irq_raised :
    irqAfter .cmdNop started = some false ∧ irqAfter .stageCompress started = some true ∧
    irqAfter (.cmdIllegal 4) started = some true ∧ irqAfter .cmdStart started = some true ∧
    irqAfter (.wrMsgLen 5) started = some true ∧ irqAfter (.wrBuf 1023 5) started = some true ∧
    irqAfter .cmdStart (withLen 4097) = some true := by decide +kernel

/-- A machine with `DONE` alone standing. -/
def doneOnly : State := { State.reset with done := true }

/-- The events that lower `irq`, each from a state in which it stands: an accepted START, a clear of `DONE` or `ERR` or
both, a soft and a hard reset; and ABORT, which keeps it. -/
theorem witness_Irq_lowered :
    irqAfter .cmdNop doneOnly = some true ∧ irqAfter .cmdStart doneOnly = some false ∧
    irqAfter (.wrStatus 2) doneOnly = some false ∧ irqAfter (.wrStatus 2) doneAndErr = some true ∧
    irqAfter (.wrStatus 4) doneAndErr = some true ∧ irqAfter (.wrStatus 6) doneAndErr = some false ∧
    irqAfter .cmdSoftReset doneAndErr = some false ∧ irqAfter .cmdAbort { started with err := true } = some true ∧
    got (step { doneAndErr with irqEn := true, rstAsserted := true, turns := [.releaseReset] }) State.irq =
      some false := by decide +kernel

/-- A write of the enable moves `irq` both ways. -/
theorem witness_Irq_enable :
    doneAndErr.irq = false ∧ got (exec (.wrCtrl 1) doneAndErr) State.irq = some true ∧
    irqAfter (.wrCtrl 0) doneAndErr = some false := by decide +kernel

/-- SEED and LOAD: a length the buffer holds, one more, and LOAD's two outcomes at 4097. -/
theorem witness_lengths :
    (4096 : Word).toNat ≤ 4096 ∧ 4096 < (4097 : Word).toNat ∧
    (64 * (64 : Word).toNat + (0 : Fin 64).val < (4097 : Word).toNat ∧ 4096 ≤ 64 * (64 : Word).toNat + (0 : Fin 64).val) ∧
    (∀ m : Fin 64, 64 * (65 : Word).toNat + m.val < (4097 : Word).toNat → 64 * (65 : Word).toNat + m.val < 4096) ∧
    (∀ m : Fin 64, 64 * (63 : Word).toNat + m.val < (4097 : Word).toNat → 64 * (63 : Word).toNat + m.val < 4096) := by
  decide

/-- The last byte number below the padded length: of block 0 where `L = 63`, of block 1 where `L = 64`. -/
theorem witness_Load :
    64 * (0 : Word).toNat + (63 : Fin 64).val < 64 * ((63 : Word).toNat / 64 + 1) ∧
    64 * (1 : Word).toNat + (63 : Fin 64).val < 64 * ((64 : Word).toNat / 64 + 1) := by decide

/-- At the ends of a block: `L = 63` and `L = 64`. -/
theorem witness_PaddedLength : 64 % 64 = 0 ∧ 63 + 1 ≤ 64 ∧ 128 % 64 = 0 ∧ 64 + 1 ≤ 128 := by decide

theorem witness_Absorb :
    (60 : Fin 64).val = 4 * (15 : Fin 16).val ∧ (61 : Fin 64).val = (60 : Fin 64).val + 1 ∧
    (62 : Fin 64).val = (61 : Fin 64).val + 1 ∧ (63 : Fin 64).val = (62 : Fin 64).val + 1 := by decide

theorem witness_Permgen : ∃ t, exec .stagePermgen State.reset = .next t := next_of_got (by decide +kernel)

theorem witness_ReservedStage :
    ∀ code ∈ [(0xB : BitVec 4), 0xF], ∃ s : State, s.stage = code ∧ 0xB ≤ s.stage.toNat ∧ s.rstAsserted = false ∧
      s.turns = [.engine] := by
  intro code h
  refine ⟨{ at_ code with turns := [.engine] }, rfl, ?_, rfl, rfl⟩
  revert code
  decide

theorem value_div (neg : Bool) (m e k : Nat) (h : e + k = 1074) :
    (F64.mk neg m e).value = (if neg then -1 else 1) * (m : ℚ) / 2 ^ k := by
  have hp : (2 : ℚ) ^ 1074 = 2 ^ e * 2 ^ k := by rw [← pow_add, h]
  simp only [F64.value, F64.mag, Nat.cast_mul, Nat.cast_pow, Nat.cast_ofNat]
  rw [hp]
  field_simp

theorem value_mul (neg : Bool) (m k : Nat) :
    (F64.mk neg m (1074 + k)).value = (if neg then -1 else 1) * (m : ℚ) * 2 ^ k := by
  simp only [F64.value, F64.mag, Nat.cast_mul, Nat.cast_pow, Nat.cast_ofNat, pow_add]
  field_simp

/-- `2^1023 * 1`: the largest product of ProductIsCorrectlyRounded. -/
theorem witness_Product :
    ∃ p q : F64, p.wf = true ∧ q.wf = true ∧ |p.value * q.value| = 2 ^ 1023 := by
  refine ⟨⟨true, 2 ^ 52, 2045⟩, ⟨false, 2 ^ 52, 1022⟩, by decide, by decide, ?_⟩
  rw [show (2045 : Nat) = 1074 + 971 from rfl, value_mul, value_div _ _ 1022 52 rfl, abs_eq (by positivity)]
  right
  norm_num
  rw [show (4503599627370496 : ℚ) = 2 ^ 52 by norm_num, ← pow_add]

/-- The ends of the signed range and the first integers outside it. -/
theorem witness_Conversion :
    ∀ q ∈ [((⟨false, (2 ^ 31 - 1) * 2 ^ 22, 1052⟩ : F64), (2 ^ 31 - 1 : Int)), (⟨false, 2 ^ 52, 1053⟩, 2 ^ 31),
        (⟨true, 2 ^ 52, 1053⟩, -2 ^ 31), (⟨true, (2 ^ 31 + 1) * 2 ^ 21, 1053⟩, -2 ^ 31 - 1), (⟨true, 0, 0⟩, 0)],
      q.1.wf = true ∧ q.1.value = ((q.2 : Int) : ℚ) := by
  intro q h
  simp only [List.mem_cons, List.not_mem_nil, or_false] at h
  rcases h with rfl | rfl | rfl | rfl | rfl
  · exact ⟨by decide, by rw [value_div _ _ 1052 22 rfl]; norm_num⟩
  · exact ⟨by decide, by rw [value_div _ _ 1053 21 rfl]; norm_num⟩
  · exact ⟨by decide, by rw [value_div _ _ 1053 21 rfl]; norm_num⟩
  · exact ⟨by decide, by rw [value_div _ _ 1053 21 rfl]; norm_num⟩
  · exact ⟨by decide, by rw [value_div _ _ 0 1074 rfl]; norm_num only [Nat.cast_zero, mul_zero, zero_div, Int.cast_zero]⟩

/-- The value 1. -/
def oneF64 : F64 := ⟨false, 2 ^ 52, 1022⟩

theorem oneF64_value : oneF64.value = 1 := by rw [oneF64, value_div _ _ 1022 52 rfl]; norm_num

/-- The arguments 1 and that of V-NL-10, and the two zeros. -/
theorem witness_Sine :
    oneF64.wf = true ∧ (F64.mul (F64.ofWord 0xffffffff) (F64.ofWord 0xffffffff)).wf = true ∧
    F64.zero.wf = true ∧ F64.zero.mag = 0 ∧ (⟨true, 0, 0⟩ : F64).wf = true := by
  decide +kernel

/-- 00_scope.md R3 (P1) for both zeros, and the argument of V-NL-10, for which the first step of the ladder settles. -/
theorem test_sine_zero_and_ladder :
    sin64 ⟨true, 0, 0⟩ = ⟨true, 0, 0⟩ ∧ sin64 F64.zero = F64.zero ∧
    (sineSettled (F64.mul (F64.ofWord 0xffffffff) (F64.ofWord 0xffffffff)).mag sineLadder).isSome = true := by
  decide +kernel

theorem witness_LaneValues : oneF64.wf = true ∧ |oneF64.value| ≤ 1 := ⟨by decide, by rw [oneF64_value]; norm_num⟩

/-- A sine with P1 and P2, for the two statements that quantify over one; the words are those of V-NL-6, V-NL-7 and
the largest `C` below 2^31. -/
theorem witness_Lane :
    (∀ p : F64, p.wf = true → ((fun _ => F64.zero) p).wf = true ∧ |((fun _ : F64 => F64.zero) p).value| ≤ 1) ∧
    (fun _ : F64 => F64.zero) F64.zero = F64.zero ∧ (0x7fffffff : Word).toNat < 2 ^ 31 :=
  ⟨fun _ _ => ⟨(by decide : F64.zero.wf = true), by simp [F64.zero, F64.value, F64.mag]⟩, rfl, by decide⟩

/-- One change for each clause of OnlyTheseWriteTheRegisters. -/
theorem witness_OnlyTheseWrite :
    got (exec .stageCompress (atWith 0xA (words [1]))) (·.digest.get 0) = some 1 ∧
    got (exec (.wrBuf 0 5) State.reset) (·.msgBuf.length) = some 4 ∧
    got (exec (.wrMsgLen 5) State.reset) (·.msgLen) = some 5 ∧
    got (exec (.wrCtrl 1) State.reset) (·.irqEn) = some true ∧
    got (exec .stageSeed { abc with stage := 1 }) (·.seed) = some 0xfbeabc46 ∧
    got (exec .stageDiffuse (at_ 9)) (·.blkcnt) = some 1 ∧
    got (exec (.wrCmd 1) { State.reset with blkcnt := 3 }) (·.blkcnt) = some 0 ∧
    got (exec (.wrCmd 3) { State.reset with seed := 3, irqEn := true }) (fun t => (t.seed, t.irqEn)) =
      some (0, false) := by decide +kernel

/-- The clauses about the fields of `STATUS`: `stage`, `DONE` set and cleared, `ERR` and its code set and cleared. -/
theorem witness_OnlyTheseWrite_status :
    got (exec (decodeStage 1) started) (·.stage) = some 2 ∧ got (exec (.wrCmd 1) (withLen 4096)) (·.stage) = some 1 ∧
    got (exec (.wrCmd 2) started) (·.stage) = some 0 ∧ got (exec .cmdSoftReset started) (·.stage) = some 0 ∧
    (State.reset.done = false ∧ got (exec .stageCompress (at_ 0xA)) (·.done) = some true) ∧
    (doneAndErr.done = true ∧ got (exec (.wrStatus 2) doneAndErr) (·.done) = some false ∧
      got (exec .cmdStart doneAndErr) (·.done) = some false ∧ got (exec .cmdSoftReset doneAndErr) (·.done) = some false) ∧
    (started.err = false ∧ got (exec (.cmdIllegal 4) started) (·.err) = some true ∧
      got (exec (.wrCmd 4) State.reset) (·.err) = some true ∧
      got (exec (.wrCmd 1) (withLen 4097)) (·.errCode) = some .len ∧
      got (exec .cmdStart started) (·.errCode) = some .busy ∧
      got (exec (.wrMsgLen 5) started) (·.err) = some true ∧ got (exec (.wrBuf 1023 5) started) (·.err) = some true) ∧
    (doneAndErr.err = true ∧ got (exec (.wrStatus 4) doneAndErr) (fun t => (t.err, t.errCode)) = some (false, .none) ∧
      got (exec .cmdSoftReset doneAndErr) (fun t => (t.err, t.errCode)) = some (false, .none)) := by decide +kernel

/-- StageOrder: a stage of each kind goes on, and the commands that change `stage`. -/
theorem witness_StageOrder :
    got (exec (decodeStage 0x0) (at_ 0x0)) (·.stage) = some 0x0 ∧ got (exec (decodeStage 0x1) started) (·.stage) = some 0x2 ∧
    got (exec (decodeStage 0x9) { at_ 0x9 with nb := 2 }) (·.stage) = some 0x3 ∧
    got (exec (decodeStage 0x9) { at_ 0x9 with nb := 1 }) (·.stage) = some 0xA ∧
    got (exec (decodeStage 0xA) (at_ 0xA)) (·.stage) = some 0x0 ∧
    got (exec (dec (.cmd 1)) State.reset) (·.stage) = some 0x1 ∧
    got (exec (dec (.wr 0x010 2)) started) (·.stage) = some 0x0 := by decide +kernel

/-- A run that has started meets the invariant and is on track, and it goes on. -/
theorem witness_Invariant : started.Inv ∧ started.OnTrack ∧ ∃ t, step started = .next t := by
  refine ⟨started_inv, ?_, _, rfl⟩
  have h : started.stage = StageCode.seed := rfl
  constructor <;> simp [h]

/-- A run that is busy at each of its first `k + 1` states and done at the next one, by evaluation. -/
theorem completes_of_got {s : State} {k : Nat}
    (h1 : ∀ j < k + 1, got (Host.Core.run Sys2Proof.core j s) State.busy = some true)
    (h2 : got (Host.Core.run Sys2Proof.core (k + 1) s) (fun t => (t.busy, t.done)) = some (false, true)) :
    ∃ t : State, (∀ (j : Nat) (u : State), j ≤ k → Host.Core.run Sys2Proof.core j s = .next u → u.busy = true) ∧
      Host.Core.run Sys2Proof.core (k + 1) s = .next t ∧ t.busy = false ∧ t.done = true := by
  obtain ⟨t, ht⟩ := next_of_got (o := Host.Core.run Sys2Proof.core (k + 1) s) (by
    cases h : Host.Core.run Sys2Proof.core (k + 1) s <;> rw [h] at h2 <;> first | rfl | cases h2)
  rw [ht] at h2
  simp only [got, Option.some.injEq, Prod.mk.injEq] at h2
  refine ⟨t, fun j u hj hu => ?_, ht, h2⟩
  have h := h1 j (by omega)
  rw [hu] at h
  simpa [got] using h

/-- The run of the empty message that is left alone: busy for nine steps, done at the tenth (P1). -/
theorem started_completes :
    ∃ t : State, (∀ (j : Nat) (u : State), j ≤ 9 → Host.Core.run Sys2Proof.core j started = .next u → u.busy = true) ∧
      Host.Core.run Sys2Proof.core (9 + 1) started = .next t ∧ t.busy = false ∧ t.done = true :=
  completes_of_got (by decide +kernel) (by decide +kernel)

theorem witness_Interleaving :
    ∃ t : State, started.Inv ∧ started.stage = StageCode.seed ∧
      (∀ (j : Nat) (u : State), j ≤ 9 → Host.Core.run Sys2Proof.core j started = .next u → u.busy = true) ∧
      Host.Core.run Sys2Proof.core (9 + 1) started = .next t ∧ t.busy = false ∧ t.done = true := by
  obtain ⟨t, h1, h2, h3⟩ := started_completes
  exact ⟨t, started_inv, rfl, h1, h2, h3⟩

theorem witness_RunTakes : started.Inv ∧ started.stage = StageCode.seed ∧ started.EngineOnly :=
  ⟨started_inv, rfl, rfl, fun _ h => absurd h (List.not_mem_nil)⟩

/-- A run of the one-byte message "a", with the rest of the buffer as given, and turns of the host in between. -/
def oneByte (m : Memory) (turns : List Turn) : State :=
  { State.reset with msgBuf := m, msgLen := 1, turns := turns }.startRun

theorem oneByte_inv (m : Memory) (turns : List Turn) (h : Memory.wf 4096 m = true) : (oneByte m turns).Inv where
  bufCanonical := h
  stageLegal := (by decide : (0x1 : BitVec 4).toNat ≤ 0xA)
  errCoded := (by decide : false = true ↔ ErrCode.none ≠ .none)
  runNotDone := fun _ => rfl
  runLength := fun _ => ⟨rfl, (by decide : (1 : Word).toNat ≤ 4096)⟩
  runBlocks := fun _ => (by decide : (((1 : Word) >>> 6) + 1).toNat = (1 : Word).toNat / 64 + 1)
  runCount := fun _ => rfl
  runIndex := fun _ => by simp [State.blockInRange, oneByte, State.startRun]
  permBijective := fun h => absurd h (by simp [oneByte, State.startRun])

/-- The first conjunct of BytesBeyondTheMessageDoNotMatter: the second run has another byte 1 and two host turns. -/
theorem witness_BytesBeyond_interleaved :
    let s := oneByte [(0, 0x61)] []
    let u := oneByte [(0, 0x61), (1, 5)] [.host, .engine, .host]
    s.msgBuf ≠ u.msgBuf ∧ s.Inv ∧ u.Inv ∧ s.stage = StageCode.seed ∧ u.stage = StageCode.seed ∧ u.params = s.params ∧
    u.lenL = s.lenL ∧ (∀ n, n < s.lenL.toNat → u.bufByte n = s.bufByte n) ∧
    (∃ t : State, (∀ (j : Nat) (x : State), j ≤ 9 → Host.Core.run Sys2Proof.core j s = .next x → x.busy = true) ∧
      Host.Core.run Sys2Proof.core (9 + 1) s = .next t ∧ t.busy = false ∧ t.done = true) ∧
    (∃ v : State, (∀ (j : Nat) (x : State), j ≤ 11 → Host.Core.run Sys2Proof.core j u = .next x → x.busy = true) ∧
      Host.Core.run Sys2Proof.core (11 + 1) u = .next v ∧ v.busy = false ∧ v.done = true) := by
  refine ⟨by decide, oneByte_inv _ _ (by decide), oneByte_inv _ _ (by decide), rfl, rfl, rfl, rfl, fun n h => ?_,
    completes_of_got (by decide +kernel) (by decide +kernel), completes_of_got (by decide +kernel) (by decide +kernel)⟩
  have h1 : (oneByte [(0, 0x61)] []).lenL.toNat = 1 := by decide
  have h0 : n = 0 := by omega
  subst h0
  decide +kernel

/-- The second conjunct. -/
theorem witness_BytesBeyond :
    let s := oneByte [(0, 0x61)] []
    ∃ m : Memory, m ≠ s.msgBuf ∧ s.Inv ∧ s.stage = StageCode.seed ∧ s.EngineOnly ∧
      Memory.wf s.params.bufBytes m = true ∧ (∀ n, n < s.lenL.toNat → Memory.read m 0 n = s.bufByte n) := by
  refine ⟨[(0, 0x61), (1, 5)], by decide, oneByte_inv _ _ (by decide), rfl,
    ⟨rfl, fun _ h => absurd h (List.not_mem_nil)⟩, by decide, fun n h => ?_⟩
  have h1 : (oneByte [(0, 0x61)] []).lenL.toNat = 1 := by decide
  have h0 : n = 0 := by omega
  subst h0
  decide +kernel

end Sys2Proof.Tests
end

section
/-! PROOFS. The statements of 00_scope.md: the binary64 primitives of R11, `conv32` of 44_block_mixer.md R233, and the
sine of R3. -/

namespace Sys2Proof.Machine

/-! ## The primitives of R11 -/

/-- Settles O46: the argument `fmul` rounds is the exact product, and rounding is to the nearest. -/
theorem productIsCorrectlyRounded : Obligations.ProductIsCorrectlyRounded :=
  ⟨ofWord_spec, fun p q _ _ h => mul_isNearest p q h⟩

/-- A zero has the lowest exponent. -/
theorem exp_eq_zero_of_man {p : F64} (h : p.wf = true) (hm : p.man = 0) : p.exp = 0 := by
  simp only [F64.wf, Bool.and_eq_true, Bool.or_eq_true, decide_eq_true_eq] at h
  obtain ⟨⟨-, hnormal | hlowest⟩, -⟩ := h
  · omega
  · exact hlowest

/-- `floor64` keeps a zero, its sign included: its floor is the same number, under the same sign. -/
theorem floor_of_man_eq_zero {p : F64} (h : p.wf = true) (hm : p.man = 0) : F64.floor p = p := by
  obtain ⟨hwf, hvalue, hneg⟩ := floor_spec h
  have hzero : p.value = 0 := by simp [F64.value, F64.mag, hm]
  refine eq_of_value_eq hwf h hneg ?_
  rw [hvalue, floorInt_eq, hzero, Int.floor_zero, Int.cast_zero]

/-- Inside the signed 32-bit range every setting of `MIX_CONV` gives the two's complement. -/
theorem conv32_of_inRange {v : F64} {n : Int} (h : v.value = (n : ℚ)) (lo : -2 ^ 31 ≤ n) (hi : n ≤ 2 ^ 31 - 1)
    (conv : MixConv) : conv32 conv v = BitVec.ofInt 32 n := by
  rw [conv32, toInt_eq h, if_pos ⟨lo, hi⟩]

/-- Outside the range `MIX_CONV` decides. -/
theorem conv32_of_outside {v : F64} {n : Int} (h : v.value = (n : ℚ)) (out : ¬(-2 ^ 31 ≤ n ∧ n ≤ 2 ^ 31 - 1))
    (conv : MixConv) : conv32 conv v = convOutside conv n := by
  rw [conv32, toInt_eq h, if_neg out]

/-- WRAP gives the two's complement inside the range and outside it. -/
theorem conv32_wrap {v : F64} {n : Int} (h : v.value = (n : ℚ)) : conv32 .wrap v = BitVec.ofInt 32 n := by
  by_cases hr : -2 ^ 31 ≤ n ∧ n ≤ 2 ^ 31 - 1
  · exact conv32_of_inRange h hr.1 hr.2 _
  · exact conv32_of_outside h hr _

/-- Settles O47: `conv32` by whether the integer is in the range, below it or above it. -/
theorem floorAndConversionAreExact : Obligations.FloorAndConversionAreExact := by
  refine ⟨fun p h => ?_, fun v n h => ⟨conv32_of_inRange h, conv32_wrap h, fun above => ?_, fun below => ?_⟩⟩
  · obtain ⟨hwf, hvalue, -⟩ := floor_spec h
    exact ⟨hwf, by rw [hvalue, floorInt_eq], floor_of_man_eq_zero h⟩
  · have out := conv32_of_outside h (by omega)
    exact ⟨(out .sat).trans (if_neg (by omega)), out .indef⟩
  · have out := conv32_of_outside h (by omega)
    exact ⟨(out .sat).trans (if_pos (by omega)), out .indef⟩

/-! ## The sine of R3 -/

/-- A binary64 value, `-0` among them, is nearest to its own number. -/
theorem isNearest_self {y : F64} (h : y.wf = true) : y.IsNearest (y.value : ℝ) := by
  refine ⟨h, fun z _ => ?_⟩
  rw [sub_self, abs_zero]
  refine ⟨abs_nonneg _, fun he hne => absurd ?_ hne⟩
  exact_mod_cast sub_eq_zero.1 (abs_eq_zero.1 he.symm)

/-- Rounding to nearest commutes with the sign: the candidates for `-v` are those for `v`, negated. -/
theorem isNearest_flip {y : F64} {v : ℝ} (h : y.IsNearest v) (b : Bool) :
    F64.IsNearest { y with neg := y.neg != b } (if b then -v else v) := by
  cases b with
  | false => simpa using h
  | true =>
    obtain ⟨hwf, hmin⟩ := h
    refine ⟨hwf, fun z hz => ?_⟩
    have dist_neg : ∀ a : ℚ, |((-a : ℚ) : ℝ) - v| = |(a : ℝ) - -v| := fun a => by
      rw [Rat.cast_neg, ← abs_neg]; congr 1; ring
    have key := hmin { z with neg := z.neg != true } hz
    have hy := dist_neg (-y.value)
    rw [neg_neg] at hy
    simp only [flip_value, if_true, dist_neg, hy] at key ⊢
    exact ⟨key.1, fun he hne => key.2 he fun hc => hne (by rw [← hc, neg_neg])⟩

/-- P1 of R3: the sine of a zero is that zero. -/
theorem sin64_of_mag_eq_zero {x : F64} (h : x.mag = 0) : sin64 x = x := dif_pos h

/-- `SIN64` is odd: away from zero it is the sine of the magnitude with the argument's sign applied. -/
theorem sin64_of_mag_ne_zero {x : F64} (h : x.mag ≠ 0) :
    sin64 x = { sineOfMag x.mag h with neg := (sineOfMag x.mag h).neg != x.neg } := dif_neg h

/-- The sine of the argument is the sine of its magnitude with its sign. -/
theorem sin_value (x : F64) :
    Real.sin (x.value : ℝ) = if x.neg then -Real.sin (angleOf x.mag) else Real.sin (angleOf x.mag) := by
  rw [value_real, apply_ite Real.sin, Real.sin_neg]

/-- `SIN64` is the correctly rounded sine: a zero is its own sine, and any other argument goes by its magnitude. -/
theorem sin64_isNearest {x : F64} (h : x.wf = true) : (sin64 x).IsNearest (Real.sin (x.value : ℝ)) := by
  by_cases hx : x.mag = 0
  · have hzero : x.value = 0 := by simp [F64.value, hx]
    have hsin : Real.sin (x.value : ℝ) = (x.value : ℝ) := by rw [hzero, Rat.cast_zero, Real.sin_zero]
    rw [sin64_of_mag_eq_zero hx, hsin]
    exact isNearest_self h
  · rw [sin64_of_mag_ne_zero hx, sin_value]
    exact isNearest_flip (sineOfMag_isNearest x.mag hx) x.neg

/-- Settles O49: by the magnitude of the argument, with its sign applied. -/
theorem sineIsCorrectlyRounded : Obligations.SineIsCorrectlyRounded := fun _ => sin64_isNearest

/-- Rounding keeps a number of magnitude at most 1 there: `-1` and `1` are binary64 values. -/
theorem isNearest_abs_le_one {y : F64} {v : ℝ} (h : y.IsNearest v) (lo : -1 ≤ v) (hi : v ≤ 1) :
    -1 ≤ y.value ∧ y.value ≤ 1 := by
  obtain ⟨low, hlow, elow⟩ := exists_wf_int (-1) (by decide)
  obtain ⟨high, hhigh, ehigh⟩ := exists_wf_int 1 (by decide)
  constructor
  · simpa [elow] using isNearest_ge h hlow (by simpa [elow] using lo)
  · simpa [ehigh] using isNearest_le h hhigh (by simpa [ehigh] using hi)

/-- Settles O48: P1 is the sine of a zero, and P2 follows from the bounds of the real sine, which rounding keeps. -/
theorem sineIsBoundedAndFixesZero : Obligations.SineIsBoundedAndFixesZero := by
  refine ⟨sin64_of_mag_eq_zero rfl, fun x h => ?_⟩
  have near := sin64_isNearest h
  exact ⟨near.1, isNearest_abs_le_one near (Real.neg_one_le_sin _) (Real.sin_le_one _)⟩

end Sys2Proof.Machine
end

section
/-! PROOFS. The statements of 10_state.md: the invariant of the reachable states, which instruction writes which register,
the interrupt output of R44 and the reset values of R45. -/

namespace Sys2Proof.Machine

variable {s t : State} {i : Instr}

/-! ## What one instruction does, and which instruction it is -/

/-- START, by its row or by a write to `CMD`. -/
def IsStart (i : Instr) : Prop := i = .cmdStart ∨ i = .wrCmd 1

/-- A START that is accepted (40_commands.md R127). -/
def StartAccepted (i : Instr) (s : State) : Prop :=
  s.busy = false ∧ s.msgLen.toNat ≤ s.params.bufBytes ∧ IsStart i

/-- ABORT, by its row or by a write to `CMD`. -/
def IsAbort (i : Instr) : Prop := i = .cmdAbort ∨ i = .wrCmd 2

/-- SOFT_RESET, by its row or by a write to `CMD`. -/
def IsSoftReset (i : Instr) : Prop := i = .cmdSoftReset ∨ i = .wrCmd 3

/-- A write to `STATUS` that clears the flag of bit `n` (40_commands.md R124). -/
def ClearsStatus (n : Nat) (i : Instr) : Prop := ∃ d, i = .wrStatus d ∧ d.getLsbD n = true

/-- The causes of an error (60_exceptions.md R301-R303): an illegal command word, a START whose length does not fit, and
START, `WR MSG_LEN` and a write of a backed buffer word during a run. -/
def RaisesError (i : Instr) (s : State) : Prop :=
  (∃ w, i = .cmdIllegal w) ∨ (∃ w, i = .wrCmd w ∧ 4 ≤ w.toNat) ∨
  (s.busy = false ∧ ¬s.msgLen.toNat ≤ s.params.bufBytes ∧ IsStart i) ∨
  (s.busy = true ∧ (IsStart i ∨ (∃ d, i = .wrMsgLen d) ∨
    ∃ w d, i = .wrBuf w d ∧ w.toNat < s.params.bufBytes / 4))

/-- What an instruction that goes on can do to the machine, with the instructions and the states in which it does that. -/
inductive Effect (i : Instr) (s : State) : State → Prop
  | unchanged : Effect i s s
  | read (v : Word) : Effect i s { s with responses := v :: s.responses }
  | raise (e : ErrCode) (cause : RaisesError i s) : Effect i s (s.raiseError e)
  | start (accepted : StartAccepted i s) : Effect i s s.startRun
  | abort (hi : IsAbort i) (busy : s.busy = true) : Effect i s { s.forgetDatapath with stage := StageCode.idle }
  | softReset (hi : IsSoftReset i) : Effect i s s.softReset
  | setIrqEn (d : Word) (hi : i = .wrCtrl d) : Effect i s { s with irqEn := d.getLsbD 0 }
  | clear (d : Word) (hi : i = .wrStatus d) : Effect i s { s with
      done := s.done && !d.getLsbD 1
      err := s.err && !d.getLsbD 2
      errCode := if d.getLsbD 2 then .none else s.errCode }
  | setLength (d : Word) (hi : i = .wrMsgLen d) (idle : s.busy = false) : Effect i s { s with msgLen := d }
  | store (w : BitVec 14) (d : Word) (hi : i = .wrBuf w d) (backed : w.toNat < s.params.bufBytes / 4)
    (idle : s.busy = false) : Effect i s { s with msgBuf := Memory.writeWord s.msgBuf (bufWordAddr w) d }
  | seed (hi : i = .stageSeed) : Effect i s { s with seed := seedFold s.message, stage := StageCode.init }
  | datapath (code : BitVec 4) (hi : i = decodeStage code) (S snap : Words) (blkr : Block) (a b c ctr : Word) (perm : Perm)
    (stage : BitVec 4) : Effect i s { s with
      S := S, blkr := blkr, a := a, b := b, c := c, perm := perm, ctr := ctr, snap := snap, stage := stage }
  | diffuse (hi : i = .stageDiffuse) (S snap : Words) (blk : Word) (stage : BitVec 4) : Effect i s { s with
      S := S, snap := snap, blk := blk, blkcnt := blk, stage := stage }
  | compress (hi : i = .stageCompress) :
    Effect i s { s.forgetDatapath with digest := s.S, done := true, stage := StageCode.idle }

theorem effect_cmdStart (hi : IsStart i) (h : exec .cmdStart s = .next t) : Effect i s t := by
  obtain ⟨busy, rfl⟩ | ⟨idle, long, rfl⟩ | ⟨idle, fits, rfl⟩ := exec_cmdStart h
  · exact .raise _ (.inr (.inr (.inr ⟨busy, .inl hi⟩)))
  · exact .raise _ (.inr (.inr (.inl ⟨idle, Nat.not_le.2 long, hi⟩)))
  · exact .start ⟨idle, fits, hi⟩

theorem effect_cmdAbort (hi : IsAbort i) (h : exec .cmdAbort s = .next t) : Effect i s t := by
  obtain ⟨busy, rfl⟩ | ⟨-, rfl⟩ := exec_cmdAbort h
  · exact .abort hi busy
  · exact .unchanged

theorem effect_wrCmd {w : Word} (h : exec (.wrCmd w) s = .next t) : Effect (.wrCmd w) s t := by
  obtain ⟨-, h⟩ | ⟨rfl, h⟩ | ⟨rfl, h⟩ | ⟨rfl, h⟩ | ⟨hw, h⟩ := exec_wrCmd h
  · obtain rfl := exec_cmdNop h
    exact .unchanged
  · exact effect_cmdStart (.inr rfl) h
  · exact effect_cmdAbort (.inr rfl) h
  · obtain rfl := exec_cmdSoftReset h
    exact .softReset (.inr rfl)
  · obtain rfl := exec_cmdIllegal h
    exact .raise _ (.inr (.inl ⟨w, rfl, hw⟩))

theorem effect_wrMsgLen {d : Word} (h : exec (.wrMsgLen d) s = .next t) : Effect (.wrMsgLen d) s t := by
  obtain ⟨busy, rfl⟩ | ⟨idle, rfl⟩ := exec_wrMsgLen h
  · exact .raise _ (.inr (.inr (.inr ⟨busy, .inr (.inl ⟨d, rfl⟩)⟩)))
  · exact .setLength d rfl idle

theorem effect_wrBuf {w : BitVec 14} {d : Word} (h : exec (.wrBuf w d) s = .next t) : Effect (.wrBuf w d) s t := by
  obtain ⟨-, rfl⟩ | ⟨backed, busy, rfl⟩ | ⟨backed, idle, rfl⟩ := exec_wrBuf h
  · exact .unchanged
  · exact .raise _ (.inr (.inr (.inr ⟨busy, .inr (.inr ⟨w, d, rfl, (bufWordBacked_iff _ _).1 backed⟩)⟩)))
  · exact .store w d rfl ((bufWordBacked_iff _ _).1 backed) idle

/-- Every instruction that goes on has one of these effects. -/
theorem exec_effect (h : exec i s = .next t) : Effect i s t := by
  cases i with
  | cmdNop => obtain rfl := exec_cmdNop h; exact .unchanged
  | cmdStart => exact effect_cmdStart (.inl rfl) h
  | cmdAbort => exact effect_cmdAbort (.inl rfl) h
  | cmdSoftReset => obtain rfl := exec_cmdSoftReset h; exact .softReset (.inl rfl)
  | cmdIllegal w => obtain rfl := exec_cmdIllegal h; exact .raise _ (.inl ⟨w, rfl⟩)
  | rd u => obtain rfl := exec_rd h; exact .read _
  | wrCtrl d => obtain rfl := exec_wrCtrl h; exact .setIrqEn d rfl
  | wrCmd w => exact effect_wrCmd h
  | wrStatus d => obtain rfl := exec_wrStatus h; exact .clear d rfl
  | wrMsgLen d => exact effect_wrMsgLen h
  | wrBuf w d => exact effect_wrBuf h
  | wrIgnored u d => obtain rfl := exec_wrIgnored h; exact .unchanged
  | stageIdle => obtain rfl := exec_stageIdle h; exact .unchanged
  | stageSeed => obtain ⟨-, rfl⟩ := exec_stageSeed h; exact .seed rfl
  | stageInit => obtain rfl := exec_stageInit h; exact .datapath StageCode.init rfl ..
  | stageLoad => obtain ⟨-, rfl⟩ := exec_stageLoad h; exact .datapath StageCode.load rfl ..
  | stageParams => obtain rfl := exec_stageParams h; exact .datapath StageCode.params rfl ..
  | stageAbsorb => obtain rfl := exec_stageAbsorb h; exact .datapath StageCode.absorb rfl ..
  | stageNlmix => obtain rfl := exec_stageNlmix h; exact .datapath StageCode.nlmix rfl ..
  | stagePermgen => obtain rfl := exec_stagePermgen h; exact .datapath StageCode.permgen rfl ..
  | stagePermute => obtain rfl := exec_stagePermute h; exact .datapath StageCode.permute rfl ..
  | stageDiffuse => obtain rfl := exec_stageDiffuse h; exact .diffuse rfl ..
  | stageCompress => obtain rfl := exec_stageCompress h; exact .compress rfl
  | stageReserved c => exact (exec_stageReserved h).elim

/-- No instruction writes the parameters (00_scope.md R2, R4). -/
theorem Effect.params_eq (h : Effect i s t) : t.params = s.params := by
  cases h with
  | raise => exact raiseError_params ..
  | _ => rfl

/-! ## The invariant -/

/-- The invariant does not read the agents' inputs. -/
theorem State.Inv.inputs (h : s.Inv) (host : List HostOp) (turns : List Turn) (rst : Bool) :
    State.Inv { s with host := host, turns := turns, rstAsserted := rst } :=
  ⟨h.bufCanonical, h.stageLegal, h.errCoded, h.runNotDone, h.runLength, h.runBlocks, h.runCount, h.runIndex,
    h.permBijective⟩

/-- While the engine is idle the invariant speaks of the buffer and of the error alone. -/
theorem State.Inv.of_idle (idle : s.stage = StageCode.idle) (buf : Memory.wf s.params.bufBytes s.msgBuf = true)
    (coded : s.err = true ↔ s.errCode ≠ .none) : s.Inv where
  bufCanonical := buf
  stageLegal := by simp [idle]
  errCoded := coded
  runNotDone := by simp [busy_iff, idle]
  runLength := by simp [busy_iff, idle]
  runBlocks := by simp [busy_iff, idle]
  runCount := by simp [busy_iff, idle]
  runIndex := by simp [busy_iff, idle]
  permBijective := by simp [idle]

theorem State.Inv.softReset (h : s.Inv) : s.softReset.Inv := .of_idle rfl h.bufCanonical (by simp)

theorem hardReset_inv (s : State) : s.hardReset.Inv := .of_idle rfl (wf_nil _) (by simp)

theorem State.Inv.releaseReset (h : s.Inv) : s.releaseReset.Inv := by
  obtain ⟨-, e⟩ | ⟨-, e⟩ := releaseReset_cases s <;> rw [e]
  · exact (hardReset_inv s).inputs _ _ false
  · exact h

/-- An ABORT of a run leaves an idle engine. -/
theorem State.Inv.abort (h : s.Inv) : State.Inv { s.forgetDatapath with stage := StageCode.idle } :=
  .of_idle rfl h.bufCanonical h.errCoded

/-- An accepted START latches a length that fits and its block count, at block 0 (40_commands.md R127). -/
theorem State.Inv.startRun (h : s.Inv) (fits : s.msgLen.toNat ≤ s.params.bufBytes) : s.startRun.Inv where
  bufCanonical := h.bufCanonical
  stageLegal := by simp
  errCoded := h.errCoded
  runNotDone := fun _ => rfl
  runLength := fun _ => ⟨rfl, fits⟩
  runBlocks := fun _ => nb_toNat s.msgLen (fits.trans (bufBytes_le s.params))
  runCount := fun _ => rfl
  runIndex := fun _ => by simp [State.blockInRange]
  permBijective := by simp

/-- A host's instruction that neither starts nor stops a run leaves the run as it is. -/
theorem SideEffect.inv (e : SideEffect s t) (h : s.Inv) : t.Inv := by
  have params : t.params = s.params := by rw [e.eq]
  have stage : t.stage = s.stage := by rw [e.eq]
  have lenL : t.lenL = s.lenL := by rw [e.eq]
  have nb : t.nb = s.nb := by rw [e.eq]
  have blk : t.blk = s.blk := by rw [e.eq]
  have blkcnt : t.blkcnt = s.blkcnt := by rw [e.eq]
  have perm : t.perm = s.perm := by rw [e.eq]
  have busy : t.busy = s.busy := by simp [State.busy, stage]
  refine ⟨?_, ?_, e.coded h.errCoded, ?_, ?_, ?_, ?_, ?_, ?_⟩
  · rw [params]; exact e.bufWf h.bufCanonical
  · rw [stage]; exact h.stageLegal
  · intro hb
    rw [busy] at hb
    have notDone := h.runNotDone hb
    exact Bool.eq_false_iff.2 fun hd => by simp [e.done hd] at notDone
  · intro hb
    rw [busy] at hb
    rw [lenL, params, e.msgLen hb]
    exact h.runLength hb
  · rw [busy, nb, lenL]; exact h.runBlocks
  · rw [busy, blkcnt, blk]; exact h.runCount
  · unfold State.blockInRange
    rw [busy, stage, blk, nb]
    exact h.runIndex
  · rw [stage, perm]; exact h.permBijective

/-! ## The stages of a run -/

/-- Before its first LOAD a run is at block 0. -/
theorem State.Inv.blk_eq_zero (h : s.Inv) (hs : s.stage = StageCode.seed ∨ s.stage = StageCode.init) : s.blk = 0 := by
  have busy : s.busy = true := by obtain e | e := hs <;> simp [busy_iff, e]
  have index := h.runIndex busy
  rwa [State.blockInRange, if_pos hs] at index

/-- From LOAD to DIFFUSE the block index names a block. -/
theorem blockInRange_iff_lt (hs : 3 ≤ s.stage.toNat ∧ s.stage.toNat ≤ 9) :
    s.blockInRange ↔ s.blk.toNat < s.nb.toNat := by
  have later : ¬(s.stage = StageCode.seed ∨ s.stage = StageCode.init) := by rintro (e | e) <;> simp [e] at hs
  have more : s.stage ≠ StageCode.compress := by rintro e; simp [e] at hs
  rw [State.blockInRange, if_neg later, if_neg more]

theorem State.Inv.blk_lt_nb (h : s.Inv) (hs : 3 ≤ s.stage.toNat ∧ s.stage.toNat ≤ 9) : s.blk.toNat < s.nb.toNat :=
  (blockInRange_iff_lt hs).1 (h.runIndex ((busy_iff s).2 (by rintro e; simp [e] at hs)))

/-- Whatever a stage writes in the datapath, in `SEED`, in `BLKCNT` and in `stage`, the invariant is kept if the new
`stage` is legal, the block index agrees with it and with `BLKCNT`, and `PERM` is a bijection where PERMUTE is next. -/
theorem State.Inv.stageStep (h : s.Inv) (busy : s.busy = true) {S snap : Words} {blkr : Block} {perm : Perm}
    {a b c ctr blk blkcnt seed : Word} {code : BitVec 4}
    (ht : t = { s with
      S := S, blkr := blkr, a := a, b := b, c := c, perm := perm, ctr := ctr, snap := snap
      blk := blk, blkcnt := blkcnt, seed := seed, stage := code })
    (legal : code.toNat ≤ 0xA) (count : blkcnt = blk) (index : t.blockInRange)
    (bijective : code = StageCode.permute → Function.Injective fun i => perm.get i) : t.Inv := by
  subst ht
  exact ⟨h.bufCanonical, legal, h.errCoded, fun _ => h.runNotDone busy, fun _ => h.runLength busy,
    fun _ => h.runBlocks busy, fun _ => count, fun _ => index, bijective⟩

/-- The stages from LOAD to PERMUTE move on within their block. -/
theorem State.Inv.withinBlock (h : s.Inv) {S snap : Words} {blkr : Block} {perm : Perm} {a b c ctr : Word}
    {code : BitVec 4} (before : 3 ≤ s.stage.toNat ∧ s.stage.toNat ≤ 9)
    (ht : t = { s with
      S := S, blkr := blkr, a := a, b := b, c := c, perm := perm, ctr := ctr, snap := snap, stage := code })
    (after : 3 ≤ code.toNat ∧ code.toNat ≤ 9)
    (bijective : code = StageCode.permute → Function.Injective fun i => perm.get i) : t.Inv := by
  have busy : s.busy = true := (busy_iff s).2 (by rintro e; simp [e] at before)
  refine h.stageStep busy ht (by omega) (h.runCount busy) ?_ bijective
  subst ht
  exact (blockInRange_iff_lt after).2 (h.blk_lt_nb before)

/-- SEED leaves the run at block 0, with INIT next. -/
theorem State.Inv.after_seed (h : s.Inv) (hs : s.stage = StageCode.seed) (he : exec .stageSeed s = .next t) : t.Inv := by
  have busy : s.busy = true := by simp [busy_iff, hs]
  obtain ⟨-, rfl⟩ := exec_stageSeed he
  exact h.stageStep busy rfl (by decide) (h.runCount busy) (by simp [State.blockInRange, h.blk_eq_zero (.inl hs)])
    (by simp)

/-- INIT is followed by the LOAD of block 0: every message has a block. -/
theorem State.Inv.after_init (h : s.Inv) (hs : s.stage = StageCode.init) (he : exec .stageInit s = .next t) : t.Inv := by
  have busy : s.busy = true := by simp [busy_iff, hs]
  have blocks := h.runBlocks busy
  obtain rfl := exec_stageInit he
  have first : s.blk.toNat < s.nb.toNat := by simp [h.blk_eq_zero (.inr hs), blocks]
  exact h.stageStep busy rfl (by decide) (h.runCount busy) ((blockInRange_iff_lt (by simp)).2 first) (by simp)

/-- DIFFUSE advances the block index, which stays below `NB` where a LOAD follows and has reached it where COMPRESS does
(44_block_mixer.md R251). -/
theorem State.Inv.after_diffuse (h : s.Inv) (hs : s.stage = StageCode.diffuse) (he : exec .stageDiffuse s = .next t) :
    t.Inv := by
  have busy : s.busy = true := by simp [busy_iff, hs]
  have below := h.blk_lt_nb (by simp [hs])
  have ht := exec_stageDiffuse he
  by_cases more : s.blk + 1 < s.nb
  · rw [if_pos more] at ht
    subst ht
    exact h.stageStep busy rfl (by simp) rfl ((blockInRange_iff_lt (by simp)).2 more) (by simp)
  · have last : s.blk + 1 = s.nb := by bv_omega
    rw [if_neg more] at ht
    subst ht
    exact h.stageStep busy rfl (by simp) rfl (by simpa [State.blockInRange] using last) (by simp)

/-- COMPRESS leaves an idle engine. -/
theorem State.Inv.after_compress (h : s.Inv) (he : exec .stageCompress s = .next t) : t.Inv := by
  rw [exec_stageCompress he]
  exact .of_idle rfl h.bufCanonical h.errCoded

/-- A stage keeps the invariant, by the stage that `stage` names. -/
theorem State.Inv.after_stage (h : s.Inv) (he : exec (decodeStage s.stage) s = .next t) : t.Inv := by
  have legal := h.stageLegal
  obtain hc | hc | hc | hc | hc | hc | hc | hc | hc | hc | hc | hc := stage_cases s.stage
  · have ht : t = s := exec_stageIdle (by rwa [hc] at he)
    rwa [ht]
  · exact h.after_seed hc (by rwa [hc] at he)
  · exact h.after_init hc (by rwa [hc] at he)
  · exact h.withinBlock (by simp [hc]) (exec_stageLoad (by rwa [hc] at he)).2 (by simp) (by simp)
  · exact h.withinBlock (by simp [hc]) (exec_stageParams (by rwa [hc] at he)) (by simp) (by simp)
  · exact h.withinBlock (by simp [hc]) (exec_stageAbsorb (by rwa [hc] at he)) (by simp) (by simp)
  · exact h.withinBlock (by simp [hc]) (exec_stageNlmix (by rwa [hc] at he)) (by simp) (by simp)
  · exact h.withinBlock (by simp [hc]) (exec_stagePermgen (by rwa [hc] at he)) (by simp) fun _ => permGen_inj _
  · exact h.withinBlock (by simp [hc]) (exec_stagePermute (by rwa [hc] at he)) (by simp) (by simp)
  · exact h.after_diffuse hc (by rwa [hc] at he)
  · exact h.after_compress (by rwa [hc] at he)
  · omega

/-! ## The step -/

/-- A host's instruction keeps the invariant, by the four things it can do. -/
theorem State.Inv.after_host {P : Params} {w : CodeWord} (h : s.Inv) (hw : ∀ c, w ≠ .stage c)
    (he : exec (decode P w) s = .next t) : t.Inv := by
  obtain effect | ⟨-, fits, rfl⟩ | ⟨-, rfl⟩ | rfl := host_cases hw he
  · exact effect.inv h
  · exact h.startRun fits
  · exact h.abort
  · exact h.softReset

theorem releaseReset_params (s : State) : s.releaseReset.params = s.params := by
  obtain ⟨-, e⟩ | ⟨-, e⟩ := releaseReset_cases s <;> rw [e]
  simp

theorem advance_params (s : State) : s.advance.params = s.params := by rw [advance_eq]

theorem advance_stage (s : State) : s.advance.stage = s.stage := by rw [advance_eq]

/-- Taking the turn keeps the invariant. -/
theorem State.Inv.advance (h : s.Inv) : s.advance.Inv := by
  rw [advance_eq]
  exact h.inputs _ _ _

/-- Settles O55: by the cases of a step; an instruction runs in the state in which the turn is taken. -/
theorem everyStepKeepsTheInvariant : Obligations.EveryStepKeepsTheInvariant := by
  intro s t h
  obtain ⟨w, hf, he⟩ | ⟨-, rfl⟩ | ⟨-, rfl⟩ | ⟨-, rfl⟩ := step_cases h
  · obtain ⟨-, ⟨-, rfl⟩ | ⟨-, op, ops, -, rfl⟩⟩ := fetch_cases hf
    · rw [← advance_stage s] at he
      exact ⟨(exec_effect he).params_eq.trans (advance_params s), fun inv => inv.advance.after_stage he⟩
    · have hw := hostCodeWord_ne_stage op
      exact ⟨(exec_effect he).params_eq.trans (advance_params s), fun inv => inv.advance.after_host hw he⟩
  · exact ⟨advance_params s, State.Inv.advance⟩
  · exact ⟨rfl, fun inv => inv.inputs _ _ _⟩
  · exact ⟨releaseReset_params _, fun inv => (inv.inputs s.host s.turns.tail s.rstAsserted).releaseReset⟩

/-! ## Which instruction writes which register -/

theorem Effect.of_digest_ne (h : Effect i s t) (hne : t.digest ≠ s.digest) : i = .stageCompress ∨ IsSoftReset i := by
  cases h with
  | compress hi => exact .inl hi
  | softReset hi => exact .inr hi
  | _ => simp at hne

theorem Effect.of_msgBuf_ne (h : Effect i s t) (hne : t.msgBuf ≠ s.msgBuf) :
    s.busy = false ∧ ∃ w d, i = .wrBuf w d ∧ w.toNat < s.params.bufBytes / 4 := by
  cases h with
  | store w d hi backed idle => exact ⟨idle, w, d, hi, backed⟩
  | _ => simp at hne

theorem Effect.of_msgLen_ne (h : Effect i s t) (hne : t.msgLen ≠ s.msgLen) :
    (s.busy = false ∧ ∃ d, i = .wrMsgLen d) ∨ IsSoftReset i := by
  cases h with
  | setLength d hi idle => exact .inl ⟨idle, d, hi⟩
  | softReset hi => exact .inr hi
  | _ => simp at hne

theorem Effect.of_irqEn_ne (h : Effect i s t) (hne : t.irqEn ≠ s.irqEn) : (∃ d, i = .wrCtrl d) ∨ IsSoftReset i := by
  cases h with
  | setIrqEn d hi => exact .inl ⟨d, hi⟩
  | softReset hi => exact .inr hi
  | _ => simp at hne

theorem Effect.of_seed_ne (h : Effect i s t) (hne : t.seed ≠ s.seed) : i = .stageSeed ∨ IsSoftReset i := by
  cases h with
  | seed hi => exact .inl hi
  | softReset hi => exact .inr hi
  | _ => simp at hne

theorem Effect.of_blkcnt_ne (h : Effect i s t) (hne : t.blkcnt ≠ s.blkcnt) :
    i = .stageDiffuse ∨ StartAccepted i s ∨ IsSoftReset i := by
  cases h with
  | diffuse hi => exact .inl hi
  | start accepted => exact .inr (.inl accepted)
  | softReset hi => exact .inr (.inr hi)
  | _ => simp at hne

theorem Effect.of_stage_ne (h : Effect i s t) (hne : t.stage ≠ s.stage) :
    (∃ c, i = decodeStage c) ∨ StartAccepted i s ∨ (s.busy = true ∧ IsAbort i) ∨ IsSoftReset i := by
  cases h with
  | seed hi => exact .inl ⟨StageCode.seed, hi⟩
  | datapath code hi => exact .inl ⟨code, hi⟩
  | diffuse hi => exact .inl ⟨StageCode.diffuse, hi⟩
  | compress hi => exact .inl ⟨StageCode.compress, hi⟩
  | start accepted => exact .inr (.inl accepted)
  | abort hi busy => exact .inr (.inr (.inl ⟨busy, hi⟩))
  | softReset hi => exact .inr (.inr (.inr hi))
  | _ => simp at hne

theorem Effect.of_done_set (h : Effect i s t) (ht : t.done = true) (hs : s.done = false) : i = .stageCompress := by
  cases h with
  | compress hi => exact hi
  | _ => simp [hs] at ht

theorem Effect.of_done_cleared (h : Effect i s t) (ht : t.done = false) (hs : s.done = true) :
    ClearsStatus 1 i ∨ StartAccepted i s ∨ IsSoftReset i := by
  cases h with
  | clear d hi => exact .inl ⟨d, hi, by simpa [hs] using ht⟩
  | start accepted => exact .inr (.inl accepted)
  | softReset hi => exact .inr (.inr hi)
  | _ => simp [hs] at ht

theorem Effect.of_err_set (h : Effect i s t) (ht : t.err = true) (hs : s.err = false) : RaisesError i s := by
  cases h with
  | raise _ cause => exact cause
  | _ => simp [hs] at ht

theorem Effect.of_err_cleared (h : Effect i s t) (ht : t.err = false) (hs : s.err = true) :
    ClearsStatus 2 i ∨ IsSoftReset i := by
  cases h with
  | clear d hi => exact .inl ⟨d, hi, by simpa [hs] using ht⟩
  | softReset hi => exact .inr hi
  | _ => simp [hs] at ht

/-- The code changes with the flag, or is cleared by the host. -/
theorem Effect.of_errCode_ne (h : Effect i s t) (hne : t.errCode ≠ s.errCode) :
    (s.err = false ∧ t.err = true) ∨ ClearsStatus 2 i ∨ IsSoftReset i := by
  cases h with
  | raise e =>
    have first : s.err = false := by
      by_contra hs
      exact hne (by simp [hs])
    exact .inl ⟨first, raiseError_err s e⟩
  | clear d hi => exact .inr (.inl ⟨d, hi, by_contra fun hd => hne (if_neg hd)⟩)
  | softReset hi => exact .inr (.inr hi)
  | _ => simp at hne

/-- Settles O53: by the effect of the instruction, register by register. -/
theorem onlyTheseWriteTheRegisters : Obligations.OnlyTheseWriteTheRegisters := by
  intro i s t h
  have e := exec_effect h
  exact ⟨e.params_eq, rfl, rfl, congrArg Params.cfgWord e.params_eq, e.of_digest_ne, e.of_msgBuf_ne, e.of_msgLen_ne,
    e.of_irqEn_ne, e.of_seed_ne, e.of_blkcnt_ne, e.of_stage_ne, e.of_done_set, e.of_done_cleared, e.of_err_set,
    e.of_err_cleared, e.of_errCode_ne⟩

/-! ## The interrupt output -/

theorem raiseError_irq (s : State) (e : ErrCode) : (s.raiseError e).irq = s.irqEn := by simp [State.irq]

theorem startRun_irq (s : State) : s.startRun.irq = (s.irqEn && s.err) := by simp [State.irq]

theorem softReset_irq (s : State) : s.softReset.irq = false := by simp [State.irq]

/-- The release of the reset input is the hard reset (70_reset_and_hazards.md R340). -/
theorem step_releaseReset {ts : List Turn} (asserted : s.rstAsserted = true) (hts : s.turns = .releaseReset :: ts) :
    step s = .next { s.afterTurn.hardReset with rstAsserted := false } := by
  simp [step, State.nextTurn, hts, State.releaseReset, asserted]

/-- What START, `WR MSG_LEN` and a write of a backed buffer word answer during a run. -/
theorem refused_of_busy (busy : s.busy = true)
    (hi : i = .cmdStart ∨ (∃ d, i = .wrMsgLen d) ∨ ∃ w d, i = .wrBuf w d ∧ w.toNat < s.params.bufBytes / 4)
    (h : exec i s = .next t) : t = s.raiseError .busy := by
  obtain rfl | ⟨d, rfl⟩ | ⟨w, d, rfl, backed⟩ := hi
  · simpa [busy] using exec_cmdStart h
  · simpa [busy] using exec_wrMsgLen h
  · simpa [busy, (bufWordBacked_iff _ _).2 backed] using exec_wrBuf h

/-- The instructions that can raise an error, whatever the state. -/
theorem RaisesError.instr (cause : RaisesError i s) :
    i = .cmdStart ∨ (∃ w, i = .cmdIllegal w) ∨ (∃ d, i = .wrCmd d) ∨ (∃ d, i = .wrMsgLen d) ∨
      ∃ w d, i = .wrBuf w d := by
  obtain ⟨w, h⟩ | ⟨w, h, -⟩ | ⟨-, -, h | h⟩ | ⟨-, (h | h) | ⟨d, h⟩ | ⟨w, d, h, -⟩⟩ := cause
  · exact .inr (.inl ⟨w, h⟩)
  · exact .inr (.inr (.inl ⟨w, h⟩))
  · exact .inl h
  · exact .inr (.inr (.inl ⟨1, h⟩))
  · exact .inl h
  · exact .inr (.inr (.inl ⟨1, h⟩))
  · exact .inr (.inr (.inr (.inl ⟨d, h⟩)))
  · exact .inr (.inr (.inr (.inr ⟨w, d, h⟩)))

/-- The instructions that can move `irq`. -/
theorem Effect.of_irq_ne (h : Effect i s t) (hne : t.irq ≠ s.irq) :
    i = .stageCompress ∨ i = .cmdStart ∨ i = .cmdSoftReset ∨ (∃ w, i = .cmdIllegal w) ∨ (∃ d, i = .wrCmd d) ∨
      (∃ d, i = .wrMsgLen d) ∨ (∃ w d, i = .wrBuf w d) ∨ (∃ d, i = .wrStatus d) ∨ (∃ d, i = .wrCtrl d) := by
  cases h with
  | raise e cause => obtain h | h | h | h | h := cause.instr <;> simp [h]
  | start accepted => obtain ⟨-, -, rfl | rfl⟩ := accepted <;> simp
  | softReset hi => obtain rfl | rfl := hi <;> simp
  | setIrqEn d hi => simp [hi]
  | clear d hi => simp [hi]
  | compress hi => exact .inl hi
  | _ => simp [State.irq] at hne

/-- Settles O29: the outcome of each instruction of the list, and the effects that move `irq`. -/
theorem irqFollowsDoneAndErr : Obligations.IrqFollowsDoneAndErr := by
  intro s
  refine ⟨by simp [State.irq], fun t h => ?compress, fun w t h => ?illegal, fun busy i t hi h => ?refused,
    fun idle long t h => ?long, fun idle fits t h => ?start, fun d t h => ?clear, fun d t h => ?enable,
    fun t h => ?abort, fun t h => ?softReset, fun ts t asserted hts h => ?release, fun i t h => (exec_effect h).of_irq_ne⟩
  case compress => simp [exec_stageCompress h, State.irq]
  case illegal => rw [exec_cmdIllegal h, raiseError_irq]
  case refused => rw [refused_of_busy busy hi h, raiseError_irq]
  case long =>
    obtain ⟨busy, -⟩ | ⟨-, -, rfl⟩ | ⟨-, fits, -⟩ := exec_cmdStart h
    · simp [idle] at busy
    · exact raiseError_irq ..
    · omega
  case start =>
    obtain ⟨busy, -⟩ | ⟨-, long, -⟩ | ⟨-, -, rfl⟩ := exec_cmdStart h
    · simp [idle] at busy
    · omega
    · exact startRun_irq s
  case clear => simp [exec_wrStatus h, State.irq]
  case enable => simp [exec_wrCtrl h, State.irq]
  case abort => obtain ⟨-, rfl⟩ | ⟨-, rfl⟩ := exec_cmdAbort h <;> rfl
  case softReset => rw [exec_cmdSoftReset h, softReset_irq]
  case release =>
    rw [step_releaseReset asserted hts] at h
    obtain rfl := Host.Outcome.next.inj h
    exact softReset_irq s.afterTurn

/-! ## Reset -/

/-- The host sees the reset values where the registers it reads, and `stage`, hold theirs (10_state.md R45). -/
theorem hostVisibleAtReset_of_registers (stage : s.stage = StageCode.idle) (irqEn : s.irqEn = false)
    (done : s.done = false) (err : s.err = false) (errCode : s.errCode = .none) (msgLen : s.msgLen = 0)
    (seed : s.seed = 0) (blkcnt : s.blkcnt = 0) (digest : s.digest = Vector.replicate 16 0) : s.HostVisibleAtReset := by
  have busy := (not_busy_iff s).2 stage
  have ctrl : s.ctrlWord = 0 := by simp [State.ctrlWord, irqEn]
  have status : s.statusWord = 0 := by simp [State.statusWord, ErrCode.code, stage, done, err, errCode, busy]
  have digestWord (k : Fin 16) : s.digest.get k = 0 := by simp [digest]
  exact ⟨rfl, rfl, rfl, ctrl, status, msgLen, seed, blkcnt, digestWord, stage, busy, done, err, errCode, irqEn,
    by simp [State.irq, irqEn]⟩

theorem resetAt_hostVisible (P : Params) : (State.resetAt P).HostVisibleAtReset :=
  hostVisibleAtReset_of_registers rfl rfl rfl rfl rfl rfl rfl rfl rfl

theorem softReset_hostVisible (s : State) : s.softReset.HostVisibleAtReset :=
  hostVisibleAtReset_of_registers rfl rfl rfl rfl rfl rfl rfl rfl rfl

/-- Settles O11: the registers hold their reset values in both states; SOFT_RESET leaves the rest. -/
theorem resetAndSoftResetValues : Obligations.ResetAndSoftResetValues :=
  ⟨fun P => ⟨resetAt_hostVisible P, rfl, fun _ => rfl⟩, ⟨Config.thisHardware, rfl, rfl, rfl⟩, rfl,
    fun s => ⟨s.softReset, rfl, softReset_hostVisible s, rfl, rfl, fun _ => rfl, rfl, rfl, rfl, rfl⟩⟩

/-- An idle engine is on track: no stage is about to be performed. -/
theorem onTrack_of_idle (idle : s.stage = StageCode.idle) : s.OnTrack := by
  constructor <;> simp [idle]

theorem resetAt_inv (P : Params) : (State.resetAt P).Inv := .of_idle rfl (wf_nil _) (by simp [State.resetAt])

/-- Settles O13: the engine is idle after reset, with no byte written and no error recorded. -/
theorem resetMeetsTheInvariant : Obligations.ResetMeetsTheInvariant :=
  ⟨fun P => ⟨resetAt_inv P, onTrack_of_idle rfl⟩, resetAt_inv _, onTrack_of_idle rfl, rfl, rfl⟩

end Sys2Proof.Machine
end

section
/-! PROOFS. The statements of 20_memory.md: the aligned word access, the buffer's byte lanes, what a repeated write
leaves, the reads that do not exist, and what a step takes up. -/

namespace Sys2Proof.Machine

variable {s : State}

/-! ## The aligned word access -/

/-- Settles O6: decoding ignores the two low offset bits, and every transaction row goes on. -/
theorem everyAccessIsAnAlignedWordAndGoesOn : Obligations.EveryAccessIsAnAlignedWordAndGoesOn := by
  intro P off data s
  have aligned : decodeOff P (off &&& 0xFFFC#16) = decodeOff P off := decodeOff_align P off
  exact ⟨by simp only [decode, aligned], by simp only [decode, decodeWrite, aligned], ⟨_, rfl⟩,
    exec_wr_next P off data s⟩

/-! ## What a step takes up -/

theorem nextTurn_of_turns {u : Turn} {ts : List Turn} (h : s.turns = u :: ts) : s.nextTurn = u := by
  simp [State.nextTurn, h]

theorem nextTurn_of_busy (h : s.turns = []) (busy : s.busy = true) : s.nextTurn = .engine := by
  simp [State.nextTurn, h, busy]

theorem nextTurn_of_idle (h : s.turns = []) (idle : s.busy = false) : s.nextTurn = .host := by
  simp [State.nextTurn, h, idle]

theorem afterTurn_of_turns_nil (h : s.turns = []) : s.afterTurn = s := by
  rw [State.afterTurn, h, List.tail_nil, ← h]

/-- Where something is taken up, the step is the decoded instruction in the state in which the turn is taken. -/
theorem step_of_fetch {w : CodeWord} (h : s.fetch = some w) : step s = exec (decode s.params w) s.advance := by
  obtain ⟨-, ⟨turn, -⟩ | ⟨turn, -⟩⟩ := fetch_cases h <;> simp [step, agentStep, turn, h]

/-- The engine's turn: the code in the sequencer register (40_commands.md R130). -/
theorem step_engine (released : s.rstAsserted = false) (turn : s.nextTurn = .engine) :
    step s = exec (decode s.params (.stage s.stage)) s.afterTurn := by
  have taken : s.fetch = some (.stage s.stage) := by simp [State.fetch, released, turn]
  rw [step_of_fetch taken, State.advance, turn]

/-- The host's turn with an operation pending: its record, in the state in which the operation is consumed as
`State.hostAfter` says. -/
theorem step_host {op : HostOp} {ops : List HostOp} (released : s.rstAsserted = false) (turn : s.nextTurn = .host)
    (pending : s.host = op :: ops) :
    step s = exec (decode s.params (hostCodeWord op)) { s.afterTurn with host := s.hostAfter } := by
  have taken : s.fetch = some (hostCodeWord op) := by simp [State.fetch, released, turn, pending]
  have advanced : s.advance = { s.afterTurn with host := s.hostAfter } := by simp [State.advance, released, turn]
  rw [step_of_fetch taken, advanced]

theorem hostAfter_of_host_nil (empty : s.host = []) : s.hostAfter = s.host := by
  simp [State.hostAfter, empty]

/-- The host's turn with nothing to issue passes (20_memory.md R72; log entry 2). -/
theorem step_host_nil (turn : s.nextTurn = .host) (empty : s.host = []) : step s = .next s.afterTurn := by
  have advanced : s.advance = s.afterTurn := by
    obtain h | h := advance_cases s
    · exact h
    · rw [h, hostAfter_of_host_nil empty]
      rfl
  simp [step, agentStep, State.fetch, turn, empty, advanced]

/-- Every operation but a POLL is consumed by its transaction. -/
theorem hostAfter_of_ne_poll {op : HostOp} {ops : List HostOp} (pending : s.host = op :: ops)
    (single : ∀ off mask value, op ≠ .poll off mask value) : s.hostAfter = ops := by
  cases op with
  | poll off mask value => exact absurd rfl (single off mask value)
  | _ => simp [State.hostAfter, pending]

/-- Settles O8: whose turn it is, and what that agent's turn takes up. -/
theorem stepRunsTheDecodedInstruction : Obligations.StepRunsTheDecodedInstruction := by
  refine ⟨fun s ts op ops released turns pending single => ?hostTurn, fun s ts released turns => ?engineTurn,
    fun s released turns busy => ?defaultEngine, fun s op ops released turns idle pending single => ?defaultHost,
    fun s ts _ turns empty => ?nothingPending⟩
  case hostTurn =>
    rw [step_host released (nextTurn_of_turns turns) pending, hostAfter_of_ne_poll pending single, State.afterTurn,
      turns, List.tail_cons]
  case engineTurn => rw [step_engine released (nextTurn_of_turns turns), State.afterTurn, turns, List.tail_cons]
  case defaultEngine => rw [step_engine released (nextTurn_of_busy turns busy), afterTurn_of_turns_nil turns]
  case defaultHost =>
    rw [step_host released (nextTurn_of_idle turns idle) pending, hostAfter_of_ne_poll pending single,
      afterTurn_of_turns_nil turns]
  case nothingPending => rw [step_host_nil (nextTurn_of_turns turns) empty, State.afterTurn, turns, List.tail_cons]

/-! ## The buffer's byte lanes -/

/-- Every offset of the backed window selects its buffer word (20_memory.md R63). -/
theorem decodeOff_backed {P : Params} {off : Offset} (lo : 0x1000 ≤ off.toNat) (hi : off.toNat < 0x1000 + P.bufBytes) :
    ∃ w : BitVec 14, decodeOff P off = .buf w ∧ bufWordBacked P w = true ∧ w.toNat = (off.toNat - 0x1000) / 4 := by
  have window : off.extractLsb' 12 4 ≠ 0#4 := by
    intro zero
    have field := congrArg BitVec.toNat zero
    simp only [BitVec.extractLsb'_toNat, BitVec.toNat_ofNat, Nat.shiftRight_eq_div_pow] at field
    omega
  have index : (off.extractLsb' 2 14 - 0x400#14).toNat = (off.toNat - 0x1000) / 4 := by
    simp only [BitVec.toNat_sub, BitVec.extractLsb'_toNat, BitVec.toNat_ofNat, Nat.shiftRight_eq_div_pow]
    omega
  have backed : bufWordBacked P (off.extractLsb' 2 14 - 0x400#14) = true := by
    rw [bufWordBacked_iff, index, bufBytes_div]
    unfold Params.bufBytes at hi
    omega
  exact ⟨_, by rw [decodeOff, if_neg window, decodeWindowIndex, if_pos backed], backed, index⟩

/-- The lanes of a bus word (20_memory.md R63). -/
theorem bufWord_lane (s : State) (w : Nat) (m : Fin 4) : laneByte (s.bufWord w) m = s.bufByte (4 * w + m.val) := by
  obtain ⟨lane0, lane1, lane2, lane3⟩ :=
    be32_lane (s.bufByte (4 * w)) (s.bufByte (4 * w + 1)) (s.bufByte (4 * w + 2)) (s.bufByte (4 * w + 3))
  fin_cases m
  · exact lane0
  · exact lane1
  · exact lane2
  · exact lane3

/-- Settles O15: the offset selects a backed word, whose lanes are its bytes. -/
theorem bufferReadHasBigEndianLanes : Obligations.BufferReadHasBigEndianLanes := by
  intro s off lo hi
  obtain ⟨w, selected, backed, index⟩ := decodeOff_backed lo hi
  have read : s.readTarget (decodeOff s.params off) = s.bufWord w.toNat := by
    rw [selected, State.readTarget, if_pos backed]
  refine ⟨s.bufWord w.toNat, by simp only [decode, exec, execRd, read], fun m => ?_⟩
  rw [← index, Nat.mul_comm w.toNat]
  exact bufWord_lane s w.toNat m

/-! ## Writes to the buffer and to `MSG_LEN` -/

theorem exec_wrMsgLen_of_busy (busy : s.busy = true) (d : Word) :
    exec (.wrMsgLen d) s = .next (s.raiseError .busy) := if_pos busy

theorem exec_wrMsgLen_of_idle (idle : s.busy = false) (d : Word) :
    exec (.wrMsgLen d) s = .next { s with msgLen := d } := by
  simp [exec, execWrMsgLen, idle]

theorem exec_wrBuf_of_busy {w : BitVec 14} (backed : bufWordBacked s.params w = true) (busy : s.busy = true) (d : Word) :
    exec (.wrBuf w d) s = .next (s.raiseError .busy) := by
  simp [exec, execWrBuf, backed, busy]

theorem exec_wrBuf_of_idle {w : BitVec 14} (backed : bufWordBacked s.params w = true) (idle : s.busy = false) (d : Word) :
    exec (.wrBuf w d) s = .next { s with msgBuf := Memory.writeWord s.msgBuf (bufWordAddr w) d } := by
  simp [exec, execWrBuf, backed, idle]

/-- Settles O19: the word written while idle is read back lane by lane and moves no other byte. -/
theorem writeBufferStoresFourBytes : Obligations.WriteBufferStoresFourBytes := by
  intro w data s hw
  have backed : bufWordBacked s.params w = true := (bufWordBacked_iff _ _).2 hw
  have inBuffer : bufWordAddr w + 3 < s.params.bufBytes := by
    unfold bufWordAddr
    omega
  refine ⟨fun idle => ⟨_, exec_wrBuf_of_idle backed idle data, ?lanes, ?others, rfl, ?canonical, rfl⟩,
    exec_wrBuf_of_busy (d := data) backed⟩
  case lanes => exact read_writeWord_lane s.msgBuf s.bufDraw (bufWordAddr w) data
  case others => exact fun n outside => read_writeWord_other s.msgBuf s.bufDraw data (by omega)
  case canonical => exact wf_writeWord s.msgBuf data inBuffer

/-! ## Repeated writes -/

/-- A second error leaves the first (60_exceptions.md R305). -/
theorem raiseError_raiseError (s : State) (e e' : ErrCode) : (s.raiseError e).raiseError e' = s.raiseError e :=
  if_pos (raiseError_err s e)

theorem rising_writeWord {m : Memory} (n : Nat) (d : Word) (h : Memory.rising m = true) :
    Memory.rising (Memory.writeWord m n d) = true :=
  rising_write _ _ _ (rising_write _ _ _ (rising_write _ _ _ (rising_write _ _ _ h)))

/-- Writing the same word again finds its four bytes written. -/
theorem writeWord_writeWord {m : Memory} (n : Nat) (d : Word) (h : Memory.rising m = true) :
    Memory.writeWord (Memory.writeWord m n d) n d = Memory.writeWord m n d := by
  have once := rising_writeWord n d h
  refine memory_ext (rising_writeWord n d once) once fun k => ?_
  simp only [Memory.writeWord, find?_write]
  split_ifs <;> rfl

/-- Settles O21: a refused write is refused again with the error standing, a stored value is stored over itself. -/
theorem repeatedWritesAreIdempotent : Obligations.RepeatedWritesAreIdempotent := by
  intro s t data w canonical
  refine ⟨fun h => ?ctrl, fun h => ?msgLen, fun h => ?buf⟩
  case ctrl =>
    obtain rfl := exec_wrCtrl h
    rfl
  case msgLen =>
    obtain ⟨busy, rfl⟩ | ⟨idle, rfl⟩ := exec_wrMsgLen h
    · rw [exec_wrMsgLen_of_busy (by rwa [raiseError_busy]), raiseError_raiseError]
    · exact exec_wrMsgLen_of_idle (s := { s with msgLen := data }) idle data
  case buf =>
    obtain ⟨-, rfl⟩ | ⟨backed, busy, rfl⟩ | ⟨backed, idle, rfl⟩ := exec_wrBuf h
    · exact h
    · rw [exec_wrBuf_of_busy (by rwa [raiseError_params]) (by rwa [raiseError_busy]), raiseError_raiseError]
    · have rising : Memory.rising s.msgBuf = true := (Bool.and_eq_true_iff.1 canonical).1
      have again := exec_wrBuf_of_idle (s := { s with msgBuf := Memory.writeWord s.msgBuf (bufWordAddr w) data })
        backed idle data
      rwa [writeWord_writeWord _ _ rising] at again

/-! ## Bytes that do not exist -/

/-- LOAD can read its block exactly where every message byte of the block is in the buffer (20_memory.md R64). -/
theorem loadReadable_iff (s : State) : s.loadReadable = true ↔
    ∀ m : Fin 64, 64 * s.blk.toNat + m.val < s.lenL.toNat → 64 * s.blk.toNat + m.val < s.params.bufBytes := by
  rw [State.loadReadable, Bool.or_eq_true, decide_eq_true_eq, decide_eq_true_eq, State.loadEnd]
  constructor
  · intro h m message
    omega
  · intro h
    by_contra outside
    -- the last message byte of the block is the one that is missing
    have last := h ⟨min s.lenL.toNat (64 * s.blk.toNat + 64) - 1 - 64 * s.blk.toNat, by omega⟩
    dsimp only at last
    omega

/-- Settles O44: SEED reads up to `LEN_L`, LOAD the message bytes of its block. -/
theorem readsOutsideTheBufferStop : Obligations.ReadsOutsideTheBufferStop := by
  intro s long
  refine ⟨?seed, fun m message outside => ?load, fun inside => ⟨_, if_pos ((loadReadable_iff s).2 inside)⟩⟩
  case seed =>
    have unreadable : ¬s.seedReadable = true := by
      rw [State.seedReadable, decide_eq_true_eq]
      omega
    exact if_neg unreadable
  case load =>
    have unreadable : ¬s.loadReadable = true := fun h => absurd ((loadReadable_iff s).1 h m message) (by omega)
    exact if_neg unreadable

end Sys2Proof.Machine
end

section
/-! PROOFS. The statements of 30_encoding.md: the round trips of decoder and encoder, the offset map of R91, the illegal
command words of R95, the reserved stage codes of R101 and the POLL of R104. -/

namespace Sys2Proof.Machine

variable {s : State} {P : Params}

/-! ## Aligned offsets -/

theorem regOffset_toNat (n : BitVec 10) : (regOffset n).toNat = 4 * n.toNat := by
  simp only [regOffset, BitVec.toNat_shiftLeft, BitVec.toNat_setWidth, Nat.shiftLeft_eq]
  omega

theorem alignOff_eq_regOffset {off : Offset} {n : BitVec 10} (h : off.toNat / 4 * 4 = 4 * n.toNat) :
    alignOff off = regOffset n :=
  BitVec.eq_of_toNat_eq ((alignOff_toNat off).trans (h.trans (regOffset_toNat n).symm))

theorem alignOff_eq_windowOffset {off : Offset} {w : BitVec 14} (h : off.toNat / 4 * 4 = 4 * w.toNat + 0x1000) :
    alignOff off = windowOffset w :=
  BitVec.eq_of_toNat_eq ((alignOff_toNat off).trans (h.trans (windowOffset_toNat w (by omega)).symm))

theorem decodeOff_alignOff (off : Offset) : decodeOff P (alignOff off) = decodeOff P off := decodeOff_align P off

/-- The register block by the number of the aligned offset (10_state.md R31). -/
theorem decodeOff_register {off : Offset} {n : BitVec 10} (h : off.toNat / 4 * 4 = 4 * n.toNat) :
    decodeOff P off = decodeRegIndex n := by
  rw [← decodeOff_alignOff, alignOff_eq_regOffset h, decodeOff_regOffset]

/-- The window by the number of the aligned offset (20_memory.md R63, R67). -/
theorem decodeOff_window {off : Offset} {w : BitVec 14} (h : off.toNat / 4 * 4 = 4 * w.toNat + 0x1000) :
    decodeOff P off = decodeWindowIndex P w := by
  rw [← decodeOff_alignOff, alignOff_eq_windowOffset h, decodeOff_windowOffset P w (by omega)]

/-- Every offset is that of a register word or of a window word. -/
theorem offset_cases (off : Offset) : (∃ n : BitVec 10, off.toNat / 4 * 4 = 4 * n.toNat) ∨
    ∃ w : BitVec 14, off.toNat / 4 * 4 = 4 * w.toNat + 0x1000 := by
  by_cases register : off.toNat < 0x1000
  · refine .inl ⟨BitVec.ofNat 10 (off.toNat / 4), ?_⟩
    rw [BitVec.toNat_ofNat]
    omega
  · refine .inr ⟨BitVec.ofNat 14 (off.toNat / 4 - 0x400), ?_⟩
    rw [BitVec.toNat_ofNat]
    omega

/-! ## The two decode tables of an offset -/

/-- A register word is given back by its target (10_state.md R31). -/
theorem encodeOff_decodeRegIndex (n : BitVec 10) : encodeOff (decodeRegIndex n) = regOffset n := by
  apply BitVec.eq_of_toNat_eq
  rw [regOffset_toNat]
  unfold decodeRegIndex
  split
  case h_10 =>
    split_ifs with digest
    · simp only [encodeOff, Fin.ofNat, BitVec.toNat_ofNat]
      omega
    · exact regOffset_toNat n
  all_goals simp [encodeOff, *]

theorem decodeRegIndex_wf (n : BitVec 10) : (decodeRegIndex n).wf P = true := by
  unfold decodeRegIndex
  split
  case h_10 =>
    split_ifs with digest
    · rfl
    · -- omega needs the excluded indices as `¬n.toNat = k`, where `split` leaves `n.toNat = k → False`
      simp only [imp_false] at *
      simp only [Target.wf, regIndexReserved, Bool.or_eq_true, Bool.and_eq_true, decide_eq_true_eq]
      omega
  all_goals rfl

/-- The backed words are those whose bytes are in the buffer (20_memory.md R63). -/
theorem bufWordBacked_iff_addr (w : BitVec 14) : bufWordBacked P w = true ↔ 4 * w.toNat < P.bufBytes := by
  rw [bufWordBacked_iff, Params.bufBytes]
  omega

theorem decodeWindowIndex_of_backed {w : BitVec 14} (h : 4 * w.toNat < P.bufBytes) : decodeWindowIndex P w = .buf w :=
  if_pos ((bufWordBacked_iff_addr w).2 h)

theorem decodeWindowIndex_of_beyond {w : BitVec 14} (h : P.bufBytes ≤ 4 * w.toNat) :
    decodeWindowIndex P w = .beyond w :=
  if_neg (mt (bufWordBacked_iff_addr w).1 (Nat.not_lt.2 h))

theorem encodeOff_decodeWindowIndex (w : BitVec 14) : encodeOff (decodeWindowIndex P w) = windowOffset w := by
  unfold decodeWindowIndex
  split <;> rfl

theorem decodeWindowIndex_wf {w : BitVec 14} (h : w.toNat < 15360) : (decodeWindowIndex P w).wf P = true := by
  unfold decodeWindowIndex
  split
  case isTrue backed => exact backed
  case isFalse beyond => simp [Target.wf, windowWordBeyond, beyond, h]

/-- An offset is given back with the ignored bits cleared (20_memory.md R69). -/
theorem encodeOff_decodeOff (off : Offset) : encodeOff (decodeOff P off) = alignOff off := by
  obtain ⟨n, h⟩ | ⟨w, h⟩ := offset_cases off
  · rw [decodeOff_register h, encodeOff_decodeRegIndex, alignOff_eq_regOffset h]
  · rw [decodeOff_window h, encodeOff_decodeWindowIndex, alignOff_eq_windowOffset h]

theorem decodeOff_wf (off : Offset) : (decodeOff P off).wf P = true := by
  obtain ⟨n, h⟩ | ⟨w, h⟩ := offset_cases off
  · rw [decodeOff_register h]
    exact decodeRegIndex_wf n
  · rw [decodeOff_window h]
    exact decodeWindowIndex_wf (by omega)

/-- Settles O5: the aligned offset is that of one register word or of one window word, whose number selects the target. -/
theorem offsetDecodeFollowsTheMap : Obligations.OffsetDecodeFollowsTheMap := by
  intro P off o
  refine ⟨decodeOff_register (n := 0), decodeOff_register (n := 1), decodeOff_register (n := 2),
    decodeOff_register (n := 3), decodeOff_register (n := 4), decodeOff_register (n := 5), decodeOff_register (n := 6),
    decodeOff_register (n := 7), decodeOff_register (n := 8), ?digest, ?reserved, ?backed, ?beyond⟩
  case digest =>
    intro k h
    have aligned : alignOff off = encodeOff (.digest k) := BitVec.eq_of_toNat_eq <| by
      rw [encodeOff, BitVec.toNat_ofNat, alignOff, alignOff_toNat]
      omega
    rw [← decodeOff_alignOff, aligned, encodeOff_digest_table]
  case reserved =>
    intro h
    have number : (BitVec.ofNat 10 (o / 4)).toNat = o / 4 := by
      rw [BitVec.toNat_ofNat]
      omega
    rw [decodeOff_register (n := BitVec.ofNat 10 (o / 4)) (by omega), decodeRegIndex_reserved]
    simp only [regIndexReserved, number, Bool.or_eq_true, Bool.and_eq_true, decide_eq_true_eq]
    omega
  all_goals
    have number : (BitVec.ofNat 14 ((o - 0x1000) / 4)).toNat = (o - 0x1000) / 4 := by
      rw [BitVec.toNat_ofNat]
      omega
  case backed =>
    rintro ⟨lo, hi⟩
    rw [decodeOff_window (w := BitVec.ofNat 14 ((o - 0x1000) / 4)) (by omega), decodeWindowIndex_of_backed (by omega)]
  case beyond =>
    intro lo
    rw [decodeOff_window (w := BitVec.ofNat 14 ((o - 0x1000) / 4)) (by omega), decodeWindowIndex_of_beyond (by omega)]

/-! ## Writes -/

/-- A write that is ignored is decoded with its target. -/
theorem decodeWrite_of_writeIgnored {off : Offset} {t : Target} (selected : decodeOff P off = t)
    (ignored : t.writeIgnored = true) (data : Word) : decodeWrite P off data = .wrIgnored t data := by
  unfold decodeWrite
  rw [selected]
  cases t with
  | ctrl | cmd | status | msgLen | buf => cases ignored
  | _ => rfl

theorem encode_decodeWrite (off : Offset) (data : Word) :
    encode (decodeWrite P off data) = .wr (encodeOff (decodeOff P off)) data := by
  unfold decodeWrite
  cases decodeOff P off <;> rfl

theorem decodeWrite_wf (off : Offset) (data : Word) : (decodeWrite P off data).wf P = true := by
  have wf : (decodeOff P off).wf P = true := decodeOff_wf off
  unfold decodeWrite
  generalize decodeOff P off = t at wf
  cases t with
  | ctrl | cmd | status | msgLen => rfl
  | buf w => exact wf
  | _ => exact Bool.and_eq_true_iff.2 ⟨wf, rfl⟩

/-! ## The round trips -/

/-- Settles O2: the operands of each row are read back from its code word. -/
theorem decodeOfEncodeIsTheInstruction : Obligations.DecodeOfEncodeIsTheInstruction := by
  intro P i wf
  cases i with
  | cmdIllegal w => exact congrArg Command.instr (decodeCommand_illegal w (by simpa [Instr.wf] using wf))
  | rd t => exact congrArg Instr.rd (decodeOff_encodeOff P t wf)
  | wrBuf w data =>
    have selected : decodeOff P (windowOffset w) = .buf w := decodeOff_encodeOff P (.buf w) wf
    simp only [encode, decode, decodeWrite, selected]
  | wrIgnored t data =>
    obtain ⟨legal, ignored⟩ := Bool.and_eq_true_iff.1 wf
    exact decodeWrite_of_writeIgnored (decodeOff_encodeOff P t legal) ignored data
  | stageReserved code => exact decodeStage_reserved code (of_decide_eq_true wf)
  | _ => rfl

/-- Settles O3: the bytes spell the code word, which decodes to the instruction. -/
theorem bytesOfEncodeDecodeToTheInstruction : Obligations.BytesOfEncodeDecodeToTheInstruction := by
  intro P i wf
  rw [decodeBytes, encodeBytes, recordOfBytes_toBytes]
  exact congrArg Except.ok (decodeOfEncodeIsTheInstruction P i wf)

/-- A command word is given back by its row (30_encoding.md R94, R95). -/
theorem decodeCommand_canonical (w : Word) :
    (decodeCommand w).instr.wf P = true ∧ encode (decodeCommand w).instr = .cmd w := by
  obtain ⟨rfl, -⟩ | ⟨rfl, -⟩ | ⟨rfl, -⟩ | ⟨rfl, -⟩ | ⟨illegal, decoded⟩ := decodeCommand_cases w
  iterate 4 exact ⟨rfl, rfl⟩
  · rw [decoded]
    exact ⟨by simpa [Command.instr, Instr.wf, commandWordLegal] using illegal, rfl⟩

/-- A stage code is given back by its row (30_encoding.md R100, R101). -/
theorem decodeStage_canonical (code : BitVec 4) :
    (decodeStage code).wf P = true ∧ encode (decodeStage code) = .stage code := by
  obtain rfl | rfl | rfl | rfl | rfl | rfl | rfl | rfl | rfl | rfl | rfl | reserved := stage_cases code
  iterate 11 exact ⟨rfl, rfl⟩
  · rw [decodeStage_reserved code reserved]
    exact ⟨decide_eq_true reserved, rfl⟩

/-- Settles O4: by the kinds of code word. -/
theorem encodeOfDecodeIsCanonical : Obligations.EncodeOfDecodeIsCanonical := by
  intro P w
  cases w with
  | rd off => exact ⟨decodeOff_wf off, congrArg CodeWord.rd (encodeOff_decodeOff off)⟩
  | wr off data =>
    refine ⟨decodeWrite_wf off data, ?_⟩
    rw [decode, encode_decodeWrite, encodeOff_decodeOff, CodeWord.canonical]
  | cmd word => exact decodeCommand_canonical word
  | stage code => exact decodeStage_canonical code

/-- Settles O1: the decoder evaluated on each word. -/
theorem decodeOfWrittenOutWords : Obligations.DecodeOfWrittenOutWords :=
  ⟨rfl, rfl, rfl, rfl, rfl, rfl, rfl, rfl, rfl, rfl, rfl, rfl, rfl, rfl, rfl, rfl, rfl, rfl, rfl, rfl, rfl, rfl⟩

/-! ## Illegal command words and reserved stage codes -/

/-- A nonzero `RSVD` or an `OPCODE` of 4 or more (30_encoding.md R95), as a number. -/
theorem commandFields_illegal_iff (w : Word) :
    (w.extractLsb' 4 28 ≠ 0#28 ∨ 4 ≤ (w.extractLsb' 0 4).toNat) ↔ 4 ≤ w.toNat := by
  rw [Ne, ← BitVec.toNat_inj]
  simp only [BitVec.extractLsb'_toNat, BitVec.toNat_ofNat, Nat.shiftRight_eq_div_pow]
  omega

theorem decode_cmd_illegal_iff (w : Word) : decode P (.cmd w) = .cmdIllegal w ↔ 4 ≤ w.toNat := by
  rw [decode]
  obtain ⟨rfl, decoded⟩ | ⟨rfl, decoded⟩ | ⟨rfl, decoded⟩ | ⟨rfl, decoded⟩ | ⟨illegal, decoded⟩ :=
    decodeCommand_cases w
  iterate 4 simp [decoded, Command.instr]
  · simp [decoded, Command.instr, illegal]

/-- A write to `CMD` of an illegal word is the error CMD (60_exceptions.md R303). -/
theorem exec_wrCmd_of_illegal {w : Word} (h : 4 ≤ w.toNat) : exec (.wrCmd w) s = .next (s.raiseError .cmd) := by
  have decoded : decodeCommand w = .illegal w := decodeCommand_illegal w (decide_eq_false (by omega))
  simp only [exec, execWrCmd, decoded, execCmdIllegal]

/-- Settles O7: the illegal words are the numbers from 4 on; `State.raiseError` is the whole effect. -/
theorem illegalCommandWordsRaiseCmd : Obligations.IllegalCommandWordsRaiseCmd := by
  intro P w
  rw [commandFields_illegal_iff]
  exact ⟨decode_cmd_illegal_iff w, fun illegal s => exec_wrCmd_of_illegal illegal⟩

/-- Settles O43: the engine's turn runs the row of the reserved code, which faults. -/
theorem reservedStageFaults : Obligations.ReservedStageFaults := by
  intro s ts reserved released turns
  have decoded : decode s.params (.stage s.stage) = .stageReserved s.stage := decodeStage_reserved s.stage reserved
  refine ⟨decoded, ?_, rfl⟩
  rw [step_engine released (nextTurn_of_turns turns), decoded]
  rfl

/-! ## POLL -/

/-- A POLL is consumed by the read that satisfies it (30_encoding.md R104). -/
theorem hostAfter_of_poll {off : Offset} {mask value : Word} {ops : List HostOp}
    (pending : s.host = .poll off mask value :: ops) :
    s.hostAfter = if s.readTarget (decodeOff s.params off) &&& mask = value then ops else s.host := by
  simp [State.hostAfter, State.pollSatisfied, pending]

/-- Settles O9: the host's turn runs the POLL's read. -/
theorem pollReadsUntilSatisfied : Obligations.PollReadsUntilSatisfied := by
  intro s off mask value ops released pending scheduled
  have turn : s.nextTurn = .host := by
    obtain head | ⟨turns, idle⟩ := scheduled
    · obtain ⟨ts, turns⟩ := List.head?_eq_some_iff.1 head
      exact nextTurn_of_turns turns
    · exact nextTurn_of_idle turns idle
  rw [step_host released turn pending, hostAfter_of_poll pending]
  rfl

end Sys2Proof.Machine
end

section
/-! PROOFS. The statements of 40_commands.md: register reads and writes, the command rows, the order of the stages,
and what a run computes in every interleaving. -/

namespace Sys2Proof.Machine

variable {s t : State}

/-! ## Reads -/

/-- A field below a multiple of `2 ^ m` is added to it. -/
theorem toNat_or_of_dvd {x y : Word} (m : Nat) (hx : 2 ^ m ∣ x.toNat) (hy : y.toNat < 2 ^ m) :
    (x ||| y).toNat = x.toNat + y.toNat := by
  obtain ⟨n, hn⟩ := hx
  rw [BitVec.toNat_or, hn, Nat.two_pow_add_eq_or_of_lt hy]

/-- A field of `m` bits, shifted into its place in a word. -/
theorem toNat_field {m : Nat} (x : BitVec m) (n : Nat) (h : m + n ≤ 32) :
    (x.setWidth 32 <<< n).toNat = x.toNat * 2 ^ n := by
  have inWord : x.toNat * 2 ^ n < 2 ^ 32 :=
    calc x.toNat * 2 ^ n < 2 ^ m * 2 ^ n := Nat.mul_lt_mul_of_pos_right x.isLt (by positivity)
      _ = 2 ^ (m + n) := (Nat.pow_add 2 m n).symm
      _ ≤ 2 ^ 32 := Nat.pow_le_pow_right (by decide) h
  have low : x.toNat < 2 ^ 32 := lt_of_le_of_lt (Nat.le_mul_of_pos_right _ (by positivity)) inWord
  rw [BitVec.toNat_shiftLeft, BitVec.toNat_setWidth, Nat.mod_eq_of_lt low, Nat.shiftLeft_eq, Nat.mod_eq_of_lt inWord]

/-- The fields of `STATUS` as a number (30_encoding.md R97): each lies above the fields it is joined with, so that joining
is adding. -/
theorem statusWord_toNat (s : State) : s.statusWord.toNat =
    256 * s.errCode.code.toNat + 16 * s.stage.toNat + 4 * s.err.toNat + 2 * s.done.toNat + s.busy.toNat := by
  have code := toNat_field s.errCode.code 8 (by decide)
  have stage := toNat_field s.stage 4 (by decide)
  have err := toNat_field (BitVec.ofBool s.err) 2 (by decide)
  have done := toNat_field (BitVec.ofBool s.done) 1 (by decide)
  have busy : ((BitVec.ofBool s.busy).setWidth 32).toNat = s.busy.toNat := by cases s.busy <;> rfl
  rw [BitVec.toNat_ofBool] at err done
  have errBit := s.err.toNat_lt
  have doneBit := s.done.toNat_lt
  have busyBit := s.busy.toNat_lt
  unfold State.statusWord
  generalize s.errCode.code.setWidth 32 <<< 8 = codeField at code ⊢
  generalize s.stage.setWidth 32 <<< 4 = stageField at stage ⊢
  generalize (BitVec.ofBool s.err).setWidth 32 <<< 2 = errField at err ⊢
  generalize (BitVec.ofBool s.done).setWidth 32 <<< 1 = doneField at done ⊢
  have above4 := toNat_or_of_dvd (x := codeField) (y := stageField) 8 (by omega) (by omega)
  have above2 := toNat_or_of_dvd (x := codeField ||| stageField) (y := errField) 4 (by omega) (by omega)
  have above1 := toNat_or_of_dvd (x := codeField ||| stageField ||| errField) (y := doneField) 2 (by omega) (by omega)
  rw [toNat_or_of_dvd 1 (by omega) (by omega)]
  omega

theorem statusWord_eq (s : State) : s.statusWord =
    BitVec.ofNat 32 (256 * s.errCode.code.toNat + 16 * s.stage.toNat + (if s.err then 4 else 0) +
      (if s.done then 2 else 0) + (if s.stage = 0x0 then 0 else 1)) := by
  have err : (if s.err then 4 else 0) = 4 * s.err.toNat := by cases s.err <;> rfl
  have done : (if s.done then 2 else 0) = 2 * s.done.toNat := by cases s.done <;> rfl
  have busy : (if s.stage = 0x0 then 0 else 1) = s.busy.toNat := by
    by_cases idle : s.stage = 0#4 <;> simp [State.busy, idle]
  rw [err, done, busy, ← statusWord_toNat, BitVec.ofNat_toNat, BitVec.setWidth_eq]

theorem ctrlWord_eq (s : State) : s.ctrlWord = if s.irqEn then 1 else 0 := by
  unfold State.ctrlWord
  cases s.irqEn <;> rfl

/-- Settles O14: target by target. -/
theorem readReturnsTheRegister : Obligations.ReadReturnsTheRegister := by
  intro s reads
  have read_of {u : Target} {v : Word} (h : s.readTarget u = v) : reads u v := h ▸ rfl
  refine ⟨rfl, rfl, rfl, read_of (ctrlWord_eq s), rfl, read_of (statusWord_eq s), rfl, rfl, rfl, fun _ => rfl,
    fun _ => rfl, fun _ => rfl, fun w beyond => read_of ?_, fun w backed => read_of ?_⟩
  · exact if_neg (mt (bufWordBacked_iff s.params w).1 (Nat.not_lt.2 beyond))
  · exact if_pos ((bufWordBacked_iff s.params w).2 backed)

/-! ## Writes to the registers -/

/-- Settles O16: bit 0 is stored and read back. -/
theorem writeCtrlStoresTheEnable : Obligations.WriteCtrlStoresTheEnable := by
  intro data s
  have bit : (BitVec.ofBool (data.getLsbD 0)).setWidth 32 = data &&& 1#32 :=
    BitVec.and_one_eq_setWidth_ofBool_getLsbD.symm
  exact ⟨{ s with irqEn := data.getLsbD 0 }, rfl, rfl, bit, rfl⟩

/-- Settles O17: by `BUSY`. -/
theorem writeMsgLenStoresOrIsRefused : Obligations.WriteMsgLenStoresOrIsRefused := fun data _ =>
  ⟨fun idle => ⟨_, exec_wrMsgLen_of_idle idle data, rfl, rfl⟩, fun busy => exec_wrMsgLen_of_busy busy data⟩

/-- Settles O18: the two clears in one update. -/
theorem writeStatusClears : Obligations.WriteStatusClears := fun _ _ => congrArg Host.Outcome.next (exec_wrStatus rfl)

/-! ## Commands -/

/-- A write to `CMD` is the row of the command (40_commands.md R125). -/
theorem exec_wrCmd_eq (w : Word) (s : State) : exec (.wrCmd w) s = exec (decodeCommand w).instr s := by
  rw [exec, execWrCmd]
  cases decodeCommand w <;> rfl

theorem decodeWrite_of_cmd {P : Params} {off : Offset} (selected : decodeOff P off = .cmd) (data : Word) :
    decodeWrite P off data = .wrCmd data := by
  rw [decodeWrite, selected]

/-- Settles O10: every spelling of the offset 0x010 selects `CMD`. -/
theorem writeToCmdIsTheCommand : Obligations.WriteToCmdIsTheCommand := by
  intro w s
  obtain ⟨t, ht⟩ := exec_wrCmd_next w s
  refine ⟨t, ht, (exec_wrCmd_eq w s).symm.trans ht, fun off h => ?_⟩
  have selected : decodeOff s.params off = .cmd := decodeOff_register (n := 4) h
  rwa [decode, decodeWrite_of_cmd selected]

theorem exec_cmdAbort_of_idle (idle : s.busy = false) : exec .cmdAbort s = .next s := by
  simp [exec, execCmdAbort, idle]

theorem exec_cmdAbort_of_busy (busy : s.busy = true) :
    exec .cmdAbort s = .next { s.forgetDatapath with stage := StageCode.idle } := if_pos busy

theorem exec_cmdStart_accepted (idle : s.busy = false) (fits : s.msgLen.toNat ≤ s.params.bufBytes) :
    exec .cmdStart s = .next s.startRun := by
  simp [exec, execCmdStart, idle, Nat.not_lt.2 fits]

theorem exec_wrBuf_of_unbacked {w : BitVec 14} (unbacked : ¬bufWordBacked s.params w = true) (d : Word) :
    exec (.wrBuf w d) s = .next s := if_neg unbacked

/-- Settles O20: each form is answered by the state it found. -/
theorem instructionsWithoutEffect : Obligations.InstructionsWithoutEffect := by
  intro s
  refine ⟨rfl, rfl, exec_cmdAbort_of_idle, fun _ _ => rfl, fun off data ignored => ?ignored,
    fun w data beyond => ?beyond, rfl⟩
  case ignored =>
    rw [decode, decodeWrite_of_writeIgnored rfl ignored]
    rfl
  case beyond => exact exec_wrBuf_of_unbacked (mt (bufWordBacked_iff _ _).1 (Nat.not_lt.2 beyond)) data

/-- Settles O25: the latches of `State.startRun`. -/
theorem startBeginsARun : Obligations.StartBeginsARun := fun s idle fits =>
  ⟨s.startRun, exec_cmdStart_accepted idle fits, rfl, nb_toNat s.msgLen (fits.trans (bufBytes_le s.params)), rfl, rfl,
    rfl, rfl, rfl, rfl⟩

/-- Settles O27: only the datapath and `stage` are written. -/
theorem abortStopsTheRun : Obligations.AbortStopsTheRun := fun _ busy =>
  ⟨_, exec_cmdAbort_of_busy busy, rfl, rfl, rfl, rfl⟩

/-! ## The order of the stages -/

/-- The successor that a stage leaves in `stage` (40_commands.md R131). -/
theorem stage_successor (he : exec (decodeStage s.stage) s = .next t) :
    t.stage = (if s.stage = StageCode.idle ∨ s.stage = StageCode.compress then StageCode.idle
      else if s.stage = StageCode.diffuse then (if t.blk < s.nb then StageCode.load else StageCode.compress)
      else s.stage + 1) := by
  generalize hc : s.stage = code at he ⊢
  obtain rfl | rfl | rfl | rfl | rfl | rfl | rfl | rfl | rfl | rfl | rfl | reserved := stage_cases code
  · rw [exec_stageIdle he, hc]; rfl
  · rw [(exec_stageSeed he).2]; rfl
  · rw [exec_stageInit he]; rfl
  · rw [(exec_stageLoad he).2]; rfl
  · rw [exec_stageParams he]; rfl
  · rw [exec_stageAbsorb he]; rfl
  · rw [exec_stageNlmix he]; rfl
  · rw [exec_stagePermgen he]; rfl
  · rw [exec_stagePermute he]; rfl
  · rw [exec_stageDiffuse he]; rfl
  · rw [exec_stageCompress he]; rfl
  · rw [decodeStage_reserved _ reserved] at he
    exact (exec_stageReserved he).elim

/-- No record of the host decodes to a stage row. -/
theorem decode_ne_decodeStage {P : Params} {w : CodeWord} (hw : ∀ code, w ≠ .stage code) (code : BitVec 4) :
    decode P w ≠ decodeStage code := by
  intro same
  have encoded := (encodeOfDecodeIsCanonical P w).2
  rw [same, (decodeStage_canonical (P := P) code).2] at encoded
  cases w with
  | stage c => exact hw c rfl
  | _ => cases encoded

/-- Settles O54: the stages' successors, and the effects of the host's instructions that write `stage`. -/
theorem stageOrder : Obligations.StageOrder := by
  refine ⟨fun s t => stage_successor, fun w i s t hw hi h hne => ?_⟩
  have noStage (code : BitVec 4) : i ≠ decodeStage code := hi ▸ decode_ne_decodeStage hw code
  cases exec_effect h with
  | start accepted =>
    obtain ⟨idle, -, start⟩ := accepted
    exact .inl ⟨rfl, (not_busy_iff s).1 idle, start⟩
  | abort abort => exact .inr ⟨rfl, abort.elim .inl fun h => .inr (.inl h)⟩
  | softReset softReset => exact .inr ⟨rfl, .inr (.inr softReset)⟩
  | seed hi => exact absurd hi (noStage StageCode.seed)
  | datapath code hi => exact absurd hi (noStage code)
  | diffuse hi => exact absurd hi (noStage StageCode.diffuse)
  | compress hi => exact absurd hi (noStage StageCode.compress)
  | _ => simp at hne

/-! ## What a run has computed at each stage -/

/-- Before SEED a run has computed nothing. -/
theorem onTrack_at_seed (hs : s.stage = StageCode.seed) : s.OnTrack := by
  constructor <;> simp [hs]

theorem onTrack_at_init (hs : s.stage = StageCode.init) : s.OnTrack ↔ s.seed = seedFold s.message :=
  ⟨fun h => h.seedIs (by simp [hs]), fun seed => by constructor <;> simp [hs, seed]⟩

/-- Between blocks, before LOAD and before COMPRESS, `S` holds the words of the blocks so far. -/
theorem onTrack_between_blocks (hs : s.stage = StageCode.load ∨ s.stage = StageCode.compress) :
    s.OnTrack ↔ s.seed = seedFold s.message ∧ s.S = s.wordsAtBlock := by
  obtain hs | hs := hs
  · refine ⟨fun h => ⟨h.seedIs (by simp [hs]), h.atLoad hs⟩, fun ⟨seed, words⟩ => ?_⟩
    constructor <;> simp [hs, seed, words]
  · refine ⟨fun h => ⟨h.seedIs (by simp [hs]), h.atCompress hs⟩, fun ⟨seed, words⟩ => ?_⟩
    constructor <;> simp [hs, seed, words]

theorem onTrack_at_params (hs : s.stage = StageCode.params) :
    s.OnTrack ↔ s.seed = seedFold s.message ∧ s.blkr = s.currentBlock ∧ s.S = s.wordsAtBlock :=
  ⟨fun h => ⟨h.seedIs (by simp [hs]), h.blockIs (by simp [hs]) (by simp [hs]), h.atParams hs⟩,
    fun ⟨seed, block, words⟩ => by constructor <;> simp [hs, seed, block, words]⟩

theorem onTrack_at_absorb (hs : s.stage = StageCode.absorb) :
    s.OnTrack ↔ s.seed = seedFold s.message ∧ s.blkr = s.currentBlock ∧
      (s.a = paramA s.currentBlock ∧ s.b = paramB s.currentBlock ∧ s.c = paramC s.currentBlock) ∧
      s.S = s.wordsAtBlock :=
  ⟨fun h => ⟨h.seedIs (by simp [hs]), h.blockIs (by simp [hs]) (by simp [hs]), h.paramsAre (.inl hs), h.atAbsorb hs⟩,
    fun ⟨seed, block, params, words⟩ => by constructor <;> simp [hs, seed, block, params, words]⟩

theorem onTrack_at_nlmix (hs : s.stage = StageCode.nlmix) :
    s.OnTrack ↔ s.seed = seedFold s.message ∧ s.blkr = s.currentBlock ∧
      (s.a = paramA s.currentBlock ∧ s.b = paramB s.currentBlock ∧ s.c = paramC s.currentBlock) ∧
      s.S = absorb s.wordsAtBlock s.currentBlock :=
  ⟨fun h => ⟨h.seedIs (by simp [hs]), h.blockIs (by simp [hs]) (by simp [hs]), h.paramsAre (.inr hs), h.atNlmix hs⟩,
    fun ⟨seed, block, params, words⟩ => by constructor <;> simp [hs, seed, block, params, words]⟩

/-- `S` after NLMIX of the current block. -/
def State.mixedWords (s : State) : Words :=
  nlMix s.params.mixConv (absorb s.wordsAtBlock s.currentBlock) (paramA s.currentBlock) (paramB s.currentBlock)
    (paramC s.currentBlock)

/-- The permutation of the current block. -/
def State.blockPerm (s : State) : Perm := (permGen (ctrSeed s.currentBlock)).1

theorem onTrack_at_permgen (hs : s.stage = StageCode.permgen) :
    s.OnTrack ↔ s.seed = seedFold s.message ∧ s.blkr = s.currentBlock ∧ s.S = s.mixedWords :=
  ⟨fun h => ⟨h.seedIs (by simp [hs]), h.blockIs (by simp [hs]) (by simp [hs]), h.mixedIs (.inl hs)⟩,
    fun ⟨seed, block, words⟩ => by constructor <;> simp [hs, seed, block, words, State.mixedWords]⟩

theorem onTrack_at_permute (hs : s.stage = StageCode.permute) :
    s.OnTrack ↔ s.seed = seedFold s.message ∧ s.blkr = s.currentBlock ∧ s.S = s.mixedWords ∧ s.perm = s.blockPerm :=
  ⟨fun h => ⟨h.seedIs (by simp [hs]), h.blockIs (by simp [hs]) (by simp [hs]), h.mixedIs (.inr hs), h.permIs hs⟩,
    fun ⟨seed, block, words, perm⟩ => by
      constructor <;> simp [hs, seed, block, words, perm, State.mixedWords, State.blockPerm]⟩

theorem onTrack_at_diffuse (hs : s.stage = StageCode.diffuse) :
    s.OnTrack ↔ s.seed = seedFold s.message ∧ s.blkr = s.currentBlock ∧ s.S = permute s.mixedWords s.blockPerm :=
  ⟨fun h => ⟨h.seedIs (by simp [hs]), h.blockIs (by simp [hs]) (by simp [hs]), h.permutedIs hs⟩,
    fun ⟨seed, block, words⟩ => by constructor <;> simp [hs, seed, block, words, State.mixedWords, State.blockPerm]⟩

/-- The stages of a block make up `MixBlock` (44_block_mixer.md). -/
theorem diffuse_permute_mixedWords (s : State) : diffuse (permute s.mixedWords s.blockPerm) =
    stateAfter s.params.mixConv s.message (s.blk.toNat + 1) := rfl

/-! ## Each stage keeps the run on track

The new value of a register is made a variable before the states are compared: otherwise Lean evaluates it to tell it from
the old one. -/

theorem State.OnTrack.after_seed (he : exec .stageSeed s = .next t) : t.OnTrack := by
  obtain ⟨-, rfl⟩ := exec_stageSeed he
  exact (onTrack_at_init rfl).2 rfl

/-- INIT gives the words before block 0, where a run stands. -/
theorem State.OnTrack.after_init (h : s.OnTrack) (hs : s.stage = StageCode.init) (first : s.blk = 0)
    (he : exec .stageInit s = .next t) : t.OnTrack := by
  have seed := (onTrack_at_init hs).1 h
  have words : initialState s.seed = s.wordsAtBlock := by
    rw [seed, State.wordsAtBlock, first]
    rfl
  obtain rfl := exec_stageInit he
  generalize initialState s.seed = S at words
  exact (onTrack_between_blocks (.inl rfl)).2 ⟨seed, words⟩

theorem State.OnTrack.after_load (h : s.OnTrack) (hs : s.stage = StageCode.load)
    (he : exec .stageLoad s = .next t) : t.OnTrack := by
  obtain ⟨seed, words⟩ := (onTrack_between_blocks (.inl hs)).1 h
  have block : padBlock s.bufByte s.lenL.toNat (64 * s.blk.toNat) = s.currentBlock := padBlock_message s _
  obtain ⟨-, rfl⟩ := exec_stageLoad he
  generalize padBlock s.bufByte s.lenL.toNat (64 * s.blk.toNat) = blkr at block
  exact (onTrack_at_params rfl).2 ⟨seed, block, words⟩

theorem State.OnTrack.after_params (h : s.OnTrack) (hs : s.stage = StageCode.params)
    (he : exec .stageParams s = .next t) : t.OnTrack := by
  obtain ⟨seed, block, words⟩ := (onTrack_at_params hs).1 h
  obtain rfl := exec_stageParams he
  exact (onTrack_at_absorb rfl).2
    ⟨seed, block, ⟨congrArg paramA block, congrArg paramB block, congrArg paramC block⟩, words⟩

theorem State.OnTrack.after_absorb (h : s.OnTrack) (hs : s.stage = StageCode.absorb)
    (he : exec .stageAbsorb s = .next t) : t.OnTrack := by
  obtain ⟨seed, block, params, words⟩ := (onTrack_at_absorb hs).1 h
  have absorbed : absorb s.S s.blkr = absorb s.wordsAtBlock s.currentBlock := congrArg₂ absorb words block
  obtain rfl := exec_stageAbsorb he
  generalize absorb s.S s.blkr = S at absorbed
  exact (onTrack_at_nlmix rfl).2 ⟨seed, block, params, absorbed⟩

theorem State.OnTrack.after_nlmix (h : s.OnTrack) (hs : s.stage = StageCode.nlmix)
    (he : exec .stageNlmix s = .next t) : t.OnTrack := by
  obtain ⟨seed, block, ⟨a, b, c⟩, words⟩ := (onTrack_at_nlmix hs).1 h
  have mixed : nlMix s.params.mixConv s.S s.a s.b s.c = s.mixedWords := by rw [words, a, b, c, State.mixedWords]
  obtain rfl := exec_stageNlmix he
  generalize nlMix s.params.mixConv s.S s.a s.b s.c = S at mixed
  exact (onTrack_at_permgen rfl).2 ⟨seed, block, mixed⟩

theorem State.OnTrack.after_permgen (h : s.OnTrack) (hs : s.stage = StageCode.permgen)
    (he : exec .stagePermgen s = .next t) : t.OnTrack := by
  obtain ⟨seed, block, words⟩ := (onTrack_at_permgen hs).1 h
  have perm : (permGen (ctrSeed s.blkr)).1 = s.blockPerm := by rw [block, State.blockPerm]
  obtain rfl := exec_stagePermgen he
  generalize permGen (ctrSeed s.blkr) = generated at perm
  exact (onTrack_at_permute rfl).2 ⟨seed, block, words, perm⟩

theorem State.OnTrack.after_permute (h : s.OnTrack) (hs : s.stage = StageCode.permute)
    (he : exec .stagePermute s = .next t) : t.OnTrack := by
  obtain ⟨seed, block, words, perm⟩ := (onTrack_at_permute hs).1 h
  have permuted : permute s.S s.perm = permute s.mixedWords s.blockPerm := congrArg₂ permute words perm
  obtain rfl := exec_stagePermute he
  generalize permute s.S s.perm = S at permuted
  exact (onTrack_at_diffuse rfl).2 ⟨seed, block, permuted⟩

/-- DIFFUSE completes the block: `S` holds the words of one block more, and LOAD or COMPRESS follows. -/
theorem State.OnTrack.after_diffuse (h : s.OnTrack) (hs : s.stage = StageCode.diffuse) (index : s.blk.toNat < s.nb.toNat)
    (he : exec .stageDiffuse s = .next t) : t.OnTrack := by
  obtain ⟨seed, -, words⟩ := (onTrack_at_diffuse hs).1 h
  have count : (s.blk + 1).toNat = s.blk.toNat + 1 := by bv_omega
  have mixed : diffuse s.S = stateAfter s.params.mixConv s.message (s.blk + 1).toNat := by
    rw [words, diffuse_permute_mixedWords, count]
  obtain rfl := exec_stageDiffuse he
  generalize diffuse s.S = S at mixed
  refine (onTrack_between_blocks ?_).2 ⟨seed, mixed⟩
  by_cases more : s.blk + 1 < s.nb
  · exact .inl (if_pos more)
  · exact .inr (if_neg more)

theorem State.OnTrack.after_stage (h : s.OnTrack) (inv : s.Inv) (he : exec (decodeStage s.stage) s = .next t) :
    t.OnTrack := by
  have legal := inv.stageLegal
  obtain hc | hc | hc | hc | hc | hc | hc | hc | hc | hc | hc | hc := stage_cases s.stage
  · have ht : t = s := exec_stageIdle (by rwa [hc] at he)
    rwa [ht]
  · exact .after_seed (by rwa [hc] at he)
  · exact h.after_init hc (inv.blk_eq_zero (.inr hc)) (by rwa [hc] at he)
  · exact h.after_load hc (by rwa [hc] at he)
  · exact h.after_params hc (by rwa [hc] at he)
  · exact h.after_absorb hc (by rwa [hc] at he)
  · exact h.after_nlmix hc (by rwa [hc] at he)
  · exact h.after_permgen hc (by rwa [hc] at he)
  · exact h.after_permute hc (by rwa [hc] at he)
  · exact h.after_diffuse hc (inv.blk_lt_nb (by simp [hc])) (by rwa [hc] at he)
  · have ht := exec_stageCompress (s := s) (by rwa [hc] at he)
    exact onTrack_of_idle (by rw [ht])
  · omega

/-! ## The host and the reset input leave the run on track -/

/-- What a run has computed is not in the agents' inputs, the flags or `MSG_LEN`. -/
theorem State.OnTrack.frame (h : s.OnTrack) {irqEn done err rst : Bool} {errCode : ErrCode} {msgLen : Word}
    {responses : List Word} {host : List HostOp} {turns : List Turn} : State.OnTrack { s with
      irqEn := irqEn, done := done, err := err, errCode := errCode, msgLen := msgLen, responses := responses
      host := host, turns := turns, rstAsserted := rst } :=
  ⟨h.seedIs, h.atLoad, h.blockIs, h.atParams, h.paramsAre, h.atAbsorb, h.atNlmix, h.mixedIs, h.permIs, h.permutedIs,
    h.atCompress⟩

theorem State.OnTrack.advance (h : s.OnTrack) : s.advance.OnTrack := by
  rw [advance_eq]
  exact h.frame

theorem State.OnTrack.releaseReset (h : s.OnTrack) : s.releaseReset.OnTrack := by
  obtain ⟨-, e⟩ | ⟨-, e⟩ := releaseReset_cases s <;> rw [e]
  · exact onTrack_of_idle rfl
  · exact h

/-- A side effect during a run leaves the buffer, and so the message, as it is (20_memory.md R73). -/
theorem SideEffect.onTrack (e : SideEffect s t) (h : s.OnTrack) : t.OnTrack := by
  cases hb : s.busy with
  | false =>
    have stage : t.stage = s.stage := by rw [e.eq]
    exact onTrack_of_idle (stage.trans ((not_busy_iff s).1 hb))
  | true =>
    rw [e.eq, e.msgBuf hb]
    exact h.frame

theorem State.OnTrack.after_host {P : Params} {w : CodeWord} (h : s.OnTrack) (hw : ∀ c, w ≠ .stage c)
    (he : exec (decode P w) s = .next t) : t.OnTrack := by
  obtain effect | ⟨-, -, rfl⟩ | ⟨-, rfl⟩ | rfl := host_cases hw he
  · exact effect.onTrack h
  · exact onTrack_at_seed rfl
  · exact onTrack_of_idle rfl
  · exact onTrack_of_idle rfl

/-- Settles O57: by the cases of a step; the engine's turn performs the stage that `stage` names. -/
theorem everyStepKeepsTheRunOnTrack : Obligations.EveryStepKeepsTheRunOnTrack := by
  intro s t inv h hstep
  obtain ⟨w, hf, he⟩ | ⟨-, rfl⟩ | ⟨-, rfl⟩ | ⟨-, rfl⟩ := step_cases hstep
  · obtain ⟨-, ⟨-, rfl⟩ | ⟨-, op, ops, -, rfl⟩⟩ := fetch_cases hf
    · rw [← advance_stage s] at he
      exact h.advance.after_stage inv.advance he
    · exact h.advance.after_host (hostCodeWord_ne_stage op) he
  · exact h.advance
  · exact h.frame
  · exact (h.frame (turns := s.turns.tail)).releaseReset

/-! ## A run, in every interleaving -/

/-- The engine is in a run of the message `M`, on the values the algorithm gives it. -/
structure State.InRun (P : Params) (M : List Byte) (s : State) : Prop where
  inv : s.Inv
  onTrack : s.OnTrack
  params : s.params = P
  busy : s.busy = true
  message : s.message = M

/-- What COMPRESS leaves at the end of a run of the message `M`. -/
structure State.Completed (P : Params) (M : List Byte) (t : State) : Prop where
  idle : t.busy = false
  done : t.done = true
  digest : t.digest = cosHashWords P.mixConv M
  seed : t.seed = seedFold M
  blkcnt : t.blkcnt.toNat = M.length / 64 + 1

variable {P : Params} {M : List Byte}

theorem inRun_of_seed (inv : s.Inv) (hs : s.stage = StageCode.seed) : s.InRun s.params s.message :=
  ⟨inv, onTrack_at_seed hs, rfl, by simp [busy_iff, hs], rfl⟩

theorem State.InRun.advance (run : s.InRun P M) : s.advance.InRun P M := by
  obtain ⟨inv, onTrack, params, busy, message⟩ := run
  refine ⟨inv.advance, onTrack.advance, ?_, ?_, ?_⟩ <;> rw [advance_eq]
  · exact params
  · exact busy
  · exact message

/-- COMPRESS hands over the words of all blocks. -/
theorem State.InRun.compress (run : s.InRun P M) (hs : s.stage = StageCode.compress)
    (he : exec .stageCompress s = .next t) : t.Completed P M := by
  obtain ⟨inv, onTrack, rfl, busy, rfl⟩ := run
  obtain ⟨seed, words⟩ := (onTrack_between_blocks (.inr hs)).1 onTrack
  have index : s.blk = s.nb := by simpa [State.blockInRange, hs] using inv.runIndex busy
  have blocks : s.blk.toNat = s.message.length / 64 + 1 := by rw [index, inv.runBlocks busy, message_length]
  have digest : s.S = cosHashWords s.params.mixConv s.message := by
    rw [words, State.wordsAtBlock, blocks, cosHashWords]
  obtain rfl := exec_stageCompress he
  exact ⟨rfl, rfl, digest, seed, (congrArg BitVec.toNat (inv.runCount busy)).trans blocks⟩

/-- A stage of a run other than COMPRESS leaves the engine busy. -/
theorem State.InRun.stage_busy (run : s.InRun P M) (hs : s.stage ≠ StageCode.compress)
    (he : exec (decodeStage s.stage) s = .next t) : t.busy = true := by
  have legal := run.inv.stageLegal
  have running := (busy_iff s).1 run.busy
  rw [busy_iff, stage_successor he, if_neg (not_or.2 ⟨running, hs⟩)]
  split_ifs
  · decide
  · decide
  · bv_omega

/-- The engine's turn of a run performs a stage of it, or completes it. -/
theorem State.InRun.after_stage (run : s.InRun P M) (he : exec (decodeStage s.stage) s = .next t) :
    (t.busy = true ∧ t.message = M) ∨ t.Completed P M := by
  obtain ⟨ht, more⟩ | ⟨last, -⟩ := stage_frame he
  · refine .inl ⟨run.stage_busy more he, ?_⟩
    rw [ht]
    exact run.message
  · exact .inr (run.compress last (by rwa [last] at he))

/-- The host's turn leaves a run in place, its message with it (20_memory.md R73), or stops it with `DONE` clear. -/
theorem State.InRun.after_host (run : s.InRun P M) {w : CodeWord} (hw : ∀ c, w ≠ .stage c)
    (he : exec (decode s.params w) s = .next t) :
    (t.busy = true ∧ t.message = M) ∨ (t.busy = false ∧ t.done = false) := by
  obtain effect | ⟨idle, -⟩ | ⟨-, rfl⟩ | rfl := host_cases hw he
  · refine .inl ?_
    rw [effect.eq, effect.msgBuf run.busy]
    exact ⟨run.busy, run.message⟩
  · simp [run.busy] at idle
  · exact .inr ⟨rfl, run.inv.runNotDone run.busy⟩
  · exact .inr ⟨rfl, rfl⟩

/-- A step of a run, whoever moves, stays in the run, stops it with `DONE` clear, or completes it. -/
theorem State.InRun.after_step (run : s.InRun P M) (h : step s = .next t) :
    t.InRun P M ∨ (t.busy = false ∧ t.done = false) ∨ t.Completed P M := by
  have taken := run.advance
  obtain ⟨params, inv⟩ := everyStepKeepsTheInvariant s t h
  have stays (kept : t.busy = true ∧ t.message = M) : t.InRun P M :=
    ⟨inv run.inv, everyStepKeepsTheRunOnTrack s t run.inv run.onTrack h, params.trans run.params, kept.1, kept.2⟩
  obtain ⟨w, hf, he⟩ | ⟨-, rfl⟩ | ⟨-, rfl⟩ | ⟨-, rfl⟩ := step_cases h
  · obtain ⟨-, ⟨-, rfl⟩ | ⟨-, op, ops, -, rfl⟩⟩ := fetch_cases hf
    · rw [← advance_stage s] at he
      exact (taken.after_stage he).imp stays .inr
    · rw [← advance_params s] at he
      exact (taken.after_host (hostCodeWord_ne_stage op) he).imp stays .inl
  · exact .inl taken
  · exact .inl (stays ⟨run.busy, run.message⟩)
  · obtain ⟨-, released⟩ | ⟨-, released⟩ := releaseReset_cases s.afterTurn
    · exact .inr (.inl (by rw [released]; exact ⟨rfl, rfl⟩))
    · exact .inl (stays (by rw [released]; exact ⟨run.busy, run.message⟩))

/-- As long as the engine stays busy it stays in the run. -/
theorem State.InRun.after_steps (start : s.InRun P M) (k : Nat)
    (busy : ∀ (j : Nat) (u : State), j ≤ k → Host.Core.run Sys2Proof.core j s = .next u → u.busy = true) :
    ∀ t : State, Host.Core.run Sys2Proof.core k s = .next t → t.InRun P M := by
  induction k with
  | zero =>
    intro t h
    obtain rfl : s = t := Host.Outcome.next.inj h
    exact start
  | succ k ih =>
    intro t h
    obtain ⟨u, before, last⟩ := (run_succ k s t).1 h
    have running := ih (fun j u hj => busy j u (by omega)) u before
    have busy_t := busy (k + 1) t le_rfl h
    obtain inRun | ⟨idle, -⟩ | completed := running.after_step last
    · exact inRun
    · simp [busy_t] at idle
    · simp [completed.idle] at busy_t

/-- Settles O58: the run stays on track until the step that leaves the engine idle, which with `DONE` set completes it. -/
theorem everyInterleavingGivesTheDigest : Obligations.EveryInterleavingGivesTheDigest := by
  intro s t k inv hs busy h idle done
  obtain ⟨u, before, last⟩ := (run_succ k s t).1 h
  have running := (inRun_of_seed inv hs).after_steps k busy u before
  obtain inRun | ⟨-, notDone⟩ | completed := running.after_step last
  · simp [inRun.busy] at idle
  · simp [notDone] at done
  · exact ⟨completed.digest, completed.seed, completed.blkcnt⟩

/-! ## A run that is left alone -/

/-- How many engine steps a run has still to perform (40_commands.md R134). -/
def State.stepsLeft (s : State) : Nat :=
  if s.stage = StageCode.idle then 0
  else if s.stage = StageCode.seed then 3 + 7 * s.nb.toNat
  else if s.stage = StageCode.init then 2 + 7 * s.nb.toNat
  else if s.stage = StageCode.compress then 1
  else 4 + 7 * (s.nb.toNat - s.blk.toNat) - s.stage.toNat

theorem stepsLeft_of_idle (idle : s.busy = false) : s.stepsLeft = 0 := if_pos ((not_busy_iff s).1 idle)

/-- From LOAD to DIFFUSE: seven stages a block, and COMPRESS. -/
theorem stepsLeft_in_block (hs : 3 ≤ s.stage.toNat ∧ s.stage.toNat ≤ 9) :
    s.stepsLeft = 4 + 7 * (s.nb.toNat - s.blk.toNat) - s.stage.toNat := by
  unfold State.stepsLeft
  iterate 4 rw [if_neg (by rintro e; simp [e] at hs)]

/-- The stages from LOAD to PERMUTE each perform one step of their block. -/
theorem State.Inv.stepsLeft_within_block (h : s.Inv) {S snap : Words} {blkr : Block} {perm : Perm} {a b c ctr : Word}
    {code : BitVec 4} (before : 3 ≤ s.stage.toNat ∧ s.stage.toNat ≤ 8)
    (ht : t = { s with
      S := S, blkr := blkr, a := a, b := b, c := c, perm := perm, ctr := ctr, snap := snap, stage := code })
    (next : code.toNat = s.stage.toNat + 1) : s.stepsLeft = t.stepsLeft + 1 := by
  have index := h.blk_lt_nb (by omega)
  have after : 3 ≤ code.toNat ∧ code.toNat ≤ 9 := by omega
  subst ht
  rw [stepsLeft_in_block (by omega), stepsLeft_in_block after]
  dsimp only
  omega

/-- DIFFUSE is the last stage of its block: the next LOAD or COMPRESS follows. -/
theorem State.Inv.stepsLeft_diffuse (h : s.Inv) (hs : s.stage = StageCode.diffuse)
    (he : exec .stageDiffuse s = .next t) : s.stepsLeft = t.stepsLeft + 1 := by
  have index := h.blk_lt_nb (by simp [hs])
  have before : s.stepsLeft = 4 + 7 * (s.nb.toNat - s.blk.toNat) - 9 := by
    rw [stepsLeft_in_block (by simp [hs]), hs]
    rfl
  have ht := exec_stageDiffuse he
  by_cases more : s.blk + 1 < s.nb
  · have after : t.stepsLeft = 4 + 7 * (s.nb.toNat - (s.blk + 1).toNat) - 3 := by
      rw [if_pos more] at ht
      rw [ht]
      rfl
    bv_omega
  · have after : t.stepsLeft = 1 := by
      rw [if_neg more] at ht
      rw [ht]
      rfl
    bv_omega

/-- A stage of a run performs one of its steps. -/
theorem State.Inv.stepsLeft_stage (h : s.Inv) (busy : s.busy = true) (he : exec (decodeStage s.stage) s = .next t) :
    s.stepsLeft = t.stepsLeft + 1 := by
  have legal := h.stageLegal
  obtain hc | hc | hc | hc | hc | hc | hc | hc | hc | hc | hc | hc := stage_cases s.stage
  · simp [busy_iff, hc] at busy
  · have ht := (exec_stageSeed (s := s) (t := t) (by rwa [hc] at he)).2
    simp [State.stepsLeft, hc, ht]
    omega
  · have ht := exec_stageInit (s := s) (t := t) (by rwa [hc] at he)
    simp [State.stepsLeft, hc, ht, h.blk_eq_zero (.inr hc)]
    omega
  · exact h.stepsLeft_within_block (by simp [hc]) (exec_stageLoad (by rwa [hc] at he)).2 (by simp [hc])
  · exact h.stepsLeft_within_block (by simp [hc]) (exec_stageParams (by rwa [hc] at he)) (by simp [hc])
  · exact h.stepsLeft_within_block (by simp [hc]) (exec_stageAbsorb (by rwa [hc] at he)) (by simp [hc])
  · exact h.stepsLeft_within_block (by simp [hc]) (exec_stageNlmix (by rwa [hc] at he)) (by simp [hc])
  · exact h.stepsLeft_within_block (by simp [hc]) (exec_stagePermgen (by rwa [hc] at he)) (by simp [hc])
  · exact h.stepsLeft_within_block (by simp [hc]) (exec_stagePermute (by rwa [hc] at he)) (by simp [hc])
  · exact h.stepsLeft_diffuse hc (by rwa [hc] at he)
  · have ht := exec_stageCompress (s := s) (t := t) (by rwa [hc] at he)
    simp [State.stepsLeft, hc, ht]
  · omega

/-- Under the invariant every stage goes on: SEED and LOAD read inside the buffer (20_memory.md R64). -/
theorem State.Inv.stage_next (h : s.Inv) : ∃ t, exec (decodeStage s.stage) s = .next t := by
  have legal := h.stageLegal
  have inBuffer (hs : s.stage ≠ StageCode.idle) := readable (h.runLength ((busy_iff s).2 hs)).2
  generalize s.stage = code at legal inBuffer ⊢
  obtain rfl | rfl | rfl | rfl | rfl | rfl | rfl | rfl | rfl | rfl | rfl | reserved := stage_cases code
  · exact ⟨_, rfl⟩
  · exact ⟨_, if_pos (inBuffer (by decide)).1⟩
  · exact ⟨_, rfl⟩
  · exact ⟨_, if_pos (inBuffer (by decide)).2⟩
  iterate 7 exact ⟨_, rfl⟩
  · omega

/-- What the engine's own steps do not write, of what the host can see or issue. -/
def State.hostSide (s : State) : Memory × Word × Bool × ErrCode × Bool × List HostOp × List Word :=
  (s.msgBuf, s.msgLen, s.err, s.errCode, s.irqEn, s.host, s.responses)

/-- The engine's own steps leave the host's side and the scheduling as they are. -/
theorem stage_hostSide (he : exec (decodeStage s.stage) s = .next t) :
    t.hostSide = s.hostSide ∧ t.rstAsserted = s.rstAsserted ∧ t.turns = s.turns := by
  obtain ⟨ht, -⟩ | ⟨-, ht⟩ := stage_frame he <;> rw [ht] <;> exact ⟨rfl, rfl, rfl⟩

theorem State.EngineOnly.nextTurn (alone : s.EngineOnly) (busy : s.busy = true) : s.nextTurn = .engine := by
  cases turns : s.turns with
  | nil => exact nextTurn_of_busy turns busy
  | cons u us => rw [nextTurn_of_turns turns, alone.2 u (by simp [turns])]

/-- A step of a run that is left alone: the stage is performed, and the run goes on or is completed. -/
theorem State.InRun.step_alone (run : s.InRun P M) (alone : s.EngineOnly) : ∃ t, step s = .next t ∧
    t.EngineOnly ∧ t.hostSide = s.hostSide ∧ s.stepsLeft = t.stepsLeft + 1 ∧ (t.InRun P M ∨ t.Completed P M) := by
  have turn := alone.nextTurn run.busy
  have advanced : s.advance = s.afterTurn := by rw [State.advance, turn]
  have taken := run.advance
  rw [advanced] at taken
  obtain ⟨t, he⟩ := taken.inv.stage_next
  have h : step s = .next t := (step_engine alone.1 turn).trans he
  obtain ⟨hostSide, released, turns⟩ := stage_hostSide he
  have engineOnly : t.EngineOnly := by
    refine ⟨released.trans alone.1, fun u hu => alone.2 u (List.mem_of_mem_tail ?_)⟩
    rwa [turns] at hu
  refine ⟨t, h, engineOnly, hostSide, taken.inv.stepsLeft_stage taken.busy he, ?_⟩
  obtain ⟨busy, -⟩ | completed := taken.after_stage he
  · obtain inRun | ⟨idle, -⟩ | completed := run.after_step h
    · exact .inl inRun
    · simp [busy] at idle
    · exact .inr completed
  · exact .inr completed

/-- A run that is left alone is completed by its last step and by none before it. -/
theorem State.InRun.run_alone (run : s.InRun P M) (alone : s.EngineOnly) : ∃ t : State,
    Host.Core.run Sys2Proof.core s.stepsLeft s = .next t ∧ t.Completed P M ∧ t.hostSide = s.hostSide ∧
    ∀ j : Nat, j < s.stepsLeft → ∃ u : State, Host.Core.run Sys2Proof.core j s = .next u ∧ u.busy = true := by
  generalize left : s.stepsLeft = n
  induction n generalizing s with
  | zero =>
    obtain ⟨t, -, -, -, performed, -⟩ := run.step_alone alone
    omega
  | succ n ih =>
    obtain ⟨v, first, vAlone, vHostSide, performed, inRun | completed⟩ := run.step_alone alone
    · obtain ⟨t, rest, completed, hostSide, busy⟩ := ih inRun vAlone (by omega)
      refine ⟨t, (run_of_step n first).trans rest, completed, hostSide.trans vHostSide, fun j hj => ?_⟩
      cases j with
      | zero => exact ⟨s, rfl, run.busy⟩
      | succ j =>
        rw [run_of_step j first]
        exact busy j (by omega)
    · have last := stepsLeft_of_idle completed.idle
      obtain rfl : n = 0 := by omega
      refine ⟨v, run_of_step 0 first, completed, vHostSide, fun j hj => ?_⟩
      obtain rfl : j = 0 := by omega
      exact ⟨s, rfl, run.busy⟩

/-- Settles O59: a run at SEED has `3 + 7 * NB` steps left. -/
theorem runTakesThreePlusSevenPerBlock : Obligations.RunTakesThreePlusSevenPerBlock := by
  intro s inv hs alone
  have run := inRun_of_seed inv hs
  have left : s.stepsLeft = 3 + 7 * s.nb.toNat := by simp [State.stepsLeft, hs]
  obtain ⟨t, h, completed, hostSide, busy⟩ := run.run_alone alone
  have blkcnt : t.blkcnt = s.nb := BitVec.eq_of_toNat_eq <| by
    rw [completed.blkcnt, inv.runBlocks run.busy, message_length]
  simp only [State.hostSide, Prod.mk.injEq] at hostSide
  obtain ⟨msgBuf, msgLen, err, errCode, irqEn, host, responses⟩ := hostSide
  rw [left] at h busy
  exact ⟨t, h, completed.idle, completed.done, completed.digest, completed.seed, blkcnt, msgBuf, msgLen, err, errCode,
    irqEn, host, responses, busy⟩

end Sys2Proof.Machine
end

section
/-! PROOFS. The statements of 41_padder.md: the padded length of R160 and the block LOAD copies. -/

namespace Sys2Proof.Machine

/-! ## The padded length -/

/-- A multiple of 64 above the length counts more than the `L / 64` whole blocks of the message. -/
theorem paddedLength_le_of_dvd {L m : Nat} (multiple : 64 ∣ m) (above : L < m) : paddedLength L ≤ m := by
  obtain ⟨k, rfl⟩ := multiple
  have blocks : L / 64 < k := Nat.div_lt_of_lt_mul above
  exact Nat.mul_le_mul_left 64 blocks

/-- The last block holds the sentinel, and between 0 and 63 message bytes before it. -/
theorem paddedLength_bounds (L : Nat) : L + 1 ≤ paddedLength L ∧ paddedLength L ≤ L + 64 := by
  unfold paddedLength
  omega

/-- Settles O34: by the bounds of the last block, and the least multiple above the length. -/
theorem paddedLengthIsTheLeast : Obligations.PaddedLengthIsTheLeast := by
  intro L
  obtain ⟨lower, upper⟩ := paddedLength_bounds L
  exact ⟨Nat.mul_mod_right 64 _, lower, upper,
    fun m multiple above => paddedLength_le_of_dvd (Nat.dvd_of_mod_eq_zero multiple) above, rfl⟩

/-! ## LOAD -/

/-- LOAD goes on where the buffer holds the message. -/
theorem exec_stageLoad_next {s : State} (h : s.lenL.toNat ≤ s.params.bufBytes) : exec .stageLoad s = .next { s with
    blkr := padBlock s.bufByte s.lenL.toNat (64 * s.blk.toNat), stage := StageCode.params } :=
  if_pos (readable h).2

/-- Settles O33: the block copied is `padBlock`, whose bytes below the padded length are `padByte_of_lt`. -/
theorem loadCopiesAPaddedBlock : Obligations.LoadCopiesAPaddedBlock := by
  intro s inBuffer
  refine ⟨_, exec_stageLoad_next inBuffer, ?bytes, rfl, rfl⟩
  case bytes =>
    intro m n below
    exact (padBlock_get _ _ _ m).trans (padByte_of_lt s.bufByte below)

end Sys2Proof.Machine
end

section
/-! PROOFS. The statement of 42_seed.md: the seed that SEED folds from the message. -/

namespace Sys2Proof.Machine

/-- SEED goes on where the buffer holds the message. -/
theorem exec_stageSeed_next {s : State} (h : s.lenL.toNat ≤ s.params.bufBytes) :
    exec .stageSeed s = .next { s with seed := seedFold s.message, stage := StageCode.init } :=
  if_pos (readable h).1

/-- The fold over the message is one over the buffer's first `LEN_L` byte numbers, and starts from `LEN_L` itself. -/
theorem seedFold_message (s : State) :
    seedFold s.message = (List.range s.lenL.toNat).foldl (fun seed n => seedStep seed (s.bufByte n)) s.lenL := by
  have start : BitVec.ofNat 32 s.message.length = s.lenL := by
    rw [message_length, BitVec.ofNat_toNat, BitVec.setWidth_eq]
  rw [seedFold, start, State.message, List.foldl_map]

/-- Settles O30: SEED stores `seedFold s.message`, which `seedFold_message` writes as the fold of R181's step. -/
theorem seedFoldsTheMessage : Obligations.SeedFoldsTheMessage := by
  intro s inBuffer
  exact ⟨_, exec_stageSeed_next inBuffer, seedFold_message s, rfl, rfl⟩

end Sys2Proof.Machine
end

section
/-! PROOFS. The statements of 43_state_init.md: the words INIT expands the seed into, and that each determines the
seed. -/

namespace Sys2Proof.Machine

/-- Settles O31: word `i` is `initialMix s.seed i`, whose three rounds are the statement's. -/
theorem initExpandsTheSeed : Obligations.InitExpandsTheSeed := by
  intro s
  refine ⟨{ s with S := initialState s.seed, stage := StageCode.load }, rfl, ?words, rfl, rfl⟩
  case words => exact fun i => get_ofFn (initialMix s.seed) i

/-! ## The rounds of the finalizer, each a bijection -/

theorem xor_bijective (k : Word) : Function.Bijective fun x : Word => x ^^^ k :=
  Function.Involutive.bijective fun x => by rw [BitVec.xor_assoc, BitVec.xor_self, BitVec.xor_zero]

theorem xorShift_16_bijective : Function.Bijective (xorShift 16) :=
  Function.Involutive.bijective xorShift_16_inv

/-- `xorShift_13_inv` undoes the shift on one side; the words are finitely many. -/
theorem xorShift_13_bijective : Function.Bijective (xorShift 13) :=
  Finite.injective_iff_bijective.1 <|
    Function.LeftInverse.injective (g := fun y => xorShift 26 (xorShift 13 y)) xorShift_13_inv

/-- Multiplication by a factor that has an inverse modulo 2^32. -/
theorem mul_bijective {c d : Word} (inverse : c * d = 1) : Function.Bijective fun x : Word => x * c :=
  IsUnit.isUnit_iff_mulRight_bijective.1 (IsUnit.of_mul_eq_one d inverse)

/-- Settles O32: `initialMix` is a composition of bijections; the numerals are the inverses of its two factors. -/
theorem initialMixIsABijection : Obligations.InitialMixIsABijection := fun i =>
  have seed := xor_bijective (BitVec.ofNat 32 i.val * 0x85ebca6b#32)
  have first := mul_bijective (c := 0x85ebca6b#32) (d := 0xa5cb9243#32) (by decide)
  have second := mul_bijective (c := 0xc2b2ae35#32) (d := 0x7ed1b41d#32) (by decide)
  xorShift_16_bijective.comp <| second.comp <| xorShift_13_bijective.comp <| first.comp <|
    xorShift_16_bijective.comp seed

end Sys2Proof.Machine
end

section
/-! PROOFS. The statements of 44_block_mixer.md about the stages of a block: what PARAMS, ABSORB, NLMIX, PERMGEN,
PERMUTE and DIFFUSE store. -/

namespace Sys2Proof.Machine

/-! ## PARAMS and ABSORB -/

/-- A block word is the big-endian word of four consecutive bytes. -/
theorem blockWord_eq_be32 (blk : Block) {i : Nat} {b0 b1 b2 b3 : Fin 64} (h0 : b0.val = 4 * i)
    (h1 : b1.val = b0.val + 1) (h2 : b2.val = b0.val + 2) (h3 : b3.val = b0.val + 3) :
    blockWord blk i = be32 (blk.get b0) (blk.get b1) (blk.get b2) (blk.get b3) := by
  have byte (b : Fin 64) : blockByte blk b.val = blk.get b := blockByte_of_lt blk b.isLt
  rw [blockWord, ← h0, ← h1, ← h2, ← h3, byte, byte, byte, byte]

/-- Settles O35: the three parameters are the block words 0, 1 and 2. -/
theorem paramsAreTheFirstThreeWords : Obligations.ParamsAreTheFirstThreeWords := fun s =>
  ⟨_, rfl, blockWord_eq_be32 s.blkr rfl rfl rfl rfl, blockWord_eq_be32 s.blkr rfl rfl rfl rfl,
    blockWord_eq_be32 s.blkr rfl rfl rfl rfl, rfl, rfl⟩

@[simp] theorem absorb_get (S : Words) (blk : Block) (i : Fin 16) :
    (absorb S blk).get i = S.get i + blockWord blk i.val := get_ofFn _ i

/-- Settles O36: ABSORB adds block word `i` to word `i`, and `be32_toNat` is the number of its bytes. -/
theorem absorbAddsTheBlockWords : Obligations.AbsorbAddsTheBlockWords := by
  intro s
  refine ⟨{ s with S := absorb s.S s.blkr, stage := StageCode.nlmix }, rfl, ?words, rfl, rfl⟩
  case words =>
    intro i b0 b1 b2 b3 h0 h1 h2 h3
    rw [absorb_get, blockWord_eq_be32 s.blkr h0 h1 h2 h3, BitVec.toNat_add, be32_toNat]

/-! ## NLMIX -/

@[simp] theorem nlMix_get (conv : MixConv) (S : Words) (a b c : Word) (i : Fin 16) :
    (nlMix conv S a b c).get i = nlLane sin64 conv (S.get i) a b c := get_ofFn _ i

/-- Settles O37: word `i` is `nlLane` of word `i`, which is the lane of R231 by definition. -/
theorem nlmixAddsTheSineMix : Obligations.NlmixAddsTheSineMix := fun s =>
  ⟨_, rfl, nlMix_get s.params.mixConv s.S s.a s.b s.c, rfl, rfl⟩

/-! ## PERMGEN -/

/-- The counter is seeded with the block's first four bytes. -/
theorem ctrSeed_eq_be32 (blk : Block) : ctrSeed blk = be32 (blk.get 0) (blk.get 1) (blk.get 2) (blk.get 3) :=
  blockWord_eq_be32 blk rfl rfl rfl rfl

/-- PERMGEN as one fold over the indices 15 down to 1, the counter for each given by iteration. -/
theorem permGen_eq_fold (seed : Word) : permGen seed =
    ([15, 14, 13, 12, 11, 10, 9, 8, 7, 6, 5, 4, 3, 2, 1].foldl (fun P i =>
        permSwap P (Fin.ofNat 16 i) (Fin.ofNat 16 ((lcg^[16 - i] seed).toNat % (i + 1)))) identityPerm,
      lcg^[15] seed) :=
  permSteps_fold seed 15 0 identityPerm rfl

/-- Settles O38: by `permGen_eq_fold`, whose `permSwap` and `lcg` are the swap and the counter step of the statement. -/
theorem permgenShuffles : Obligations.PermgenShuffles := by
  intro s
  rw [← ctrSeed_eq_be32]
  obtain ⟨perm, ctr⟩ := Prod.mk.inj (permGen_eq_fold (ctrSeed s.blkr))
  exact ⟨_, rfl, perm.trans (by congr 1), ctr, rfl, rfl⟩

/-- Settles O39: swaps keep the identity injective, and an injection of a finite set into itself is a bijection. -/
theorem permgenLeavesABijection : Obligations.PermgenLeavesABijection := by
  intro s t goesOn
  obtain rfl := exec_stagePermgen goesOn
  exact Finite.injective_iff_bijective.1 (permGen_inj (ctrSeed s.blkr))

/-! ## PERMUTE and DIFFUSE -/

@[simp] theorem permute_get (S : Words) (P : Perm) (i : Fin 16) : (permute S P).get i = S.get (P.get i) := get_ofFn _ i

/-- Settles O40: `SNAP` and every moved word are of the state before the stage. -/
theorem permuteMovesTheWords : Obligations.PermuteMovesTheWords := fun s =>
  ⟨_, rfl, rfl, permute_get s.S s.perm, rfl, rfl⟩

/-- A diffused word, with the rotation of bit vectors and the amount as a remainder. -/
theorem diffuse_get (S : Words) (i : Fin 16) :
    (diffuse S).get i = S.get i ^^^ (S.get (i + 1)).rotateLeft ((S.get i).toNat % 32) := by
  rw [diffuse, get_ofFn, rotAmount_eq, rotl32_eq _ _ (Nat.mod_lt _ (by decide))]

/-- Settles O41: the words by `diffuse_get`; the successor compares the two counts as numbers. -/
theorem diffuseRotatesAndCounts : Obligations.DiffuseRotatesAndCounts := fun s =>
  ⟨_, rfl, rfl, diffuse_get s.S, rfl, rfl, if_congr BitVec.lt_def rfl rfl, rfl⟩

end Sys2Proof.Machine
end

section
/-! PROOFS. The statements of 44_block_mixer.md about the numbers of an NLMIX lane: the ranges of R231, the agreement of
the settings in R233 and the unchanged lanes of R234. -/

namespace Sys2Proof.Machine

/-! ## The ranges of R231 -/

@[simp] theorem zero_value : F64.zero.value = 0 := by simp [F64.value, F64.mag, F64.zero]

/-- Rounding keeps a number of magnitude at most `n < 2^53` there: `-n` and `n` are binary64 values. -/
theorem isNearest_abs_le {y : F64} {v : ℚ} {n : Nat} (h : y.IsNearest (v : ℝ)) (hn : n < 2 ^ 53) (hv : |v| ≤ n) :
    |y.value| ≤ n := by
  obtain ⟨lo, hi⟩ := abs_le.1 hv
  obtain ⟨low, hlow, elow⟩ := exists_wf_int (-n) (by omega)
  obtain ⟨high, hhigh, ehigh⟩ := exists_wf_int n (by omega)
  have below : low.value ≤ y.value := isNearest_ge h hlow (by rw [elow]; exact_mod_cast lo)
  have above : y.value ≤ high.value := isNearest_le h hhigh (by rw [ehigh]; exact_mod_cast hi)
  rw [elow, Int.cast_neg, Int.cast_natCast] at below
  rw [ehigh, Int.cast_natCast] at above
  exact abs_le.2 ⟨below, above⟩

/-- The largest binary64 value below `2^64`. -/
theorem exists_wf_below_two_pow_64 : ∃ z : F64, z.wf = true ∧ z.value = 2 ^ 64 - 2 ^ 11 := by
  obtain ⟨z, hz, hu⟩ := exists_wf_units (2 ^ 53 - 1) (11 + 1074) (by decide) (by decide)
  refine ⟨z, hz, ?_⟩
  rw [value_units, hu, pow_add, ← mul_assoc, Int.cast_mul, Int.cast_pow _ 1074, Int.cast_ofNat,
    mul_div_cancel_right₀ _ (pow_ne_zero _ two_ne_zero)]
  norm_num

/-- The product of two words lies below `2^64` by more than one spacing of the binary64 values there. -/
theorem word_mul_word_le (a t : Word) : (a.toNat : ℚ) * (t.toNat : ℚ) ≤ 2 ^ 64 - 2 ^ 11 := by
  have bound : a.toNat * t.toNat ≤ (2 ^ 32 - 1) * (2 ^ 32 - 1) :=
    Nat.mul_le_mul (Nat.le_pred_of_lt a.isLt) (Nat.le_pred_of_lt t.isLt)
  calc (a.toNat : ℚ) * (t.toNat : ℚ) ≤ ((2 ^ 32 - 1) * (2 ^ 32 - 1) : Nat) := by exact_mod_cast bound
    _ ≤ 2 ^ 64 - 2 ^ 11 := by norm_num

/-- A lane's argument is the product of the two words, rounded. -/
theorem laneArg_isNearest (a t : Word) :
    (F64.mul (F64.ofWord a) (F64.ofWord t)).IsNearest ((a.toNat * t.toNat : ℚ) : ℝ) := by
  have le := word_mul_word_le a t
  have inRange : |(a.toNat * t.toNat : ℚ)| ≤ 2 ^ 1023 := by
    rw [abs_of_nonneg (by positivity)]
    exact (le.trans (sub_le_self _ (by positivity))).trans (pow_le_pow_right₀ one_le_two (by decide))
  rw [← (ofWord_spec a).2, ← (ofWord_spec t).2] at inRange ⊢
  exact mul_isNearest _ _ inRange

/-- A lane's argument lies in `[0, 2^64)`. -/
theorem laneArg_range (a t : Word) : 0 ≤ (F64.mul (F64.ofWord a) (F64.ofWord t)).value ∧
    (F64.mul (F64.ofWord a) (F64.ofWord t)).value < 2 ^ 64 := by
  have near := laneArg_isNearest a t
  obtain ⟨top, htop, etop⟩ := exists_wf_below_two_pow_64
  constructor
  · have above : F64.zero.value ≤ (F64.mul (F64.ofWord a) (F64.ofWord t)).value :=
      isNearest_ge near rfl (by rw [zero_value]; exact_mod_cast Nat.zero_le (a.toNat * t.toNat))
    exact zero_value.symm.trans_le above
  · have below : (F64.mul (F64.ofWord a) (F64.ofWord t)).value ≤ top.value :=
      isNearest_le near htop (by rw [etop]; exact_mod_cast word_mul_word_le a t)
    exact below.trans_lt (by rw [etop]; exact sub_lt_self _ (by positivity))

/-- A lane's product is a binary64 value of magnitude at most `c`, where the sine is at most 1. -/
theorem laneProduct_range {s : F64} (c : Word) (hs : |s.value| ≤ 1) :
    (F64.mul s (F64.ofWord c)).wf = true ∧ |(F64.mul s (F64.ofWord c)).value| ≤ c.toNat := by
  have le : |s.value * (F64.ofWord c).value| ≤ c.toNat := by
    rw [(ofWord_spec c).2, abs_mul, Nat.abs_cast]
    exact mul_le_of_le_one_left (Nat.cast_nonneg _) hs
  have small : (c.toNat : ℚ) ≤ 2 ^ 1023 :=
    (show (c.toNat : ℚ) ≤ 2 ^ 32 by exact_mod_cast c.isLt.le).trans (pow_le_pow_right₀ one_le_two (by decide))
  have near := mul_isNearest s (F64.ofWord c) (le.trans small)
  exact ⟨near.1, isNearest_abs_le near (c.isLt.trans (by decide)) le⟩

/-- Settles O50: rounding does not cross the largest binary64 value below `2^64`, nor `c` and `-c`. -/
theorem laneValuesStayInRange : Obligations.LaneValuesStayInRange :=
  ⟨fun a t => ⟨(laneArg_isNearest a t).1, laneArg_range a t⟩, fun _ c _ hs => laneProduct_range c hs⟩

/-! ## The conversion of the floor -/

/-- Where the product's floor fits the signed 32-bit range, every setting of `MIX_CONV` gives its two's complement. -/
theorem conv32_floor {p : F64} (h : p.wf = true) (lo : -2 ^ 31 ≤ p.value) (hi : p.value < 2 ^ 31) (conv : MixConv) :
    conv32 conv p.floor = BitVec.ofInt 32 ⌊p.value⌋ := by
  have value : p.floor.value = ((⌊p.value⌋ : Int) : ℚ) := by rw [(floor_spec h).2.1, floorInt_eq]
  have above : (-2 ^ 31 : Int) ≤ ⌊p.value⌋ := Int.le_floor.2 (by exact_mod_cast lo)
  have below : ⌊p.value⌋ < (2 ^ 31 : Int) := Int.floor_lt.2 (by exact_mod_cast hi)
  exact conv32_of_inRange value above (Int.le_sub_one_of_lt below) conv

/-- Settles O52: the product is at most `C < 2^31` in magnitude, so its floor is in the signed 32-bit range. -/
theorem mixConvSettingsAgreeForSmallC : Obligations.MixConvSettingsAgreeForSmallC := by
  intro sine conv x a b c bounded hc
  have sineBound := (bounded _ (laneArg_isNearest a (x ^^^ b)).1).2
  obtain ⟨hwf, hle⟩ := laneProduct_range c sineBound
  have small : (c.toNat : ℚ) < 2 ^ 31 := by exact_mod_cast hc
  obtain ⟨lo, hi⟩ := abs_lt.1 (hle.trans_lt small)
  simp only [nlLane, conv32_floor hwf lo.le hi]

/-! ## The unchanged lanes of R234 -/

/-- A product with a zero factor is a zero. -/
theorem mul_of_value_zero {p q : F64} (h : p.value * q.value = 0) :
    (F64.mul p q).wf = true ∧ (F64.mul p q).value = 0 := by
  have near := mul_isNearest p q (by rw [h, abs_zero]; positivity)
  have zero : |(F64.mul p q).value| ≤ (0 : Nat) :=
    isNearest_abs_le near (by decide) (by rw [h, abs_zero, Nat.cast_zero])
  exact ⟨near.1, abs_nonpos_iff.1 (by exact_mod_cast zero)⟩

/-- A lane adds nothing where the exact product of the sine and `c` is zero. -/
theorem nlLane_of_product_zero {sine : F64 → F64} {x a b c : Word} (conv : MixConv)
    (h : (sine (F64.mul (F64.ofWord a) (F64.ofWord (x ^^^ b)))).value * (F64.ofWord c).value = 0) :
    nlLane sine conv x a b c = x := by
  obtain ⟨hwf, hvalue⟩ := mul_of_value_zero h
  have converted := conv32_floor hwf (by rw [hvalue]; norm_num) (by rw [hvalue]; norm_num) conv
  rw [hvalue, Int.floor_zero] at converted
  exact (congrArg (x + ·) converted).trans (BitVec.add_zero x)

/-- The product of two words is positive zero where one of them is zero. -/
theorem laneArg_eq_zero {a t : Word} (h : a = 0 ∨ t = 0) : F64.mul (F64.ofWord a) (F64.ofWord t) = F64.zero := by
  have product : (F64.ofWord a).value * (F64.ofWord t).value = 0 := by
    rw [(ofWord_spec a).2, (ofWord_spec t).2]
    obtain rfl | rfl := h <;> simp
  obtain ⟨hwf, hvalue⟩ := mul_of_value_zero product
  have sign : (F64.mul (F64.ofWord a) (F64.ofWord t)).neg = false := by
    simp only [F64.mul, F64.ofWord, round_neg]; rfl
  exact eq_of_value_eq hwf rfl sign (hvalue.trans zero_value.symm)

/-- Settles O51: with `C = 0` the product has a zero factor; with `A = 0` or a masked word of zero the argument is
positive zero, and by P1 so is its sine. -/
theorem laneUnchangedWhenAFactorIsZero : Obligations.LaneUnchangedWhenAFactorIsZero := by
  intro sine conv x a b c _ sineZero zeroFactor
  have unchanged_of_arg (h : a = 0 ∨ x ^^^ b = 0) : nlLane sine conv x a b c = x :=
    nlLane_of_product_zero conv (by rw [laneArg_eq_zero h, sineZero, zero_value, zero_mul])
  obtain rfl | ha | rfl := zeroFactor
  · exact nlLane_of_product_zero conv (by rw [(ofWord_spec 0).2]; simp)
  · exact unchanged_of_arg (.inl ha)
  · exact unchanged_of_arg (.inr BitVec.xor_self)

end Sys2Proof.Machine
end

section
/-! PROOFS. The statements of 45_compressor.md: COMPRESS and the digest as bytes. -/

namespace Sys2Proof.Machine

/-! ## COMPRESS -/

/-- Settles O42: the registers written are as stated, the stage left is IDLE, and with `DONE` set the interrupt output
is the enable. -/
theorem compressEndsTheRun : Obligations.CompressEndsTheRun := fun s =>
  ⟨{ s.forgetDatapath with digest := s.S, done := true, stage := StageCode.idle }, rfl, fun _ => rfl, rfl, rfl,
    (not_busy_iff _).2 rfl, Bool.and_true s.irqEn, rfl⟩

/-! ## The digest as bytes -/

/-- Where every piece has length `n`, place `n * k + m` of the joined pieces is place `m` of piece `k`. -/
theorem getElem?_flatMap_of_length {α β : Type} {f : α → List β} {n : Nat} (hf : ∀ a, (f a).length = n) {m : Nat}
    (hm : m < n) (l : List α) (k : Nat) : (l.flatMap f)[n * k + m]? = l[k]?.bind fun a => (f a)[m]? := by
  induction l generalizing k with
  | nil => rfl
  | cons a l ih =>
    rw [List.flatMap_cons]
    cases k with
    | zero =>
      rw [Nat.mul_zero, Nat.zero_add, List.getElem?_append_left (by rwa [hf])]
      rfl
    | succ k =>
      have place : n * (k + 1) + m = (f a).length + (n * k + m) := by rw [hf]; ring
      rw [place, List.getElem?_append_right (Nat.le_add_right _ _), Nat.add_sub_cancel_left, ih]
      rfl

/-- Byte `4k + m` of the digest is lane `m` of word `k`. -/
theorem serialize_getElem? (D : Words) (k : Fin 16) (m : Fin 4) :
    (serialize D)[4 * k.val + m.val]? = some (laneByte (D.get k) m) := by
  have word : D.toList[k.val]? = some (D.get k) := by simp [Vector.get_eq_getElem]
  rw [serialize, getElem?_flatMap_of_length (n := 4) (fun _ => rfl) m.isLt, word]
  fin_cases m <;> rfl

theorem serialize_length (D : Words) : (serialize D).length = 64 := by
  simp [serialize, List.length_flatMap]

/-- Settles O45: four bytes a word, and lane `m` of a word is its bits `[31-8m : 24-8m]`. -/
theorem digestIsSixtyFourBytes : Obligations.DigestIsSixtyFourBytes := fun D =>
  ⟨serialize_length D, serialize_getElem? D⟩

end Sys2Proof.Machine
end

section
/-! PROOFS. The statements of 60_exceptions.md: what raises an error and in which order, what an error leaves unchanged,
what clears it, and that no step stops the machine. -/

namespace Sys2Proof.Machine

variable {s t : State} {i : Instr}

/-! ## The recorded error -/

/-- With no error standing, the error is recorded with its code (60_exceptions.md R305). -/
theorem raiseError_of_noErr (noErr : s.err = false) (e : ErrCode) :
    s.raiseError e = { s with err := true, errCode := e } := by
  simp [State.raiseError, noErr]

/-- A standing error is kept, and with it the whole state (60_exceptions.md R305). -/
theorem raiseError_of_standing (standing : s.err = true) (e : ErrCode) : s.raiseError e = s := if_pos standing

/-- Settles O22: `State.raiseError` is the whole effect. -/
theorem illegalCommandRecordsTheFirstError : Obligations.IllegalCommandRecordsTheFirstError := fun _ _ =>
  ⟨fun noErr => congrArg Host.Outcome.next (raiseError_of_noErr noErr .cmd),
    fun standing => congrArg Host.Outcome.next (raiseError_of_standing standing .cmd)⟩

/-! ## A refused START -/

theorem exec_cmdStart_of_busy (busy : s.busy = true) : exec .cmdStart s = .next (s.raiseError .busy) := if_pos busy

theorem exec_cmdStart_of_long (idle : s.busy = false) (long : s.params.bufBytes < s.msgLen.toNat) :
    exec .cmdStart s = .next (s.raiseError .len) := by
  simp [exec, execCmdStart, idle, long]

/-- Settles O26: BUSY during a run, LEN while idle. -/
theorem startIsRefused : Obligations.StartIsRefused := fun _ => ⟨exec_cmdStart_of_busy, exec_cmdStart_of_long⟩

/-! ## The order of the checks (60_exceptions.md R304) -/

/-- A host's instruction keeps a recorded error and its code together. -/
theorem host_errCoded {P : Params} {w : CodeWord} (hw : ∀ c, w ≠ .stage c) (h : exec (decode P w) s = .next t)
    (coded : s.err = true ↔ s.errCode ≠ .none) : t.err = true ↔ t.errCode ≠ .none := by
  obtain effect | ⟨-, -, rfl⟩ | ⟨-, rfl⟩ | rfl := host_cases hw h
  · exact effect.coded coded
  · exact coded
  · exact coded
  · simp

/-- The code START leaves where none stood: BUSY is checked before the length. -/
theorem cmdStart_errCode (noErr : s.err = false) (noCode : s.errCode = .none) (h : exec .cmdStart s = .next t) :
    t.errCode = if s.busy = true then .busy else if s.params.bufBytes < s.msgLen.toNat then .len else .none := by
  obtain ⟨busy, rfl⟩ | ⟨idle, long, rfl⟩ | ⟨idle, fits, rfl⟩ := exec_cmdStart h
  · simp [noErr, busy]
  · simp [noErr, idle, long]
  · simp [noCode, idle, fits]

/-- The code a write to `CMD` leaves where none stood, by the command. -/
theorem wrCmd_errCode {w : Word} (noErr : s.err = false) (noCode : s.errCode = .none)
    (h : exec (.wrCmd w) s = .next t) :
    t.errCode = if 4 ≤ w.toNat then .cmd
      else if w = 1 ∧ s.busy = true then .busy
      else if w = 1 ∧ s.params.bufBytes < s.msgLen.toNat then .len
      else .none := by
  obtain ⟨rfl, h⟩ | ⟨rfl, h⟩ | ⟨rfl, h⟩ | ⟨rfl, h⟩ | ⟨illegal, h⟩ := exec_wrCmd h
  · simp [exec_cmdNop h, noCode]
  · simp [cmdStart_errCode noErr noCode h]
  · obtain ⟨-, rfl⟩ | ⟨-, rfl⟩ := exec_cmdAbort h <;> simp [noCode]
  · simp [exec_cmdSoftReset h]
  · simp [exec_cmdIllegal h, noErr, illegal]

/-- Settles O23: command by command, then the two writes that a run refuses. -/
theorem errorPriorityOfOneTransaction : Obligations.ErrorPriorityOfOneTransaction := by
  intro w s noErr noCode
  refine ⟨?command, fun t h => ?msgLen, fun b t h => ?buf⟩
  case command =>
    obtain ⟨t, h⟩ := exec_wrCmd_next w s
    have decoded : exec (decode s.params (.cmd w)) s = .next t := (exec_wrCmd_eq w s).symm.trans h
    exact ⟨t, h, wrCmd_errCode noErr noCode h, host_errCoded (by simp) decoded (by simp [noErr, noCode])⟩
  case msgLen =>
    obtain ⟨busy, rfl⟩ | ⟨idle, rfl⟩ := exec_wrMsgLen h
    · simp [noErr, busy]
    · simp [noCode, idle]
  case buf =>
    simp only [← bufWordBacked_iff]
    obtain ⟨unbacked, rfl⟩ | ⟨backed, busy, rfl⟩ | ⟨-, idle, rfl⟩ := exec_wrBuf h
    · simp [noCode, unbacked]
    · simp [noErr, backed, busy]
    · simp [noCode, idle]

/-! ## What raises an error, and what clears it -/

/-- Without a cause of R301-R303 no error is recorded. -/
theorem Effect.no_error (h : Effect i s t) (harmless : ¬RaisesError i s) (noErr : s.err = false)
    (noCode : s.errCode = .none) : t.errCode = .none ∧ t.err = false := by
  cases h with
  | raise e cause => exact absurd cause harmless
  | _ => simp [noErr, noCode]

/-- Settles O24: each refused write raises BUSY, and no instruction of the second list is a cause of an error. -/
theorem busyErrorsLeaveTheRunAlone : Obligations.BusyErrorsLeaveTheRunAlone := by
  intro s busy noErr noCode
  refine ⟨fun i hi => ?refused, fun i t hi h => (exec_effect h).no_error (fun cause => ?harmless) noErr noCode⟩
  case refused =>
    rw [← raiseError_of_noErr noErr .busy]
    obtain rfl | ⟨d, rfl⟩ | ⟨w, d, rfl, backed⟩ := hi
    · exact exec_cmdStart_of_busy busy
    · exact exec_wrMsgLen_of_busy busy d
    · exact exec_wrBuf_of_busy ((bufWordBacked_iff _ _).2 backed) busy d
  case harmless =>
    have raising := cause.instr
    obtain rfl | rfl | rfl | ⟨d, rfl⟩ | ⟨d, rfl⟩ | ⟨u, d, rfl⟩ | ⟨u, rfl⟩ := hi <;> simp at raising

/-- Settles O28: the effects that clear `ERR`, the write to `STATUS`, and the accepted START, which does not read it. -/
theorem onlyTheHostClearsAnError : Obligations.OnlyTheHostClearsAnError := by
  refine ⟨fun i s t h standing cleared => (exec_effect h).of_err_cleared cleared standing, fun d s t bit h => ?status,
    fun s idle fits => ⟨s.startRun, exec_cmdStart_accepted idle fits, rfl, rfl, rfl⟩⟩
  case status => simp [exec_wrStatus h, bit]

/-! ## No step stops -/

/-- A step that takes up no instruction goes on. -/
theorem step_next_of_fetch_none (h : s.fetch = none) : ∃ t, step s = .next t := by
  have passes : agentStep s = .next s.advance := by simp [agentStep, h]
  unfold step
  cases s.nextTurn
  · exact ⟨_, passes⟩
  · exact ⟨_, passes⟩
  · exact ⟨_, rfl⟩
  · exact ⟨_, rfl⟩

/-- Settles O56: a stage goes on under the invariant, a host's instruction in every state. -/
theorem noStepStopsUnderTheInvariant : Obligations.NoStepStopsUnderTheInvariant := by
  intro s inv
  cases taken : s.fetch with
  | none => exact step_next_of_fetch_none taken
  | some w =>
    rw [step_of_fetch taken]
    obtain ⟨-, ⟨-, rfl⟩ | ⟨-, op, ops, -, rfl⟩⟩ := fetch_cases taken
    · rw [← advance_stage s]
      exact inv.advance.stage_next
    · exact exec_host_next s.params op s.advance

end Sys2Proof.Machine
end

section
/-! PROOFS. The statements of 70_reset_and_hazards.md: the reset input of R340, and the buffer bytes beyond the message
of R347. -/

namespace Sys2Proof.Machine

variable {s u : State}

/-! ## The reset input (70_reset_and_hazards.md R340) -/

theorem advance_of_rstAsserted (asserted : s.rstAsserted = true) : s.advance = s.afterTurn := by
  unfold State.advance
  cases s.nextTurn
  · exact if_pos asserted
  · rfl
  · rfl
  · rfl

/-- While reset is asserted nothing is fetched, and an agent's turn passes. -/
theorem agentStep_of_rstAsserted (asserted : s.rstAsserted = true) : agentStep s = .next s.afterTurn := by
  have nothing : s.fetch = none := if_pos asserted
  rw [agentStep, nothing, advance_of_rstAsserted asserted]

theorem step_of_agent (agent : s.nextTurn = .host ∨ s.nextTurn = .engine) : step s = agentStep s := by
  obtain turn | turn := agent <;> rw [step, turn]

theorem step_assertReset {ts : List Turn} (hts : s.turns = .assertReset :: ts) :
    step s = .next s.afterTurn.assertReset := by
  rw [step, nextTurn_of_turns hts]

theorem afterTurn_of_turns {turn : Turn} {ts : List Turn} (hts : s.turns = turn :: ts) :
    s.afterTurn = { s with turns := ts } := by
  rw [State.afterTurn, hts, List.tail_cons]

theorem hardReset_hostVisible (s : State) : s.hardReset.HostVisibleAtReset :=
  hostVisibleAtReset_of_registers rfl rfl rfl rfl rfl rfl rfl rfl rfl

/-- Settles O12: an agent's turn passes while reset is asserted, and the release is the hard reset. -/
theorem hardResetHoldsAndReleases : Obligations.HardResetHoldsAndReleases := by
  refine ⟨fun s asserted agent => ?held, fun s ts hts => ?asserts, fun s ts asserted hts => ?released⟩
  case held => exact (step_of_agent agent).trans (agentStep_of_rstAsserted asserted)
  case asserts =>
    rw [step_assertReset hts, afterTurn_of_turns hts]
    rfl
  case released =>
    have release := step_releaseReset asserted hts
    rw [afterTurn_of_turns hts] at release
    exact ⟨_, release, hardReset_hostVisible _, rfl, rfl, fun _ => rfl, rfl, rfl, rfl, rfl⟩

/-! ## Bytes beyond the message (70_reset_and_hazards.md R347) -/

/-- The message is the bytes below `LEN_L`: the rest of the buffer is not in it. -/
theorem message_congr (len : u.lenL = s.lenL) (bytes : ∀ n, n < s.lenL.toNat → u.bufByte n = s.bufByte n) :
    u.message = s.message := by
  unfold State.message
  rw [len]
  exact List.map_congr_left fun n hn => bytes n (List.mem_range.1 hn)

/-- Of the buffer the invariant reads the canonical form alone. -/
theorem State.Inv.withBuffer (h : s.Inv) {m : Memory} (canonical : Memory.wf s.params.bufBytes m = true) (d : Nat) :
    State.Inv { s with msgBuf := m, bufDraw := d } :=
  ⟨canonical, h.stageLegal, h.errCoded, h.runNotDone, h.runLength, h.runBlocks, h.runCount, h.runIndex,
    h.permBijective⟩

/-- Settles O60: the digest and the seed of a completed run are those of its message (O58, and O59 for a run that is left
alone), and the two messages are the same. -/
theorem bytesBeyondTheMessageDoNotMatter : Obligations.BytesBeyondTheMessageDoNotMatter := by
  refine ⟨?interleaved, ?alone⟩
  case interleaved =>
    intro s u t v k l invS invU seedS seedU params len bytes busyS busyU runS idleT doneT runU idleV doneV
    have message : u.message = s.message := message_congr len bytes
    obtain ⟨digestT, seedT, -⟩ := everyInterleavingGivesTheDigest s t k invS seedS busyS runS idleT doneT
    obtain ⟨digestV, seedV, -⟩ := everyInterleavingGivesTheDigest u v l invU seedU busyU runU idleV doneV
    rw [digestT, seedT, digestV, seedV, params, message]
    exact ⟨rfl, rfl⟩
  case alone =>
    intro s m d inv seed alone canonical bytes
    have message : State.message { s with msgBuf := m, bufDraw := d } = s.message := message_congr rfl bytes
    obtain ⟨t, runT, -, -, digestT, seedT, -⟩ := runTakesThreePlusSevenPerBlock s inv seed alone
    obtain ⟨u, runU, -, -, digestU, seedU, -⟩ :=
      runTakesThreePlusSevenPerBlock { s with msgBuf := m, bufDraw := d } (inv.withBuffer canonical d) seed alone
    rw [message] at digestU seedU
    exact ⟨t, u, runT, runU, digestT.trans digestU.symm, seedT.trans seedU.symm⟩

end Sys2Proof.Machine
end
